-- ==== Sys2Proof/Word.lean ====
section
/-! DEFINITION. The word types of EAR version 2 (00_scope.md R8, 10_state.md R20). -/

namespace Sys2Proof

/-- A byte, 8 bits (R50). -/
abbrev Byte := BitVec 8

/-- A register value or an address, 16 bits (R8, R20). -/
abbrev Word := BitVec 16

/-- The number of a general register, 4 bits (R20). -/
abbrev RegNum := BitVec 4

/-- The number of an I/O port, 4 bits (R99, R184). -/
abbrev Port := BitVec 4

end Sys2Proof
end

