-- ==== Sys2Proof/Config.lean ====
section
/-! DEFINITION. What an implementation of EAR version 2 fixes (00_scope.md R6, R7) and the values the
spec leaves open. An `opaque` constant has no body: no proof can see its value. -/

namespace Sys2Proof

/-- The order of the two bytes of a 16-bit value (R7 BYTE_ORDER, 20_memory.md R51). -/
inductive ByteOrder where
  | little
  | big
deriving DecidableEq, Repr

/-- Rounding of a signed quotient that is not an integer (R7 SDIV_MODE, 40_alu.md R135). -/
inductive SDivMode where
  /-- toward zero -/
  | trunc
  /-- toward minus infinity -/
  | floor
deriving DecidableEq, Repr, Inhabited

/-- The three addresses a fault handler run needs (R7, 60_exceptions.md R257). -/
structure ExcArea where
  /-- EXC_STACK_TOP: SP on entry to a handler -/
  stackTop : Word
  /-- EXC_SAVED_REGS: physical address of the 32-byte saved-register area -/
  savedRegs : Word
  /-- EXC_RETURN_ADDR: RA on entry to a handler, where its return is recognised -/
  returnAddr : Word
deriving DecidableEq, Repr, Inhabited

/-- One event at a port, as the model records it (43_port_io.md R180, R181). -/
inductive PortEvent where
  /-- `RDB`: the environment answered `byte` and `fail` -/
  | read (port : Port) (byte : Byte) (fail : Bool)
  /-- `WRB`: `byte` was handed out and the environment answered `fail` -/
  | write (port : Port) (byte : Byte) (fail : Bool)
deriving DecidableEq, Repr

namespace Config

/-- First byte of the virtual page table (R6 PAGE_TABLE_BASE, R63). -/
def pageTableBase : Word := 0xFC00#16

/-- First byte of the physical allocation table (R6 PAT_BASE, R66). -/
def patBase : Word := 0x0100#16

/-- Size of the virtual page table: 256 entries of 4 bytes (R6, R63). -/
def pageTableBytes : Nat := 0x400

/-- Size of the physical allocation table: a byte for each physical page (R6, R66). -/
def patBytes : Nat := 0x100

/-- Size of the exception stack, 2.5 KiB (R6 EXC_STACK_BYTES, R259). -/
def excStackBytes : Nat := 0xA00

/-- BYTE_ORDER: decided little-endian, one field for every 16-bit value (R51, D1; log 20). -/
def byteOrder : ByteOrder := .little

/-- PHYS_BITMAP_ENFORCED: decided false (R68, D22, C2; log 11). -/
def physBitmapEnforced : Bool := false

/-- Whether the bitmap at physical 0x0000..0x001F (its 32 bytes, in order) allows a physical page.
The spec gives it no format (R68), so it is free; it is consulted only if `physBitmapEnforced`. -/
opaque bitmapAllows : List Byte → Byte → Bool

/-- SDIV_MODE: left open by the spec (R135, D8; log 9). -/
opaque sdivMode : SDivMode

/-- Whether the `n` bytes from `a` and the `m` bytes from `b`, addresses taken modulo 2^16, share none. -/
def apart (a : Word) (n : Nat) (b : Word) (m : Nat) : Bool := n ≤ (b - a).toNat && m ≤ (a - b).toNat

/-- Neither the page table nor the allocation table has one of the `n` bytes from `a` (R264). -/
def outsideTables (a : Word) (n : Nat) : Bool :=
  apart a n pageTableBase pageTableBytes && apart a n patBase patBytes

/-- What R264 requires of a configuration: the exception stack below EXC_STACK_TOP (R259), the saved-register
area (R257) and the return address lie outside the tables. -/
def placed (area : ExcArea) : Bool :=
  outsideTables (area.stackTop - BitVec.ofNat 16 excStackBytes) excStackBytes &&
    outsideTables area.savedRegs 32 && outsideTables area.returnAddr 1

/-- The three addresses of the exception area: left open by the spec (R257, D27; log 10). -/
opaque freeArea : ExcArea

/-- EXC_STACK_TOP, EXC_SAVED_REGS, EXC_RETURN_ADDR: free among the areas outside the tables, as R264 requires
(D27; log 10). Where the free addresses are not, they are those of the spec's program 5, which are. -/
@[irreducible] def excArea : ExcArea :=
  if placed freeArea then freeArea
  else { stackTop := 0x0E00#16, savedRegs := 0x0E00#16, returnAddr := 0x0E20#16 }

/-- `PortRead(p)`: the environment's `(byte, fail)` for the next event, a read of port `p`, after the
events so far (R180, D33; log 8). -/
opaque portRead : List PortEvent → Port → Byte × Bool

/-- `PortWrite(p, b)`: the environment's `fail` for the next event, a write of `b` to port `p`, after
the events so far (R181, D33; log 8). -/
opaque portWrite : List PortEvent → Port → Byte → Bool

/-- RESET_PC: a launch parameter with no value in the spec (R300, D32). DESIGN CHOICE, log 2. -/
def resetPc : Word := 0x0000#16

/-- RESET_REGS: launch parameters with no value in the spec (R300, D32). DESIGN CHOICE, log 1. -/
def resetReg : Word := 0x0000#16

/-- What a byte of physical memory reads as before anything is written or loaded there (RESET_MEM,
R300, D32). DESIGN CHOICE, log 4. -/
def unlistedByte : Byte := 0x00#8

end Config

end Sys2Proof
end

