-- ==== Sys2Proof/Syntax.lean ====
section
/-! DEFINITION. The instructions of EAR version 2: one constructor for each row of
spec/opcode_table.json (30_encoding.md R107, 46_prefixes.md R210 to R214). -/

namespace Sys2Proof

/-- The 3-bit condition field of an opcode byte (R90). An `XC` prefix adds 8 to it (R91). -/
abbrev CondField := BitVec 3

/-- The field of a `SImm4` operand, not yet its value (R98). -/
abbrev SImm4 := BitVec 4

/-- A `Regs16` operand: bit `i` set means `Ri` is a member (R100). -/
abbrev Regs16 := Word

/-- A `Vy` operand (R96): register `Ry`, or the `Imm16` that follows when the field holds 15. -/
inductive Vy where
  | reg (ry : RegNum)
  | imm (imm16 : Word)
deriving DecidableEq, Repr

/-- A `V8` operand (R97): the low byte of `Ry`, or the `Imm8` that follows when the field holds 15. -/
inductive V8 where
  | reg (ry : RegNum)
  | imm (imm8 : Byte)
deriving DecidableEq, Repr

/-- An instruction: an opcode byte with its operand bytes, or one prefix byte ("a one-byte instruction
with condition field 6 that modifies the instruction after it", R11; log 6). -/
inductive Instr where
  | add (cc : CondField) (rx : RegNum) (vy : Vy)
  | sub (cc : CondField) (rx : RegNum) (vy : Vy)
  | mlu (cc : CondField) (rx : RegNum) (vy : Vy)
  | mls (cc : CondField) (rx : RegNum) (vy : Vy)
  | dvu (cc : CondField) (rx : RegNum) (vy : Vy)
  | dvs (cc : CondField) (rx : RegNum) (vy : Vy)
  | xor (cc : CondField) (rx : RegNum) (vy : Vy)
  | and (cc : CondField) (rx : RegNum) (vy : Vy)
  | orr (cc : CondField) (rx : RegNum) (vy : Vy)
  | shl (cc : CondField) (rx : RegNum) (vy : Vy)
  | sru (cc : CondField) (rx : RegNum) (vy : Vy)
  | srs (cc : CondField) (rx : RegNum) (vy : Vy)
  | mov (cc : CondField) (rx : RegNum) (vy : Vy)
  | cmp (cc : CondField) (rx : RegNum) (vy : Vy)
  /-- opcode 0E, reserved (R108, R204) -/
  | reserved0E (cc : CondField)
  /-- opcode 0F, reserved (R108, R204) -/
  | reserved0F (cc : CondField)
  | ldw (cc : CondField) (rx : RegNum) (vy : Vy)
  | stw (cc : CondField) (rx : RegNum) (vy : Vy)
  | ldb (cc : CondField) (rx : RegNum) (vy : Vy)
  | stb (cc : CondField) (rx : RegNum) (v8 : V8)
  | bra (cc : CondField) (rx : RegNum) (vy : Vy)
  | brr (cc : CondField) (imm16 : Word)
  | fca (cc : CondField) (rx : RegNum) (vy : Vy)
  | fcr (cc : CondField) (imm16 : Word)
  | rdb (cc : CondField) (rx : RegNum) (port : Port)
  | wrb (cc : CondField) (port : Port) (v8 : V8)
  | psh (cc : CondField) (regs : Regs16)
  | pop (cc : CondField) (regs : Regs16)
  | inc (cc : CondField) (rx : RegNum) (simm : SImm4)
  | bpt (cc : CondField)
  | hlt (cc : CondField)
  | nop (cc : CondField)
  /-- prefix byte C0 (R210) -/
  | xc
  /-- prefix byte C1 (R211) -/
  | tf
  /-- prefix byte C2 (R212) -/
  | em
  /-- prefix bytes D0..DF (R213) -/
  | dr (rd : RegNum)
  /-- reserved prefix byte C3 (R214) -/
  | reservedPrefixC3
  /-- reserved prefix bytes C4..C7 (R214) -/
  | reservedPrefixC4 (n : BitVec 2)
  /-- reserved prefix bytes C8..CF (R214) -/
  | reservedPrefixC8 (n : BitVec 3)
deriving DecidableEq, Repr

end Sys2Proof
end

