-- ==== Sys2Proof/WellFormed.lean ====
section
/-! DEFINITION. Which terms of `Instr` an encoding exists for (30_encoding.md R92, R96, R97). What is
well formed depends on whether an `XC` prefix stands directly before: the byte after `XC` is an opcode
byte whatever its condition field, and no prefix byte (R92). -/

namespace Sys2Proof

/-- The value 15 in the `Ry` position is the immediate marker, never a register (R22, R96). -/
def Vy.wf : Vy → Bool
  | .reg ry => ry != 15#4
  | .imm _ => true

/-- The value 15 in the `Ry` position is the immediate marker, never a register (R22, R97). -/
def V8.wf : V8 → Bool
  | .reg ry => ry != 15#4
  | .imm _ => true

/-- Condition field 6 marks a prefix byte, but for the byte directly after `XC` (R34, R92). -/
def condFieldOk (afterXC : Bool) (cc : CondField) : Bool := afterXC || cc != 6#3

/-- The instruction has an encoding in the place it stands in: directly after an `XC` prefix, or not. -/
def Instr.wf (afterXC : Bool) : Instr → Bool
  | .add cc _ vy => condFieldOk afterXC cc && vy.wf
  | .sub cc _ vy => condFieldOk afterXC cc && vy.wf
  | .mlu cc _ vy => condFieldOk afterXC cc && vy.wf
  | .mls cc _ vy => condFieldOk afterXC cc && vy.wf
  | .dvu cc _ vy => condFieldOk afterXC cc && vy.wf
  | .dvs cc _ vy => condFieldOk afterXC cc && vy.wf
  | .xor cc _ vy => condFieldOk afterXC cc && vy.wf
  | .and cc _ vy => condFieldOk afterXC cc && vy.wf
  | .orr cc _ vy => condFieldOk afterXC cc && vy.wf
  | .shl cc _ vy => condFieldOk afterXC cc && vy.wf
  | .sru cc _ vy => condFieldOk afterXC cc && vy.wf
  | .srs cc _ vy => condFieldOk afterXC cc && vy.wf
  | .mov cc _ vy => condFieldOk afterXC cc && vy.wf
  | .cmp cc _ vy => condFieldOk afterXC cc && vy.wf
  | .reserved0E cc => condFieldOk afterXC cc
  | .reserved0F cc => condFieldOk afterXC cc
  | .ldw cc _ vy => condFieldOk afterXC cc && vy.wf
  | .stw cc _ vy => condFieldOk afterXC cc && vy.wf
  | .ldb cc _ vy => condFieldOk afterXC cc && vy.wf
  | .stb cc _ v8 => condFieldOk afterXC cc && v8.wf
  | .bra cc _ vy => condFieldOk afterXC cc && vy.wf
  | .brr cc _ => condFieldOk afterXC cc
  | .fca cc _ vy => condFieldOk afterXC cc && vy.wf
  | .fcr cc _ => condFieldOk afterXC cc
  | .rdb cc _ _ => condFieldOk afterXC cc
  | .wrb cc _ v8 => condFieldOk afterXC cc && v8.wf
  | .psh cc _ => condFieldOk afterXC cc
  | .pop cc _ => condFieldOk afterXC cc
  | .inc cc _ _ => condFieldOk afterXC cc
  | .bpt cc => condFieldOk afterXC cc
  | .hlt cc => condFieldOk afterXC cc
  | .nop cc => condFieldOk afterXC cc
  | .xc => !afterXC
  | .tf => !afterXC
  | .em => !afterXC
  | .dr _ => !afterXC
  | .reservedPrefixC3 => !afterXC
  | .reservedPrefixC4 _ => !afterXC
  | .reservedPrefixC8 _ => !afterXC

end Sys2Proof
end

