-- ==== Sys2Proof/Decode.lean ====
section
/-! DEFINITION. The decoder and the encoder of EAR version 2 (30_encoding.md R90 to R102, R107 to R110).
The decoder is total on any bytes; every byte pattern that is long enough decodes, the reserved ones to
constructors of their own. -/

namespace Sys2Proof

/-- Why bytes do not decode: the stream ends inside an instruction. The names say what is missing. -/
inductive DecodeError where
  | missingOpcodeByte
  | missingRegpairByte
  | missingImmediate
deriving DecidableEq, Repr

/-! ### Bytes and words -/

/-- The 16-bit value of two bytes in stream or address order (R51, R59, R60). -/
def wordOfBytes (first second : Byte) : Word :=
  match Config.byteOrder with
  | .little => second ++ first
  | .big => first ++ second

/-- The byte of a 16-bit value that stands at the lower address or is fetched first (R51, R61). -/
def firstByte (w : Word) : Byte :=
  match Config.byteOrder with
  | .little => w.extractLsb' 0 8
  | .big => w.extractLsb' 8 8

/-- The byte of a 16-bit value that stands at the next address or is fetched second (R51, R61). -/
def secondByte (w : Word) : Byte :=
  match Config.byteOrder with
  | .little => w.extractLsb' 8 8
  | .big => w.extractLsb' 0 8

/-- Bits 7:5 of an opcode byte (R90). -/
def condFieldOf (b : Byte) : CondField := b.extractLsb' 5 3

/-- Bits 4:0 of an opcode byte (R90). -/
def opcodeOf (b : Byte) : BitVec 5 := b.extractLsb' 0 5

/-- The opcode byte with condition field `cc` and opcode `op`: `(cc << 5) | op` (R90). -/
def opcodeByte (cc : CondField) (op : BitVec 5) : Byte := cc ++ op

/-- The high nybble of a byte (R94). -/
def highNybble (b : Byte) : BitVec 4 := b.extractLsb' 4 4

/-- The low nybble of a byte (R94). -/
def lowNybble (b : Byte) : BitVec 4 := b.extractLsb' 0 4

/-- A byte of two nybbles, the regpair byte among them (R94). -/
def nybbles (high low : BitVec 4) : Byte := high ++ low

/-! ### The decoder -/

/-- Format `RV` (R96, R101): a regpair byte, and an `Imm16` when `ry = 15`. -/
def decodeRV (make : RegNum → Vy → Instr) : List Byte → Except DecodeError (Instr × List Byte)
  | [] => .error .missingRegpairByte
  | rp :: rest =>
    if lowNybble rp = 15#4 then
      match rest with
      | first :: second :: rest' => .ok (make (highNybble rp) (.imm (wordOfBytes first second)), rest')
      | _ => .error .missingImmediate
    else .ok (make (highNybble rp) (.reg (lowNybble rp)), rest)

/-- Format `RV8` (R97, R101): a regpair byte, and an `Imm8` when `ry = 15`. -/
def decodeRV8 (make : BitVec 4 → V8 → Instr) : List Byte → Except DecodeError (Instr × List Byte)
  | [] => .error .missingRegpairByte
  | rp :: rest =>
    if lowNybble rp = 15#4 then
      match rest with
      | imm8 :: rest' => .ok (make (highNybble rp) (.imm imm8), rest')
      | [] => .error .missingImmediate
    else .ok (make (highNybble rp) (.reg (lowNybble rp)), rest)

/-- Format `RI4` (R98, R99, R101): a byte of a register number and a 4-bit literal. -/
def decodeRI4 (make : RegNum → BitVec 4 → Instr) : List Byte → Except DecodeError (Instr × List Byte)
  | [] => .error .missingRegpairByte
  | rp :: rest => .ok (make (highNybble rp) (lowNybble rp), rest)

/-- Format `I16` (R100, R101): a 16-bit literal. -/
def decodeI16 (make : Word → Instr) : List Byte → Except DecodeError (Instr × List Byte)
  | first :: second :: rest => .ok (make (wordOfBytes first second), rest)
  | _ => .error .missingImmediate

/-- The operand bytes of each opcode (R107); 0E and 0F decode at once (R108). -/
def decodeOpcode (cc : CondField) (op : BitVec 5) (rest : List Byte) :
    Except DecodeError (Instr × List Byte) :=
  match op.toNat with
  | 0x00 => decodeRV (.add cc) rest
  | 0x01 => decodeRV (.sub cc) rest
  | 0x02 => decodeRV (.mlu cc) rest
  | 0x03 => decodeRV (.mls cc) rest
  | 0x04 => decodeRV (.dvu cc) rest
  | 0x05 => decodeRV (.dvs cc) rest
  | 0x06 => decodeRV (.xor cc) rest
  | 0x07 => decodeRV (.and cc) rest
  | 0x08 => decodeRV (.orr cc) rest
  | 0x09 => decodeRV (.shl cc) rest
  | 0x0A => decodeRV (.sru cc) rest
  | 0x0B => decodeRV (.srs cc) rest
  | 0x0C => decodeRV (.mov cc) rest
  | 0x0D => decodeRV (.cmp cc) rest
  | 0x0E => .ok (.reserved0E cc, rest)
  | 0x0F => .ok (.reserved0F cc, rest)
  | 0x10 => decodeRV (.ldw cc) rest
  | 0x11 => decodeRV (.stw cc) rest
  | 0x12 => decodeRV (.ldb cc) rest
  | 0x13 => decodeRV8 (.stb cc) rest
  | 0x14 => decodeRV (.bra cc) rest
  | 0x15 => decodeI16 (.brr cc) rest
  | 0x16 => decodeRV (.fca cc) rest
  | 0x17 => decodeI16 (.fcr cc) rest
  | 0x18 => decodeRI4 (.rdb cc) rest
  | 0x19 => decodeRV8 (.wrb cc) rest
  | 0x1A => decodeI16 (.psh cc) rest
  | 0x1B => decodeI16 (.pop cc) rest
  | 0x1C => decodeRI4 (.inc cc) rest
  | 0x1D => .ok (.bpt cc, rest)
  | 0x1E => .ok (.hlt cc, rest)
  | _ => .ok (.nop cc, rest)

/-- The prefix a byte with condition field 6 selects by its opcode field (R93, R109). -/
def decodePrefix (sel : BitVec 5) : Instr :=
  match sel.toNat with
  | 0x00 => .xc
  | 0x01 => .tf
  | 0x02 => .em
  | 0x03 => .reservedPrefixC3
  | n =>
    if n < 0x08 then .reservedPrefixC4 (sel.extractLsb' 0 2)
    else if n < 0x10 then .reservedPrefixC8 (sel.extractLsb' 0 3)
    else .dr (sel.extractLsb' 0 4)

/-- One instruction, or one prefix byte, from the bytes of the stream (R92, R104): a byte with condition
field 6 is a prefix unless it stands directly after `XC`. Answers the bytes not used. -/
def decode (afterXC : Bool) : List Byte → Except DecodeError (Instr × List Byte)
  | [] => .error .missingOpcodeByte
  | b :: rest =>
    if !afterXC && condFieldOf b == 6#3 then .ok (decodePrefix (opcodeOf b), rest)
    else decodeOpcode (condFieldOf b) (opcodeOf b) rest

/-! ### The encoder -/

/-- The bytes of a `Vy` instruction, format `RV` (R96, R101). -/
def encodeRV (cc : CondField) (op : BitVec 5) (rx : RegNum) : Vy → List Byte
  | .reg ry => [opcodeByte cc op, nybbles rx ry]
  | .imm w => [opcodeByte cc op, nybbles rx 15#4, firstByte w, secondByte w]

/-- The bytes of a `V8` instruction, format `RV8` (R97, R101). -/
def encodeRV8 (cc : CondField) (op : BitVec 5) (high : BitVec 4) : V8 → List Byte
  | .reg ry => [opcodeByte cc op, nybbles high ry]
  | .imm b => [opcodeByte cc op, nybbles high 15#4, b]

/-- Format `RI4` (R101). -/
def encodeRI4 (cc : CondField) (op : BitVec 5) (rx : RegNum) (n : BitVec 4) : List Byte :=
  [opcodeByte cc op, nybbles rx n]

/-- Format `I16` (R101). -/
def encodeI16 (cc : CondField) (op : BitVec 5) (w : Word) : List Byte :=
  [opcodeByte cc op, firstByte w, secondByte w]

/-- The bytes of an instruction in stream order (R90, R93, R101, R107). -/
def encode : Instr → List Byte
  | .add cc rx vy => encodeRV cc 0x00#5 rx vy
  | .sub cc rx vy => encodeRV cc 0x01#5 rx vy
  | .mlu cc rx vy => encodeRV cc 0x02#5 rx vy
  | .mls cc rx vy => encodeRV cc 0x03#5 rx vy
  | .dvu cc rx vy => encodeRV cc 0x04#5 rx vy
  | .dvs cc rx vy => encodeRV cc 0x05#5 rx vy
  | .xor cc rx vy => encodeRV cc 0x06#5 rx vy
  | .and cc rx vy => encodeRV cc 0x07#5 rx vy
  | .orr cc rx vy => encodeRV cc 0x08#5 rx vy
  | .shl cc rx vy => encodeRV cc 0x09#5 rx vy
  | .sru cc rx vy => encodeRV cc 0x0A#5 rx vy
  | .srs cc rx vy => encodeRV cc 0x0B#5 rx vy
  | .mov cc rx vy => encodeRV cc 0x0C#5 rx vy
  | .cmp cc rx vy => encodeRV cc 0x0D#5 rx vy
  | .reserved0E cc => [opcodeByte cc 0x0E#5]
  | .reserved0F cc => [opcodeByte cc 0x0F#5]
  | .ldw cc rx vy => encodeRV cc 0x10#5 rx vy
  | .stw cc rx vy => encodeRV cc 0x11#5 rx vy
  | .ldb cc rx vy => encodeRV cc 0x12#5 rx vy
  | .stb cc rx v8 => encodeRV8 cc 0x13#5 rx v8
  | .bra cc rx vy => encodeRV cc 0x14#5 rx vy
  | .brr cc w => encodeI16 cc 0x15#5 w
  | .fca cc rx vy => encodeRV cc 0x16#5 rx vy
  | .fcr cc w => encodeI16 cc 0x17#5 w
  | .rdb cc rx port => encodeRI4 cc 0x18#5 rx port
  | .wrb cc port v8 => encodeRV8 cc 0x19#5 port v8
  | .psh cc regs => encodeI16 cc 0x1A#5 regs
  | .pop cc regs => encodeI16 cc 0x1B#5 regs
  | .inc cc rx simm => encodeRI4 cc 0x1C#5 rx simm
  | .bpt cc => [opcodeByte cc 0x1D#5]
  | .hlt cc => [opcodeByte cc 0x1E#5]
  | .nop cc => [opcodeByte cc 0x1F#5]
  | .xc => [0xC0#8]
  | .tf => [0xC1#8]
  | .em => [0xC2#8]
  | .dr rd => [nybbles 0xD#4 rd]
  | .reservedPrefixC3 => [0xC3#8]
  | .reservedPrefixC4 n => [(0b110001#6 ++ n : BitVec 8)]
  | .reservedPrefixC8 n => [(0b11001#5 ++ n : BitVec 8)]

/-! ### The host's question -/

/-- The lowest `count` bytes of a number, the least significant byte first. -/
def bytesOfNat : Nat → Nat → List Byte
  | 0, _ => []
  | count + 1, w => BitVec.ofNat 8 w :: bytesOfNat count (w / 256)

/-- The longest instruction without prefixes, in bytes (R102). -/
def maxInstrBytes : Nat := 4

/-- The bytes of a table word: its lowest `nbits` bits, and zeros above them up to the longest
instruction; the first byte is the least significant. -/
def tableBytes (nbits w : Nat) : List Byte := bytesOfNat maxInstrBytes (w % 2 ^ nbits)

/-- The instruction the decoder reads from a table word, at an instruction boundary. -/
def decodeTableWord (nbits w : Nat) : Option Instr :=
  match decode false (tableBytes nbits w) with
  | .ok (i, _) => some i
  | .error _ => none

end Sys2Proof
end

