-- ==== Sys2Proof/Machine/State.lean ====
section
/-! DEFINITION. The state of EAR version 2 as plain data: every piece 10_state.md R20 to R39 and
60_exceptions.md R258 give the machine, the reasons a step can stop, and the machine after reset. -/

namespace Sys2Proof.Machine

/-- The six flags of `FLAGS` (R27, R28, R29). -/
structure Flags where
  /-- zero -/
  zf : Bool
  /-- sign -/
  sf : Bool
  /-- parity: 1 for an odd number of 1 bits -/
  pf : Bool
  /-- carry -/
  cf : Bool
  /-- signed overflow -/
  vf : Bool
  /-- MMU-disable: set in the exception context only -/
  mf : Bool
deriving DecidableEq, Repr

/-- A register context (R35): `R1` to `R15`, the register `Ri` at index `i - 1`, and `FLAGS`. `R0` has no
storage (R21); `R14` is `PC` (R24) and `R15` is `DPC` (R25). -/
structure Context where
  regs : Vector Word 15
  flags : Flags
deriving DecidableEq, Repr

/-- The decode state of the instruction in progress (R104, R258): the address of its first byte, first
prefix byte if any, and the prefixes read so far. -/
structure Progress where
  startPc : Word
  xc : Bool
  tf : Bool
  em : Bool
  dr : Option RegNum
deriving DecidableEq, Repr

/-- The kind of a byte access (R54). -/
inductive Kind where
  | read
  | write
  | execute
deriving DecidableEq, Repr

/-- One byte access to data: its kind, its address, and the byte to store when it is a write (R57). -/
structure ByteAccess where
  kind : Kind
  addr : Word
  byte : Byte
deriving DecidableEq, Repr

/-- What an instruction with data accesses commits after the last of them, with the operands it latched
(R106 steps 2 and 4; R160 to R163, R190, R191). -/
inductive DataOp where
  /-- `LDW`: destination and flag-write enable -/
  | loadWord (rd : RegNum) (wf : Bool)
  /-- `LDB`: destination and flag-write enable -/
  | loadByte (rd : RegNum) (wf : Bool)
  /-- `STW`, `STB`: nothing to commit -/
  | store
  /-- `PSH`: pointer register and its new value -/
  | push (rd : RegNum) (pointer : Word)
  /-- `POP`: pointer register and the set of registers -/
  | pop (rd : RegNum) (regs : Regs16)
deriving DecidableEq, Repr

/-- Where a suspended instruction stands (R258). -/
inductive Work where
  /-- the code byte at `PC` could not be fetched; `got` are the operation's bytes fetched before it -/
  | fetch (got : List Byte)
  /-- a data byte faulted: the bytes read so far, the faulting access, and those after it -/
  | data (op : DataOp) (got : List Byte) (faulting : ByteAccess) (todo : List ByteAccess)
deriving DecidableEq, Repr

/-- The suspended thread while a fault handler runs (R37, R258): its context with the live `PC`, the
decode state of the faulting instruction, and how far it has got. -/
structure Suspended where
  thread : Context
  progress : Progress
  work : Work
deriving DecidableEq, Repr

/-- Why the machine has halted (R250). Names only: no numeric value exists. -/
inductive HaltReason where
  /-- HALT_UNMAPPED -/
  | unmapped
  /-- HALT_DOUBLEFAULT -/
  | doubleFault
  /-- HALT_INSTRUCTION -/
  | instruction
  /-- HALT_BREAKPOINT -/
  | breakpoint
  /-- HALT_ILLEGAL -/
  | illegal
  /-- HALT_DIVZERO -/
  | divZero
deriving DecidableEq, Repr

/-- The run status (R38). -/
inductive Status where
  | running
  | halted (reason : HaltReason)
deriving DecidableEq, Repr

/-- The machine's state. -/
structure State where
  /-- the running context -/
  ctx : Context
  /-- physical memory: the bytes that differ from `Config.unlistedByte`, by rising address (R36) -/
  mem : List Host.Cell
  /-- the instruction in progress; `none` at an instruction boundary (R104) -/
  progress : Option Progress
  /-- the suspended thread, while a fault handler runs (R37) -/
  suspended : Option Suspended
  /-- the port events so far, oldest first (R180, R181) -/
  ports : List PortEvent
  /-- running, or halted with a reason (R38) -/
  status : Status
deriving DecidableEq, Repr

/-- Why a step has no next state. -/
inductive Fault where
  /-- Raised by `step` on a halted machine, which "executes nothing further" (R38, R250): no later step
  exists. Safe: nothing is proved of a state that does not exist. -/
  | halted (reason : HaltReason)
deriving DecidableEq, Repr

/-- Why a step is declined. -/
inductive Refusal where
  /-- Raised by `exec` for an instruction with no meaning yet. No arm raises it. Safe. -/
  | notModelled (mnemonic : String)
deriving DecidableEq, Repr

/-- The flags after reset: `MF = 0` as the spec says (R39); the others DESIGN CHOICE 0, log 3. -/
def Flags.reset : Flags :=
  { zf := false, sf := false, pf := false, cf := false, vf := false, mf := false }

/-- The registers after reset: `DPC = 0` as the spec says (R39); `R1` to `R13` DESIGN CHOICE, log 1;
`PC` DESIGN CHOICE, log 2. -/
def Context.reset : Context :=
  { regs := (Vector.replicate 15 Config.resetReg).set 13 Config.resetPc |>.set 14 0x0000#16
    flags := .reset }

/-- The machine right after reset (R39, R300): the thread context, at an instruction boundary, nothing
suspended, memory with nothing listed (log 4), running. -/
def State.reset : State :=
  { ctx := .reset, mem := [], progress := none, suspended := none, ports := [], status := .running }

end Sys2Proof.Machine
end

