-- ==== Sys2Proof/Machine/Flags.lean ====
section
/-! DEFINITION. Every flag computation and the condition table (10_state.md R27 to R34). The functions
here compute; whether an instruction's flags are kept is `wf` (R103), applied where they are written. -/

namespace Sys2Proof.Machine

/-- The numbers of the 1 bits of a 16-bit value, ascending (R9, R100). -/
def bitNumbers (w : Word) : List Nat := (List.range 16).filter (fun n => w.getLsbD n)

/-- The number of 1 bits (R9 `popcount`). -/
def popcount (w : Word) : Nat := (bitNumbers w).length

/-- 1 when the number of 1 bits is odd (R9 `parity`, R31). -/
def parity (w : Word) : Bool := popcount w % 2 == 1

/-- `setZSP(v)` (R31): ZF, SF and PF of a 16-bit result. -/
def Flags.withZSP (f : Flags) (v : Word) : Flags :=
  { f with zf := v == 0#16, sf := v.getLsbD 15, pf := parity v }

/-- The flags of `AddFlags(a, b)` (R32), whose result is `a + b`: CF is bit 16 of the 17-bit sum, VF is
signed overflow. -/
def Flags.ofAdd (f : Flags) (a b : Word) : Flags :=
  let r := a + b
  { f.withZSP r with
    cf := (a.setWidth 17 + b.setWidth 17).getLsbD 16
    vf := (a.getLsbD 15 == b.getLsbD 15) && (r.getLsbD 15 != a.getLsbD 15) }

/-- The flags of `SubFlags(a, b)` (R32), whose result is `a - b`: CF is 1 when no borrow occurs
(D4; log 23), VF is signed overflow. -/
def Flags.ofSub (f : Flags) (a b : Word) : Flags :=
  let r := a - b
  { f.withZSP r with
    cf := decide (b.toNat ≤ a.toNat)
    vf := (a.getLsbD 15 != b.getLsbD 15) && (r.getLsbD 15 != a.getLsbD 15) }

/-- ZF, SF, PF of a result and a given CF (FLAGS column `ZSPC`: R140, R141, R182, R183). -/
def Flags.withZSPC (f : Flags) (v : Word) (c : Bool) : Flags := { f.withZSP v with cf := c }

/-- The truth of a condition number on the flags (R33). Number 6 never belongs to an executed operation
(R34): no decoded instruction reaches it, and it is taken as not true (log 12). -/
def condTrue (cond : BitVec 4) (f : Flags) : Bool :=
  match cond.toNat with
  | 0x0 => f.zf
  | 0x1 => !f.zf
  | 0x2 => f.cf && !f.zf
  | 0x3 => !f.cf || f.zf
  | 0x4 => !f.cf
  | 0x5 => f.cf
  | 0x6 => false
  | 0x7 => true
  | 0x8 => f.sf
  | 0x9 => !f.sf
  | 0xA => !f.zf && (f.sf == f.vf)
  | 0xB => f.zf || (f.sf != f.vf)
  | 0xC => f.sf != f.vf
  | 0xD => f.sf == f.vf
  | 0xE => f.pf
  | _ => !f.pf

/-- `FLAGS` as a 16-bit word: ZF bit 0, SF 1, PF 2, CF 3, VF 4, MF 5, bits 15:6 zero (R27, D2; log 21). No
instruction reads or writes it as a whole. -/
def Flags.toWord (f : Flags) : Word :=
  (0#10 ++ BitVec.ofBool f.mf ++ BitVec.ofBool f.vf ++ BitVec.ofBool f.cf ++ BitVec.ofBool f.pf
    ++ BitVec.ofBool f.sf ++ BitVec.ofBool f.zf : BitVec 16)

end Sys2Proof.Machine
end

