-- ==== Sys2Proof/Machine/Ops.lean ====
section
/-! DEFINITION. The named operations of the machine: physical memory, registers, translation and the
physical check, byte accesses, halts, taking a page fault and returning from its handler (20_memory.md,
60_exceptions.md). -/

namespace Sys2Proof.Machine

/-! ### Physical memory -/

/-- `PhysRead8` on a memory: the listed byte, or what an unlisted address reads as (R9, R71; log 4). -/
def memRead (m : List Host.Cell) (a : Nat) : Byte :=
  match m with
  | [] => Config.unlistedByte
  | (k, b) :: rest => if k = a then b else memRead rest a

/-- `PhysWrite8` on a memory. It keeps the canonical form: a byte equal to what an unlisted address reads
as is not listed. -/
def memWrite (m : List Host.Cell) (a : Nat) (b : Byte) : List Host.Cell :=
  match m with
  | [] => if b = Config.unlistedByte then [] else [(a, b)]
  | (k, c) :: rest =>
    if a < k then (if b = Config.unlistedByte then (k, c) :: rest else (a, b) :: (k, c) :: rest)
    else if a = k then (if b = Config.unlistedByte then rest else (a, b) :: rest)
    else (k, c) :: memWrite rest a b

/-- The canonical form of a memory: addresses strictly rising and inside the 65536 bytes of R36, and no
entry equal to what an unlisted address reads as. -/
abbrev Memory.wf (m : List Host.Cell) : Prop :=
  m.Pairwise (fun c d => c.1 < d.1) ∧ ∀ c ∈ m, c.1 < 65536 ∧ c.2 ≠ Config.unlistedByte

/-- Raw read of a physical byte: no translation, no check (R9). -/
def State.physRead (s : State) (pa : Word) : Byte := memRead s.mem pa.toNat

/-- Raw write of a physical byte: no translation, no check (R9). -/
def State.physWrite (s : State) (pa : Word) (b : Byte) : State :=
  { s with mem := memWrite s.mem pa.toNat b }

/-- Raw read of a 16-bit value, as the hardware reads the saved registers (R260). -/
def memReadWord (m : List Host.Cell) (pa : Word) : Word :=
  wordOfBytes (memRead m pa.toNat) (memRead m (pa + 1#16).toNat)

/-- Raw write of a 16-bit value, as the hardware saves the registers (R257). -/
def memWriteWord (m : List Host.Cell) (pa : Word) (w : Word) : List Host.Cell :=
  memWrite (memWrite m pa.toNat (firstByte w)) (pa + 1#16).toNat (secondByte w)

/-! ### Registers -/

/-- Where a register other than `R0` stands in a context. -/
theorem regIndex_lt (r : RegNum) (h : r ≠ 0#4) : r.toNat - 1 < 15 := by
  have hlt := r.isLt
  have h0 : r.toNat ≠ 0 := fun h0 => h (BitVec.eq_of_toNat_eq h0)
  omega

/-- `x[r]` in a context; `R0` reads 0 (R21). -/
def Context.reg (c : Context) (r : RegNum) : Word :=
  if h : r = 0#4 then 0#16 else c.regs[r.toNat - 1]'(regIndex_lt r h)

/-- `x[r] <- v` in a context; a write to `R0` is discarded (R21). -/
def Context.setReg (c : Context) (r : RegNum) (v : Word) : Context :=
  if h : r = 0#4 then c else { c with regs := c.regs.set (r.toNat - 1) v (regIndex_lt r h) }

/-- The register number of `SP` (R20). -/
def regSP : RegNum := 11#4
/-- The register number of `RA` (R20). -/
def regRA : RegNum := 12#4
/-- The register number of `RD` (R20). -/
def regRD : RegNum := 13#4
/-- The register number of `PC` (R20). -/
def regPC : RegNum := 14#4
/-- The register number of `DPC` (R20). -/
def regDPC : RegNum := 15#4

/-- `x[r]` of the running context (R9). -/
def State.reg (s : State) (r : RegNum) : Word := s.ctx.reg r

/-- `x[r] <- v` in the running context (R9). -/
def State.setReg (s : State) (r : RegNum) (v : Word) : State := { s with ctx := s.ctx.setReg r v }

/-- `FLAGS` of the running context. -/
def State.flags (s : State) : Flags := s.ctx.flags

/-- `FLAGS` of the running context written. -/
def State.setFlags (s : State) (f : Flags) : State := { s with ctx := { s.ctx with flags := f } }

/-- `PC` of the running context (R24). -/
def State.pc (s : State) : Word := s.reg regPC

/-- `DPC` of the running context (R25). -/
def State.dpc (s : State) : Word := s.reg regDPC

/-- The instruction in progress; with none, the one that begins at `PC` with no prefix (R104). -/
def State.current (s : State) : Progress :=
  s.progress.getD { startPc := s.pc, xc := false, tf := false, em := false, dr := none }

/-- The decode state written. -/
def State.setProgress (s : State) (p : Option Progress) : State := { s with progress := p }

/-- The end of an instruction: its prefixes are used up, the machine is at an instruction boundary
(R215). -/
def State.retire (s : State) : State := s.setProgress none

/-- `halt(reason)` (R250): the run status becomes halted and the instruction in progress is abandoned;
registers, flags and memory stay as they are (R253). -/
def State.halt (s : State) (reason : HaltReason) : State :=
  { s with status := .halted reason, progress := none }

/-- A port event recorded (R180, R181). -/
def State.record (s : State) (e : PortEvent) : State := { s with ports := s.ports ++ [e] }

/-! ### Translation and the physical check -/

/-- The number of an access kind, the handler's `prot` argument and the offset in a page table entry
(R54, R63). -/
def Kind.number : Kind → Word
  | .read => 0#16
  | .write => 1#16
  | .execute => 2#16

/-- The page number of an address: its top byte (R11, R62). -/
def pageOf (a : Word) : Byte := a.extractLsb' 8 8

/-- The address of page `p` at the offset of `a`: `p : a[7:0]` (R62). -/
def inPage (p : Byte) (a : Word) : Word := p ++ a.extractLsb' 0 8

/-- `tte`, the physical address of the page table entry of an address (R62, R63). -/
def tteAddr (va : Word) : Word := Config.pageTableBase + 4#16 * (pageOf va).setWidth 16

/-- Whether an access of a kind is translated (R56; the scope of `EM` is D24, log 42). -/
def State.mmuOn (s : State) (k : Kind) : Bool :=
  !s.flags.mf || (s.current.em && k != .execute)

/-- The 32 bytes of the bitmap at physical 0 (R68). -/
def physBitmap (m : List Host.Cell) : List Byte := (List.range 32).map (memRead m)

/-- `PhysCheck` (R67): the allocation-table byte of the page has `PHYS_ALLOW`, bit 2. Bits 1:0 and 7:3 are
ignored (R66, D35). The bitmap at physical 0 has a say only if the configuration says so (R68). -/
def State.physAllowed (s : State) (pa : Word) : Bool :=
  (s.physRead (Config.patBase + (pageOf pa).setWidth 16)).getLsbD 2 &&
    (!Config.physBitmapEnforced || Config.bitmapAllows (physBitmap s.mem) (pageOf pa))

/-- What becomes of a byte access before it is made (R57). -/
inductive Located where
  /-- it may be made at this physical address -/
  | frame (pa : Word)
  /-- the physical page is denied (R67) -/
  | denied
  /-- the page number for its kind is 0x00 (R62) -/
  | pageFault
deriving DecidableEq, Repr

/-- `PhysCheck` on a physical address (R67). -/
def State.checked (s : State) (pa : Word) : Located :=
  if s.physAllowed pa then .frame pa else .denied

/-- The page number a page table entry gives for an access (R62): a raw read. -/
def State.pageNumber (s : State) (va : Word) (k : Kind) : Byte :=
  s.physRead (tteAddr va + k.number)

/-- `Access8` up to the access itself (R57, R62): translation first, then the physical check (R252). -/
def State.locate (s : State) (a : Word) (k : Kind) : Located :=
  if s.mmuOn k then
    if s.pageNumber a k = 0#8 then .pageFault else s.checked (inPage (s.pageNumber a k) a)
  else s.checked a

/-! ### Taking a page fault -/

/-- The numbers of the 16 registers, ascending. -/
def allRegs : List RegNum := (List.range 16).map (BitVec.ofNat 4)

/-- The address of `saved_regs[r]` (R257, D37). -/
def savedRegAddr (area : ExcArea) (r : RegNum) : Word :=
  area.savedRegs + 2#16 * r.setWidth 16

/-- `saved_regs[r]` at handler entry (R257 step 2): `PC` is the address of the faulting instruction's
first byte, `ZERO` is 0. -/
def savedRegValue (c : Context) (startPc : Word) (r : RegNum) : Word :=
  if r = regPC then startPc else c.reg r

/-- R257 step 2: the 16 registers written to the saved-register area, raw (D21). -/
def saveRegs (area : ExcArea) (c : Context) (startPc : Word) (m : List Host.Cell) : List Host.Cell :=
  allRegs.foldl (fun m r => memWriteWord m (savedRegAddr area r) (savedRegValue c startPc r)) m

/-- A context whose registers and flags are all 0. -/
def Context.zero : Context :=
  { regs := Vector.replicate 15 0#16
    flags := { zf := false, sf := false, pf := false, cf := false, vf := false, mf := false } }

/-- R257 step 3: the clean exception context (D26; log 43). -/
def handlerContext (area : ExcArea) (va : Word) (k : Kind) (nextPc : Word) (h : Byte) : Context :=
  let c := Context.zero.setReg 1#4 (tteAddr va)
    |>.setReg 2#4 va
    |>.setReg 3#4 k.number
    |>.setReg 4#4 area.savedRegs
    |>.setReg 5#4 nextPc
    |>.setReg regSP area.stackTop
    |>.setReg regRA area.returnAddr
    |>.setReg regPC (inPage h 0#16)
  { c with flags := { c.flags with mf := true } }

/-- TAKING THE EXCEPTION (R257): the thread is suspended with what it was doing, its registers are saved
to memory, and the handler on physical page `h` starts in a clean context. -/
def State.enterHandler (s : State) (area : ExcArea) (va : Word) (k : Kind) (h : Byte) (work : Work) :
    State :=
  { s with
    ctx := handlerContext area va k s.pc h
    mem := saveRegs area s.ctx s.current.startPc s.mem
    progress := none
    suspended := some { thread := s.ctx, progress := s.current, work := work } }

/-- The handler page of an address: byte 3 of its page table entry, a raw read (R255). -/
def State.handlerPage (s : State) (va : Word) : Byte := s.physRead (tteAddr va + 3#16)

/-- `PageFault(va, k)` (R255, R256): in the exception context the machine halts (D25); in the thread
context it halts when the page has no handler, else the handler is entered. -/
def State.pageFault (s : State) (va : Word) (k : Kind) (work : Work) : State :=
  let h := s.handlerPage va
  if h = 0#8 then s.halt .unmapped
  else if s.flags.mf then s.halt .doubleFault
  else s.enterHandler Config.excArea va k h work

/-! ### Data accesses -/

/-- Flags written when `wf` holds (R103). -/
def State.writeFlags (s : State) (wf : Bool) (f : Flags) : State := if wf then s.setFlags f else s

/-- The members of a register set, ascending (R100, R190). -/
def members (regs : Regs16) : List RegNum := (bitNumbers regs).map (BitVec.ofNat 4)

/-- Register writes in order (R191: the members of a `POP`). -/
def State.setRegs (s : State) : List (RegNum × Word) → State
  | [] => s
  | (r, v) :: rest => (s.setReg r v).setRegs rest

/-- The 16-bit values of bytes read in ascending address order (R60). -/
def wordsOfBytes : List Byte → List Word
  | first :: second :: rest => wordOfBytes first second :: wordsOfBytes rest
  | _ => []

/-- The commit step of an instruction with data accesses, given the bytes it read (R106 step 4; R160,
R162, R190, R191). -/
def State.commit (s : State) (op : DataOp) (got : List Byte) : State :=
  match op with
  | .loadWord rd wf =>
    let v := (wordsOfBytes got).headD 0#16
    (s.setReg rd v).writeFlags wf (s.flags.withZSP v)
  | .loadByte rd wf =>
    let v := (got.headD 0#8).setWidth 16
    (s.setReg rd v).writeFlags wf (s.flags.withZSP v)
  | .store => s
  | .push rd pointer => s.setReg rd pointer
  | .pop rd regs =>
    let t := s.setRegs ((members regs).zip (wordsOfBytes got))
    t.setReg rd (t.reg rd + BitVec.ofNat 16 (2 * popcount regs))

/-- A byte access made at a physical address: the state after it and the bytes read so far (R57). -/
def State.access (s : State) (x : ByteAccess) (pa : Word) (got : List Byte) : State × List Byte :=
  match x.kind with
  | .write => (s.physWrite pa x.byte, got)
  | _ => (s, got ++ [s.physRead pa])

/-- Data accesses in order, then the commit (R106 steps 3 and 4). A denied page halts; a page fault is
taken with the rest of the instruction suspended (R165, R193). -/
def State.runData (op : DataOp) : List ByteAccess → List Byte → State → State
  | [], got, s => (s.commit op got).retire
  | x :: todo, got, s =>
    match s.locate x.addr x.kind with
    | .frame pa => State.runData op todo (s.access x pa got).2 (s.access x pa got).1
    | .denied => s.halt .doubleFault
    | .pageFault => s.pageFault x.addr x.kind (.data op got x todo)

/-- The byte accesses of `MemRead(addr, 2)` (R60). -/
def readWordAccesses (a : Word) : List ByteAccess := [⟨.read, a, 0#8⟩, ⟨.read, a + 1#16, 0#8⟩]

/-- The byte accesses of `MemWrite(addr, 2, v)` (R61). -/
def writeWordAccesses (a v : Word) : List ByteAccess :=
  [⟨.write, a, firstByte v⟩, ⟨.write, a + 1#16, secondByte v⟩]

/-! ### Returning from a fault handler -/

/-- The handler has returned (R260, D27): the exception context stands at an instruction boundary at the
return address. -/
def State.atHandlerReturn (s : State) (area : ExcArea) : Bool :=
  s.flags.mf && s.progress.isNone && s.pc == area.returnAddr

/-- R260 step 4: the thread's registers from the saved-register area, all but `ZERO` and `PC`. -/
def restoredContext (area : ExcArea) (m : List Host.Cell) (c : Context) : Context :=
  (allRegs.filter (· != regPC)).foldl (fun c r => c.setReg r (memReadWord m (savedRegAddr area r))) c

/-- R260 step 3: the handler marked the instruction complete. -/
def markedComplete (area : ExcArea) (m : List Host.Cell) (startPc : Word) : Bool :=
  memReadWord m (savedRegAddr area 0#4) != 0#16 || memReadWord m (savedRegAddr area regPC) != startPc

/-- THE RETURN (R260 steps 4 to 6): the saved registers are written back, `PC` only if the handler
changed it, and the thread context runs again with its own flags, its instruction in progress. -/
def State.leaveHandler (s : State) (area : ExcArea) (t : Suspended) : State :=
  let c := restoredContext area s.mem t.thread
  let savedPc := memReadWord s.mem (savedRegAddr area regPC)
  let c := if savedPc = t.progress.startPc then c else c.setReg regPC savedPc
  { s with
    ctx := { c with flags := { t.thread.flags with mf := false } }
    progress := some t.progress
    suspended := none }

/-- R261 for a data fault: the faulting access is made at the returned physical address after the
physical check, without a second translation; the accesses after it are translated afresh. -/
def State.continueData (s : State) (ret : Word) (op : DataOp) (got : List Byte) (x : ByteAccess)
    (todo : List ByteAccess) : State :=
  if s.physAllowed ret then State.runData op todo (s.access x ret got).2 (s.access x ret got).1
  else s.halt .doubleFault

end Sys2Proof.Machine
end

