-- ==== Sys2Proof/Machine/Operands.lean ====
section
/-! DEFINITION. The operand forms of EAR version 2 and what the prefixes make of them (30_encoding.md R91,
R95 to R100, R103, R105). Operands are read with all bytes of the instruction fetched, so `x[14]` is the
address of the next instruction (R24, R106). -/

namespace Sys2Proof.Machine

/-- The 4-bit condition number: the field, plus 8 after `XC` (R91). -/
def State.cond (s : State) (cc : CondField) : BitVec 4 :=
  (if s.current.xc then 8#4 else 0#4) + cc.setWidth 4

/-- The flag-write enable `wf := (cond == 7) XOR tf` (R103). -/
def State.wf (s : State) (cc : CondField) : Bool := (s.cond cc == 7#4) ^^ s.current.tf

/-- The condition of the instruction holds on the running context's flags (R33). -/
def State.holds (s : State) (cc : CondField) : Bool := condTrue (s.cond cc) s.flags

/-- `rd`: the register of a `DR` prefix, else the default (R95: `rx`, or `SP` for `PSH` and `POP`). -/
def State.rd (s : State) (default : RegNum) : RegNum := s.current.dr.getD default

/-- `rdx = rd XOR 1` (R95). -/
def pairOf (rd : RegNum) : RegNum := rd ^^^ 1#4

/-- `vy` (R96). -/
def State.vy (s : State) : Vy → Word
  | .reg ry => s.reg ry
  | .imm w => w

/-- `v8` (R97): the low byte of the register (D10; log 29). -/
def State.v8 (s : State) : V8 → Byte
  | .reg ry => (s.reg ry).extractLsb' 0 8
  | .imm b => b

/-- The value of a `SImm4` field, sign-extended (R98): fields 0 to 7 are +1 to +8, 8 to 15 are -8 to
-1. -/
def simm4Value (n : SImm4) : Word :=
  if n.toNat < 8 then n.setWidth 16 + 1#16 else n.signExtend 16

/-- An instruction whose condition is false has fetched its bytes and does nothing else (R105); its
prefixes are used up (R215). -/
def State.when (s : State) (cc : CondField) (body : State → State) : State :=
  if s.holds cc then body s else s.retire

/-- The commit of a 16-bit result (R106 step 4): the destination and, if `wf`, the flags. -/
def State.commitResult (s : State) (cc : CondField) (rd : RegNum) (v : Word) (f : Flags) : State :=
  ((s.setReg rd v).writeFlags (s.wf cc) f).retire

/-- The commit of the two results of `MLU MLS DVU DVS` (R132 to R135, R145): `lo` to `Rd`, `hi` to `Rdx`,
and `setZSP(lo)` (D6; log 25). -/
def State.commitPair (s : State) (cc : CondField) (rd : RegNum) (lo hi : Word) : State :=
  (((s.setReg rd lo).setReg (pairOf rd) hi).writeFlags (s.wf cc) (s.flags.withZSP lo)).retire

/-- An instruction of opcodes 00 to 0C with one 16-bit result (R144): from `a = x[rx]`, `b = vy` and the
flags, the result and the new flags. -/
def State.alu (s : State) (cc : CondField) (rx : RegNum) (vy : Vy)
    (f : Word → Word → Flags → Word × Flags) : State :=
  s.when cc fun s =>
    s.commitResult cc (s.rd rx) (f (s.reg rx) (s.vy vy) s.flags).1 (f (s.reg rx) (s.vy vy) s.flags).2

end Sys2Proof.Machine
end

