-- ==== Sys2Proof/Machine/Alu.lean ====
section
/-! DEFINITION. Opcodes 00 to 0D: arithmetic, logic, shifts, move and compare (40_alu.md R130 to R146),
and the reserved opcodes 0E and 0F (45_inc_system.md R204). -/

namespace Sys2Proof.Machine

/-- What a meaning answers. -/
abbrev Result := Host.Outcome State Fault Refusal

/-- `ADD` (R130). -/
def execAdd (cc : CondField) (rx : RegNum) (vy : Vy) (s : State) : Result :=
  .next (s.alu cc rx vy fun a b f => (a + b, f.ofAdd a b))

/-- `SUB` (R131). -/
def execSub (cc : CondField) (rx : RegNum) (vy : Vy) (s : State) : Result :=
  .next (s.alu cc rx vy fun a b f => (a - b, f.ofSub a b))

/-- The 32-bit unsigned product (R132). -/
def productU (a b : Word) : BitVec 32 := BitVec.ofNat 32 (a.toNat * b.toNat)

/-- The 32-bit two's complement product (R133). -/
def productS (a b : Word) : BitVec 32 := BitVec.ofInt 32 (a.toInt * b.toInt)

/-- The low word of a product, for `Rd`. -/
def lowWord (p : BitVec 32) : Word := p.extractLsb' 0 16

/-- The high word of a product, for `Rdx`. -/
def highWord (p : BitVec 32) : Word := p.extractLsb' 16 16

/-- `MLU` (R132). -/
def execMlu (cc : CondField) (rx : RegNum) (vy : Vy) (s : State) : Result :=
  .next (s.when cc fun s =>
    s.commitPair cc (s.rd rx) (lowWord (productU (s.reg rx) (s.vy vy)))
      (highWord (productU (s.reg rx) (s.vy vy))))

/-- `MLS` (R133). -/
def execMls (cc : CondField) (rx : RegNum) (vy : Vy) (s : State) : Result :=
  .next (s.when cc fun s =>
    s.commitPair cc (s.rd rx) (lowWord (productS (s.reg rx) (s.vy vy)))
      (highWord (productS (s.reg rx) (s.vy vy))))

/-- `DVU` (R134): quotient to `Rd`, remainder to `Rdx`; division by zero halts before anything is written
(D7; log 26). -/
def execDvu (cc : CondField) (rx : RegNum) (vy : Vy) (s : State) : Result :=
  .next (s.when cc fun s =>
    if s.vy vy = 0#16 then s.halt .divZero
    else s.commitPair cc (s.rd rx) (BitVec.ofNat 16 ((s.reg rx).toNat / (s.vy vy).toNat))
      (BitVec.ofNat 16 ((s.reg rx).toNat % (s.vy vy).toNat)))

/-- The signed quotient in a rounding mode (R135 `SDiv`). -/
def signedQuotient (mode : SDivMode) (a b : Int) : Int :=
  match mode with
  | .trunc => a.tdiv b
  | .floor => a.fdiv b

/-- The signed remainder: the dividend less quotient times divisor, in both modes (R135). -/
def signedRemainder (mode : SDivMode) (a b : Int) : Int := a - signedQuotient mode a b * b

/-- `DVS` (R135): quotient and remainder modulo 2^16, so that -32768 by -1 gives 0x8000 and 0 (D8; log
27); division by zero halts (D7; log 26); the rounding is SDIV_MODE (log 9). -/
def execDvs (cc : CondField) (rx : RegNum) (vy : Vy) (s : State) : Result :=
  .next (s.when cc fun s =>
    if s.vy vy = 0#16 then s.halt .divZero
    else s.commitPair cc (s.rd rx)
      (BitVec.ofInt 16 (signedQuotient Config.sdivMode (s.reg rx).toInt (s.vy vy).toInt))
      (BitVec.ofInt 16 (signedRemainder Config.sdivMode (s.reg rx).toInt (s.vy vy).toInt)))

/-- `XOR` (R136). -/
def execXor (cc : CondField) (rx : RegNum) (vy : Vy) (s : State) : Result :=
  .next (s.alu cc rx vy fun a b f => (a ^^^ b, f.withZSP (a ^^^ b)))

/-- `AND` (R137). -/
def execAnd (cc : CondField) (rx : RegNum) (vy : Vy) (s : State) : Result :=
  .next (s.alu cc rx vy fun a b f => (a &&& b, f.withZSP (a &&& b)))

/-- `ORR` (R138). -/
def execOrr (cc : CondField) (rx : RegNum) (vy : Vy) (s : State) : Result :=
  .next (s.alu cc rx vy fun a b f => (a ||| b, f.withZSP (a ||| b)))

/-- `SHL` (R139): the whole 16-bit value of `Vy` is the count (D9; log 28). -/
def execShl (cc : CondField) (rx : RegNum) (vy : Vy) (s : State) : Result :=
  .next (s.alu cc rx vy fun a b f => (a <<< b.toNat, f.withZSP (a <<< b.toNat)))

/-- CF of `SRU` (R140): the last bit shifted out, 0 for counts 0 and above 16 (D9; log 28). -/
def carryOfSru (a : Word) (n : Nat) : Bool := n != 0 && a.getLsbD (n - 1)

/-- `SRU` (R140). -/
def execSru (cc : CondField) (rx : RegNum) (vy : Vy) (s : State) : Result :=
  .next (s.alu cc rx vy fun a b f =>
    (a >>> b.toNat, f.withZSPC (a >>> b.toNat) (carryOfSru a b.toNat)))

/-- CF of `SRS` (R141): the last bit shifted out, 0 for count 0, the sign for counts above 16 (D9; log
28). -/
def carryOfSrs (a : Word) (n : Nat) : Bool :=
  n != 0 && (if n ≤ 16 then a.getLsbD (n - 1) else a.getLsbD 15)

/-- `SRS` (R141). -/
def execSrs (cc : CondField) (rx : RegNum) (vy : Vy) (s : State) : Result :=
  .next (s.alu cc rx vy fun a b f =>
    (a.sshiftRight b.toNat, f.withZSPC (a.sshiftRight b.toNat) (carryOfSrs a b.toNat)))

/-- `MOV` (R142): `x[rx]` has no part in it. -/
def execMov (cc : CondField) (rx : RegNum) (vy : Vy) (s : State) : Result :=
  .next (s.alu cc rx vy fun _ b f => (b, f.withZSP b))

/-- `CMP` (R143): the flags of `SUB`; no register is written, a `DR` prefix is ignored (D11). -/
def execCmp (cc : CondField) (rx : RegNum) (vy : Vy) (s : State) : Result :=
  .next (s.when cc fun s =>
    (s.writeFlags (s.wf cc) (s.flags.ofSub (s.reg rx) (s.vy vy))).retire)

/-- Opcode 0E, reserved (R108, R204): halts whatever the condition field and prefixes (D18; log 37). -/
def execReserved0E (_cc : CondField) (s : State) : Result := .next (s.halt .illegal)

/-- Opcode 0F, reserved (R108, R204): halts whatever the condition field and prefixes (D18; log 37). -/
def execReserved0F (_cc : CondField) (s : State) : Result := .next (s.halt .illegal)

end Sys2Proof.Machine
end

