-- ==== Sys2Proof/Machine/LoadStore.lean ====
section
/-! DEFINITION. Opcodes 10 to 13: loads and stores (41_load_store.md R160 to R165), and 1A, 1B: the stack
(44_stack.md R190 to R193). Each latches its operands, makes its byte accesses in ascending address order
and commits after the last (30_encoding.md R106). -/

namespace Sys2Proof.Machine

/-- `LDW` (R160). -/
def execLdw (cc : CondField) (rx : RegNum) (vy : Vy) (s : State) : Result :=
  .next (s.when cc fun s =>
    s.runData (.loadWord (s.rd rx) (s.wf cc)) (readWordAccesses (s.vy vy)) [])

/-- `STW` (R161): `DR` and `TF` are ignored. -/
def execStw (cc : CondField) (rx : RegNum) (vy : Vy) (s : State) : Result :=
  .next (s.when cc fun s => s.runData .store (writeWordAccesses (s.reg rx) (s.vy vy)) [])

/-- `LDB` (R162): the byte is zero-extended (D10; log 29). -/
def execLdb (cc : CondField) (rx : RegNum) (vy : Vy) (s : State) : Result :=
  .next (s.when cc fun s => s.runData (.loadByte (s.rd rx) (s.wf cc)) [⟨.read, s.vy vy, 0#8⟩] [])

/-- `STB` (R163): `DR` and `TF` are ignored. -/
def execStb (cc : CondField) (rx : RegNum) (v8 : V8) (s : State) : Result :=
  .next (s.when cc fun s => s.runData .store [⟨.write, s.reg rx, s.v8 v8⟩] [])

/-- The pointer of a `PSH`, already decremented (R190). -/
def State.pushPointer (s : State) (regs : Regs16) : Word :=
  s.reg (s.rd regSP) - BitVec.ofNat 16 (2 * popcount regs)

/-- The value `PSH` stores for a member (R190): the pointer register stores its decremented value (D15;
log 34, and log 13 for `ZERO`). -/
def State.pushValue (s : State) (regs : Regs16) (r : RegNum) : Word :=
  if r = s.rd regSP then s.pushPointer regs else s.reg r

/-- The addresses of the 16-bit slots from a pointer up, one for each member (R190, R191, R192). -/
def slots (p : Word) : List RegNum → List (Word × RegNum)
  | [] => []
  | r :: rest => (p, r) :: slots (p + 2#16) rest

/-- The byte accesses of a `PSH` (R190): the members in ascending register number at and above the new
pointer. -/
def State.pushAccesses (s : State) (regs : Regs16) : List ByteAccess :=
  (slots (s.pushPointer regs) (members regs)).flatMap
    fun slot => writeWordAccesses slot.1 (s.pushValue regs slot.2)

/-- The byte accesses of a `POP` (R191): from the pointer up. -/
def State.popAccesses (s : State) (regs : Regs16) : List ByteAccess :=
  (slots (s.reg (s.rd regSP)) (members regs)).flatMap fun slot => readWordAccesses slot.1

/-- `PSH` (R190). -/
def execPsh (cc : CondField) (regs : Regs16) (s : State) : Result :=
  .next (s.when cc fun s =>
    s.runData (.push (s.rd regSP) (s.pushPointer regs)) (s.pushAccesses regs) [])

/-- `POP` (R191). -/
def execPop (cc : CondField) (regs : Regs16) (s : State) : Result :=
  .next (s.when cc fun s => s.runData (.pop (s.rd regSP) regs) (s.popAccesses regs) [])

end Sys2Proof.Machine
end

