-- ==== Sys2Proof/Machine/Control.lean ====
section
/-! DEFINITION. Opcodes 14 to 17: branches and calls (42_control_transfer.md R170 to R175). Operands are
latched before any register is written (D19); `TF`, `DR` and `EM` are ignored (D11). There are no delay
slots (R174). -/

namespace Sys2Proof.Machine

/-- `BRA` (R170). -/
def execBra (cc : CondField) (rx : RegNum) (vy : Vy) (s : State) : Result :=
  .next (s.when cc fun s => ((s.setReg regDPC (s.reg rx)).setReg regPC (s.vy vy)).retire)

/-- `BRR` (R171). -/
def execBrr (cc : CondField) (imm16 : Word) (s : State) : Result :=
  .next (s.when cc fun s => (s.setReg regPC (s.pc + imm16)).retire)

/-- The link of a call (R172, R173): `RD` gets the current `DPC`, `RA` the next instruction's address. -/
def State.link (s : State) : State := (s.setReg regRD s.dpc).setReg regRA s.pc

/-- `FCA` (R172). -/
def execFca (cc : CondField) (rx : RegNum) (vy : Vy) (s : State) : Result :=
  .next (s.when cc fun s => ((s.link.setReg regDPC (s.reg rx)).setReg regPC (s.vy vy)).retire)

/-- `FCR` (R173). -/
def execFcr (cc : CondField) (imm16 : Word) (s : State) : Result :=
  .next (s.when cc fun s => (s.link.setReg regPC (s.pc + imm16)).retire)

end Sys2Proof.Machine
end

