-- ==== Sys2Proof/Machine/PortIo.lean ====
section
/-! DEFINITION. Opcodes 18 and 19: port input and output (43_port_io.md R180 to R184). The environment's
answers are free (D33; log 8). -/

namespace Sys2Proof.Machine

/-- `RDB` (R182): the byte is zero-extended; CF is the failure indication. -/
def execRdb (cc : CondField) (rx : RegNum) (port : Port) (s : State) : Result :=
  .next (s.when cc fun s =>
    let byte := (Config.portRead s.ports port).1
    let fail := (Config.portRead s.ports port).2
    (s.record (.read port byte fail)).commitResult cc (s.rd rx) (byte.setWidth 16)
      (s.flags.withZSPC (byte.setWidth 16) fail))

/-- `WRB` (R183): ZF, SF and PF come from the byte written (D33; log 49); no register is written. -/
def execWrb (cc : CondField) (port : Port) (v8 : V8) (s : State) : Result :=
  .next (s.when cc fun s =>
    let byte := s.v8 v8
    let fail := Config.portWrite s.ports port byte
    ((s.record (.write port byte fail)).writeFlags (s.wf cc)
      (s.flags.withZSPC (byte.setWidth 16) fail)).retire)

end Sys2Proof.Machine
end

