-- ==== Sys2Proof/Machine/System.lean ====
section
/-! DEFINITION. Opcodes 1C to 1F: increment and system instructions (45_inc_system.md R200 to R203). -/

namespace Sys2Proof.Machine

/-- `INC` (R200): flags as an `ADD` of the sign-extended immediate (D5; log 24). -/
def execInc (cc : CondField) (rx : RegNum) (simm : SImm4) (s : State) : Result :=
  .next (s.when cc fun s =>
    s.commitResult cc (s.rd rx) (s.reg rx + simm4Value simm)
      (s.flags.ofAdd (s.reg rx) (simm4Value simm)))

/-- `BPT` (R201): stops with HALT_BREAKPOINT (D29; log 46). -/
def execBpt (cc : CondField) (s : State) : Result := .next (s.when cc fun s => s.halt .breakpoint)

/-- `HLT` (R202): stops with HALT_INSTRUCTION (D29; log 46). -/
def execHlt (cc : CondField) (s : State) : Result := .next (s.when cc fun s => s.halt .instruction)

/-- `NOP` (R203). -/
def execNop (cc : CondField) (s : State) : Result := .next (s.when cc fun s => s.retire)

end Sys2Proof.Machine
end

