-- ==== Sys2Proof/Machine/Prefix.lean ====
section
/-! DEFINITION. The prefix bytes (46_prefixes.md R210 to R215). A prefix changes only the decode state of
the instruction in progress; the instruction stays in progress (log 6). -/

namespace Sys2Proof.Machine

/-- `XC` (R210): the next byte is the opcode byte and its condition number is the field plus 8. -/
def execXc (s : State) : Result := .next (s.setProgress (some { s.current with xc := true }))

/-- `TF` (R211): toggles; two cancel (R110). -/
def execTf (s : State) : Result := .next (s.setProgress (some { s.current with tf := !s.current.tf }))

/-- `EM` (R212). -/
def execEm (s : State) : Result := .next (s.setProgress (some { s.current with em := true }))

/-- `DR` (R213): of several the last counts (R110). -/
def execDr (rd : RegNum) (s : State) : Result :=
  .next (s.setProgress (some { s.current with dr := some rd }))

/-- Reserved prefix byte C3 (R109, R214; D18, log 37). -/
def execReservedPrefixC3 (s : State) : Result := .next (s.halt .illegal)

/-- Reserved prefix bytes C4 to C7 (R109, R214; D18, log 37). -/
def execReservedPrefixC4 (_n : BitVec 2) (s : State) : Result := .next (s.halt .illegal)

/-- Reserved prefix bytes C8 to CF (R109, R214; D18, log 37). -/
def execReservedPrefixC8 (_n : BitVec 3) (s : State) : Result := .next (s.halt .illegal)

end Sys2Proof.Machine
end

