-- ==== Sys2Proof/Machine/Dispatch.lean ====
section
/-! DEFINITION. The meaning of every instruction, one arm for each constructor of `Instr`. -/

namespace Sys2Proof.Machine

def exec (i : Instr) (s : State) : Host.Outcome State Fault Refusal :=
  match i with
  | .add cc rx vy => Sys2Proof.Machine.execAdd cc rx vy s
  | .sub cc rx vy => Sys2Proof.Machine.execSub cc rx vy s
  | .mlu cc rx vy => Sys2Proof.Machine.execMlu cc rx vy s
  | .mls cc rx vy => Sys2Proof.Machine.execMls cc rx vy s
  | .dvu cc rx vy => Sys2Proof.Machine.execDvu cc rx vy s
  | .dvs cc rx vy => Sys2Proof.Machine.execDvs cc rx vy s
  | .xor cc rx vy => Sys2Proof.Machine.execXor cc rx vy s
  | .and cc rx vy => Sys2Proof.Machine.execAnd cc rx vy s
  | .orr cc rx vy => Sys2Proof.Machine.execOrr cc rx vy s
  | .shl cc rx vy => Sys2Proof.Machine.execShl cc rx vy s
  | .sru cc rx vy => Sys2Proof.Machine.execSru cc rx vy s
  | .srs cc rx vy => Sys2Proof.Machine.execSrs cc rx vy s
  | .mov cc rx vy => Sys2Proof.Machine.execMov cc rx vy s
  | .cmp cc rx vy => Sys2Proof.Machine.execCmp cc rx vy s
  | .reserved0E cc => Sys2Proof.Machine.execReserved0E cc s
  | .reserved0F cc => Sys2Proof.Machine.execReserved0F cc s
  | .ldw cc rx vy => Sys2Proof.Machine.execLdw cc rx vy s
  | .stw cc rx vy => Sys2Proof.Machine.execStw cc rx vy s
  | .ldb cc rx vy => Sys2Proof.Machine.execLdb cc rx vy s
  | .stb cc rx v8 => Sys2Proof.Machine.execStb cc rx v8 s
  | .bra cc rx vy => Sys2Proof.Machine.execBra cc rx vy s
  | .brr cc imm16 => Sys2Proof.Machine.execBrr cc imm16 s
  | .fca cc rx vy => Sys2Proof.Machine.execFca cc rx vy s
  | .fcr cc imm16 => Sys2Proof.Machine.execFcr cc imm16 s
  | .rdb cc rx port => Sys2Proof.Machine.execRdb cc rx port s
  | .wrb cc port v8 => Sys2Proof.Machine.execWrb cc port v8 s
  | .psh cc regs => Sys2Proof.Machine.execPsh cc regs s
  | .pop cc regs => Sys2Proof.Machine.execPop cc regs s
  | .inc cc rx simm => Sys2Proof.Machine.execInc cc rx simm s
  | .bpt cc => Sys2Proof.Machine.execBpt cc s
  | .hlt cc => Sys2Proof.Machine.execHlt cc s
  | .nop cc => Sys2Proof.Machine.execNop cc s
  | .xc => Sys2Proof.Machine.execXc s
  | .tf => Sys2Proof.Machine.execTf s
  | .em => Sys2Proof.Machine.execEm s
  | .dr rd => Sys2Proof.Machine.execDr rd s
  | .reservedPrefixC3 => Sys2Proof.Machine.execReservedPrefixC3 s
  | .reservedPrefixC4 n => Sys2Proof.Machine.execReservedPrefixC4 n s
  | .reservedPrefixC8 n => Sys2Proof.Machine.execReservedPrefixC8 n s

end Sys2Proof.Machine
end

