-- ==== Sys2Proof/Machine/Fetch.lean ====
section
/-! DEFINITION. Fetching an instruction's bytes (20_memory.md R58, 30_encoding.md R104), going on after a
fault handler (60_exceptions.md R260, R261), and placing code where the next fetch finds it. -/

namespace Sys2Proof.Machine

/-- What fetching comes to: an instruction to run, or a state the step ends in. -/
inductive Fetched where
  | run (i : Instr) (s : State)
  | settled (s : State)
deriving DecidableEq, Repr

/-- `pc <- pc + 1 + x[15]`, after a code byte has been read (R24, R58). -/
def State.advancePc (s : State) : State := s.setReg regPC (s.pc + 1#16 + s.dpc)

/-- Code bytes fetched one at a time until they decode (R102, R104, R106 step 1), `got` being those
fetched already. A reserved byte decodes at once (R252). `fuel` bounds the bytes still to come; no
instruction needs more than `maxInstrBytes`. -/
def State.fetchRest (fuel : Nat) (got : List Byte) (s : State) : Fetched :=
  match decode s.current.xc got with
  | .ok (i, _) => .run i s
  | .error _ =>
    match fuel with
    | 0 => .settled s
    | fuel + 1 =>
      match s.locate s.pc .execute with
      | .frame pa => State.fetchRest fuel (got ++ [s.physRead pa]) s.advancePc
      | .denied => .settled (s.halt .doubleFault)
      | .pageFault => .settled (s.pageFault s.pc .execute (.fetch got))

/-- The instruction in progress, or a new one that starts at `PC` (R104 `start_pc := pc`). -/
def State.beginInstr (s : State) : State := s.setProgress (some s.current)

/-- The next instruction, or the next prefix byte, of the running context (R104). -/
def State.fetch (s : State) : Fetched := State.fetchRest maxInstrBytes [] s.beginInstr

/-- R261 for a fetch fault: the code byte is taken at the returned physical address after the physical
check, `PC` advances by the `DPC` just written back, and the fetch goes on. -/
def State.continueFetch (s : State) (ret : Word) (got : List Byte) : Fetched :=
  if s.physAllowed ret then State.fetchRest maxInstrBytes (got ++ [s.physRead ret]) s.advancePc
  else .settled (s.halt .doubleFault)

/-- R260 steps 1, 3 and 7: a complete instruction is dropped; any other goes on with the returned
address (log 15). -/
def State.afterHandler (s : State) (area : ExcArea) (t : Suspended) : Fetched :=
  let ret := s.reg 2#4
  let s' := s.leaveHandler area t
  if markedComplete area s.mem t.progress.startPc then .settled s'.retire
  else
    match t.work with
    | .fetch got => s'.continueFetch ret got
    | .data op got x todo => .settled (s'.continueData ret op got x todo)

/-- What a running machine does next: return from a fault handler that has come to the return address
(R260), else fetch. -/
def State.advance (s : State) : Fetched :=
  match s.suspended with
  | some t => if s.atHandlerReturn Config.excArea then s.afterHandler Config.excArea t else s.fetch
  | none => s.fetch

/-! ### Placing code -/

/-- The physical page given to the `k`-th code byte when its virtual page has none: 02, 03, 04, 05, which
are neither the tables nor the bitmap (R69). -/
def sparePage (k : Nat) : Byte := BitVec.ofNat 8 (2 + k)

/-- The byte at `a` made fetchable: an execute page number where there is none (R62), and `PHYS_ALLOW` on
the page (R67). -/
def State.makeFetchable (s : State) (a : Word) (k : Nat) : State :=
  match s.locate a .execute with
  | .frame _ => s
  | _ =>
    let s := if s.mmuOn .execute && s.pageNumber a .execute == 0#8 then
        s.physWrite (tteAddr a + Kind.execute.number) (sparePage k) else s
    let pa := if s.mmuOn .execute then inPage (s.pageNumber a .execute) a else a
    let pat := Config.patBase + (pageOf pa).setWidth 16
    s.physWrite pat (s.physRead pat ||| 4#8)

/-- A code byte stored where a fetch from `a` reads it. -/
def State.placeByte (s : State) (a : Word) (k : Nat) (b : Byte) : State :=
  let s := s.makeFetchable a k
  match s.locate a .execute with
  | .frame pa => s.physWrite pa b
  | _ => s

/-- Code bytes stored where fetches from `a` on read them, `1 + DPC` apart (R24). -/
def State.placeBytes (s : State) (a : Word) (k : Nat) : List Byte → State
  | [] => s
  | b :: rest => (s.placeByte a k b).placeBytes (a + 1#16 + s.dpc) (k + 1) rest

end Sys2Proof.Machine
end

