-- ==== Sys2Proof/Machine/Step.lean ====
section
/-! DEFINITION. One step of the machine. -/

namespace Sys2Proof.Machine

/-- One step: an instruction or a prefix byte (log 6), or the return from a fault handler with the rest of
the instruction it continues (log 15). A halted machine has no step (R38, R250; log 7). -/
def step (s : State) : Host.Outcome State Fault Refusal :=
  match s.status with
  | .halted reason => .fault (.halted reason)
  | .running =>
    match s.advance with
    | .run i s' => exec i s'
    | .settled s' => .next s'

/-- The table word stored where `step` fetches next. It stands for the load of a program from outside the
machine (R300 to R302; log 5): the code bytes, and, only where they are lacking, the execute page number
and the `PHYS_ALLOW` bit of their pages. The four bytes stand `1 + DPC` apart from `PC`. -/
def State.withFetchWord (s : State) (nbits w : Nat) : State :=
  s.placeBytes s.pc 0 (tableBytes nbits w)

end Sys2Proof.Machine
end

