-- ==== Sys2Proof/Machine/Pseudo.lean ====
section
/-! DEFINITION. The 23 pseudo-instructions (47_pseudo.md R220 to R245): assembler spelling that expands to
real instructions, prefix bytes among them. The hardware sees the expansion only. -/

namespace Sys2Proof.Machine

/-- A row of the pseudo-instruction table (R239). An `imm4` count 1 to 8 is held as the count less 1. -/
inductive Pseudo where
  /-- `RET` (R220) -/
  | ret
  /-- `INC Ra, 0` (R221) -/
  | incZero (ra : RegNum)
  /-- `RDB Ra` (R222) -/
  | rdb (ra : RegNum)
  /-- `WRB V8` (R223) -/
  | wrb (v8 : V8)
  /-- `INC Ra` (R224) -/
  | inc (ra : RegNum)
  /-- `DEC Ra` (R225) -/
  | dec (ra : RegNum)
  /-- `DEC Ra, imm4` (R226) -/
  | decBy (ra : RegNum) (less1 : BitVec 3)
  /-- `ADD Ra, Rb, imm4` (R227) -/
  | addSmall (ra rb : RegNum) (less1 : BitVec 3)
  /-- `SUB Ra, Rb, imm4` (R228) -/
  | subSmall (ra rb : RegNum) (less1 : BitVec 3)
  /-- `NEG Ra` (R229) -/
  | neg (ra : RegNum)
  /-- `INV Ra` (R230) -/
  | inv (ra : RegNum)
  /-- `ADR Ra, <label>` with `Imm16 = label - @` (R231) -/
  | adr (ra : RegNum) (offset : Word)
  /-- `BRA Va` (R232) -/
  | bra (va : Vy)
  /-- `FCA Va` (R233) -/
  | fca (va : Vy)
  /-- `SWP Ra, Rb` (R234) -/
  | swp (ra rb : RegNum)
  /-- `ADC Rd, Vb` (R235) -/
  | adc (rd : RegNum) (vb : Vy)
  /-- `ADC Rd, Ra, Vb` (R236) -/
  | adc3 (rd ra : RegNum) (vb : Vy)
  /-- `SBC Rd, Vb` (R237) -/
  | sbc (rd : RegNum) (vb : Vy)
  /-- `SBC Rd, Ra, Vb` (R238) -/
  | sbc3 (rd ra : RegNum) (vb : Vy)
  /-- `LDWM Rx, [Vy]` (R242) -/
  | ldwm (rx : RegNum) (vy : Vy)
  /-- `STWM [Rx], Vy` (R243) -/
  | stwm (rx : RegNum) (vy : Vy)
  /-- `LDBM Rx, [Vy]` (R244) -/
  | ldbm (rx : RegNum) (vy : Vy)
  /-- `STBM [Rx], V8` (R245) -/
  | stbm (rx : RegNum) (v8 : V8)
deriving DecidableEq, Repr

/-- The suffixes of a mnemonic (R113): the condition number, and `F` for a `TF` prefix. -/
structure Suffix where
  cond : BitVec 4
  toggle : Bool
deriving DecidableEq, Repr

/-- No suffix: condition `AL`, no `TF` (R113). -/
def Suffix.plain : Suffix := { cond := 7#4, toggle := false }

/-- The condition field of the real instruction. -/
def Suffix.field (x : Suffix) : CondField := x.cond.extractLsb' 0 3

/-- The prefix bytes a suffix adds: `TF`, and `XC` last for conditions 8 to 15 (R110, R113). `TF` before `XC` is
forced: `XC` must be last. -/
def Suffix.prefixes (x : Suffix) : List Instr :=
  (if x.toggle then [.tf] else []) ++ (if x.cond.toNat < 8 then [] else [.xc])

/-- The `SImm4` field of a positive count (R98). -/
def plusField (less1 : BitVec 3) : SImm4 := less1.setWidth 4

/-- The `SImm4` field of a negated count (R98, R226). -/
def minusField (less1 : BitVec 3) : SImm4 := 15#4 - less1.setWidth 4

/-- Condition `CS` as a field (R33). -/
def fieldCS : CondField := 5#3

/-- Condition `AL` as a field (R33). -/
def fieldAL : CondField := 7#3

/-- The real instructions of a pseudo-instruction with a suffix (R239). The suffix goes onto the one real
instruction; it is not looked at for `SWP`, `ADC` and `SBC`, which have none.
DESIGN CHOICE, safe (log 52): R110 lets `DR`, `EM` and `TF` come in any order and R239 does not say where the
`TF` of a suffix goes; the row's own `DR` or `EM` comes first, then `TF`, then `XC` (`NEGF R5` = D5 C1 E1 05).
DESIGN CHOICE, safe (log 53): `ADR` is always the form R231 writes, `DR` and `ADD` with an `Imm16`, 5 bytes; the 3
bytes of `INC Ra, PC, simm`, which R240 leaves to the assembler for a displacement in -8..8, are not taken. -/
def Pseudo.sequence (x : Suffix) : Pseudo → List Instr
  | .ret => x.prefixes ++ [.bra x.field 13#4 (.reg 12#4)]
  | .incZero _ => x.prefixes ++ [.nop x.field]
  | .rdb ra => x.prefixes ++ [.rdb x.field ra 0#4]
  | .wrb v8 => x.prefixes ++ [.wrb x.field 0#4 v8]
  | .inc ra => x.prefixes ++ [.inc x.field ra 0x0#4]
  | .dec ra => x.prefixes ++ [.inc x.field ra 0xF#4]
  | .decBy ra k => x.prefixes ++ [.inc x.field ra (minusField k)]
  | .addSmall ra rb k => .dr ra :: x.prefixes ++ [.inc x.field rb (plusField k)]
  | .subSmall ra rb k => .dr ra :: x.prefixes ++ [.inc x.field rb (minusField k)]
  | .neg ra => .dr ra :: x.prefixes ++ [.sub x.field 0#4 (.reg ra)]
  | .inv ra => x.prefixes ++ [.xor x.field ra (.imm 0xFFFF#16)]
  | .adr ra offset => .dr ra :: x.prefixes ++ [.add x.field 14#4 (.imm offset)]
  | .bra va => x.prefixes ++ [.bra x.field 15#4 va]
  | .fca va => x.prefixes ++ [.fca x.field 15#4 va]
  | .swp ra rb => [.xor fieldAL ra (.reg rb), .xor fieldAL rb (.reg ra), .xor fieldAL ra (.reg rb)]
  | .adc rd vb => [.inc fieldCS rd 0x0#4, .add fieldAL rd vb]
  | .adc3 rd ra vb =>
    [.dr rd, .inc fieldCS 0#4 0x0#4, .add fieldAL rd (.reg ra), .add fieldAL rd vb]
  | .sbc rd vb => [.inc fieldCS rd 0xF#4, .sub fieldAL rd vb]
  | .sbc3 rd ra vb =>
    [.dr rd, .inc fieldCS 0#4 0xF#4, .add fieldAL rd (.reg ra), .sub fieldAL rd vb]
  | .ldwm rx vy => .em :: x.prefixes ++ [.ldw x.field rx vy]
  | .stwm rx vy => .em :: x.prefixes ++ [.stw x.field rx vy]
  | .ldbm rx vy => .em :: x.prefixes ++ [.ldb x.field rx vy]
  | .stbm rx v8 => .em :: x.prefixes ++ [.stb x.field rx v8]

/-- The pseudo-instruction takes a suffix: it is one real instruction (R239). -/
def Pseudo.takesSuffix : Pseudo → Bool
  | .swp _ _ => false
  | .adc _ _ => false
  | .adc3 _ _ _ => false
  | .sbc _ _ => false
  | .sbc3 _ _ _ => false
  | _ => true

/-- Each instruction of a stream has an encoding in its place (R92). -/
def streamWf (afterXC : Bool) : List Instr → Bool
  | [] => !afterXC
  | i :: rest => i.wf afterXC && streamWf (i == .xc) rest

/-- The expansion, where the assembler has one: not for a suffix the pseudo-instruction does not take, and
not where an operand cannot be encoded (R229: `NEG DPC`). -/
def Pseudo.expand (x : Suffix) (p : Pseudo) : Option (List Instr) :=
  if (p.takesSuffix || x == .plain) && streamWf false (p.sequence x) then some (p.sequence x) else none

/-- The bytes of instructions in stream order. -/
def encodeAll (is : List Instr) : List Byte := is.flatMap encode

end Sys2Proof.Machine
end

