-- ==== Sys2Proof/Machine/Asm.lean ====
section
/-! DEFINITION. The assembler spelling of an instruction with its prefixes (30_encoding.md R112 to R114,
10_state.md R20, R33). What the spec leaves open of the text is log 18. -/

namespace Sys2Proof.Machine

/-- The name of a register (R20): its alias where the hardware has a use for it, else `R<n>`. -/
def regName (r : RegNum) : String :=
  match r.toNat with
  | 0 => "ZERO"
  | 11 => "SP"
  | 12 => "RA"
  | 13 => "RD"
  | 14 => "PC"
  | 15 => "DPC"
  | n => "R" ++ toString n

/-- Every other name of a register (R20). -/
def regAliases (r : RegNum) : List String :=
  match r.toNat with
  | 0 => ["R0"]
  | 1 => ["A0"]
  | 2 => ["A1", "RV"]
  | 3 => ["A2", "RVX"]
  | 4 => ["A3"]
  | 5 => ["A4"]
  | 6 => ["A5"]
  | 7 => ["S0"]
  | 8 => ["S1"]
  | 9 => ["S2"]
  | 10 => ["FP", "S3"]
  | n => ["R" ++ toString n]

/-- The names of a condition (R33). Number 6 marks a prefix and is no suffix. -/
def condNames (cond : BitVec 4) : List String :=
  match cond.toNat with
  | 0x0 => ["EQ", "ZR"]
  | 0x1 => ["NE", "NZ"]
  | 0x2 => ["GT"]
  | 0x3 => ["LE"]
  | 0x4 => ["LT", "CC"]
  | 0x5 => ["GE", "CS"]
  | 0x6 => ["SP"]
  | 0x7 => ["AL"]
  | 0x8 => ["NG"]
  | 0x9 => ["PS"]
  | 0xA => ["BG"]
  | 0xB => ["SE"]
  | 0xC => ["SM"]
  | 0xD => ["BE"]
  | 0xE => ["OD"]
  | _ => ["EV"]

/-- The condition suffix: none for `AL`, else a period and the first name (R113). -/
def condSuffix (cond : BitVec 4) : String :=
  if cond = 7#4 then "" else "." ++ (condNames cond).headD ""

/-- A hexadecimal digit. -/
def hexDigit (n : Nat) : Char := if n < 10 then Char.ofNat (48 + n) else Char.ofNat (55 + n)

/-- A byte as `0x` and two digits. DESIGN CHOICE, safe: the spec gives no number syntax (N26; log 18). -/
def hexByte (b : Byte) : String :=
  String.ofList ['0', 'x', hexDigit (b.toNat / 16), hexDigit (b.toNat % 16)]

/-- A word as `0x` and four digits. DESIGN CHOICE, safe: the spec gives no number syntax (N26; log 18). -/
def hexWord (w : Word) : String :=
  String.ofList ['0', 'x', hexDigit (w.toNat / 4096), hexDigit (w.toNat / 256 % 16),
    hexDigit (w.toNat / 16 % 16), hexDigit (w.toNat % 16)]

/-- A `Vy` operand: a register name or a number (R112). -/
def spellVy : Vy → String
  | .reg r => regName r
  | .imm w => hexWord w

/-- A `V8` operand. -/
def spellV8 : V8 → String
  | .reg r => regName r
  | .imm b => hexByte b

/-- A memory operand, in square brackets (R112). -/
def inBrackets (text : String) : String := "[" ++ text ++ "]"

/-- A port number, in parentheses (R112). That it is in decimal is a DESIGN CHOICE, safe: the spec gives no
number syntax (N26; log 18). -/
def spellPort (p : Port) : String := "(" ++ toString p.toNat ++ ")"

/-- The value of a `SImm4` operand (R98). That it is in decimal, a minus sign before a negative one, is a DESIGN
CHOICE, safe: the spec gives no number syntax (N26; log 18). -/
def spellSImm4 (n : SImm4) : String :=
  if n.toNat < 8 then toString (n.toNat + 1) else "-" ++ toString (16 - n.toNat)

/-- A register set, in braces (R112); the comma between members is log 18. -/
def spellRegs (regs : Regs16) : String :=
  String.singleton (Char.ofNat 0x7B)
    ++ String.intercalate ", "
        (((List.range 16).filter (fun n => regs.getLsbD n)).map fun n => regName (BitVec.ofNat 4 n))
    ++ String.singleton (Char.ofNat 0x7D)

/-- The mnemonic of spec/opcode_table.json, the condition field if there is one, and the operands in order
(R107, R112). A bare prefix byte has no spelling in the spec (R114): `XC`, `TF`, `EM` and `DR <register>` are a
DESIGN CHOICE, safe (log 18), and so are the names of the reserved rows. -/
def spellingParts : Instr → String × Option CondField × List String
  | .add cc rx vy => ("ADD", some cc, [regName rx, spellVy vy])
  | .sub cc rx vy => ("SUB", some cc, [regName rx, spellVy vy])
  | .mlu cc rx vy => ("MLU", some cc, [regName rx, spellVy vy])
  | .mls cc rx vy => ("MLS", some cc, [regName rx, spellVy vy])
  | .dvu cc rx vy => ("DVU", some cc, [regName rx, spellVy vy])
  | .dvs cc rx vy => ("DVS", some cc, [regName rx, spellVy vy])
  | .xor cc rx vy => ("XOR", some cc, [regName rx, spellVy vy])
  | .and cc rx vy => ("AND", some cc, [regName rx, spellVy vy])
  | .orr cc rx vy => ("ORR", some cc, [regName rx, spellVy vy])
  | .shl cc rx vy => ("SHL", some cc, [regName rx, spellVy vy])
  | .sru cc rx vy => ("SRU", some cc, [regName rx, spellVy vy])
  | .srs cc rx vy => ("SRS", some cc, [regName rx, spellVy vy])
  | .mov cc rx vy => ("MOV", some cc, [regName rx, spellVy vy])
  | .cmp cc rx vy => ("CMP", some cc, [regName rx, spellVy vy])
  | .reserved0E cc => ("RESERVED_0E", some cc, [])
  | .reserved0F cc => ("RESERVED_0F", some cc, [])
  | .ldw cc rx vy => ("LDW", some cc, [regName rx, inBrackets (spellVy vy)])
  | .stw cc rx vy => ("STW", some cc, [inBrackets (regName rx), spellVy vy])
  | .ldb cc rx vy => ("LDB", some cc, [regName rx, inBrackets (spellVy vy)])
  | .stb cc rx v8 => ("STB", some cc, [inBrackets (regName rx), spellV8 v8])
  | .bra cc rx vy => ("BRA", some cc, [regName rx, spellVy vy])
  | .brr cc w => ("BRR", some cc, [hexWord w])
  | .fca cc rx vy => ("FCA", some cc, [regName rx, spellVy vy])
  | .fcr cc w => ("FCR", some cc, [hexWord w])
  | .rdb cc rx port => ("RDB", some cc, [regName rx, spellPort port])
  | .wrb cc port v8 => ("WRB", some cc, [spellPort port, spellV8 v8])
  | .psh cc regs => ("PSH", some cc, [spellRegs regs])
  | .pop cc regs => ("POP", some cc, [spellRegs regs])
  | .inc cc rx simm => ("INC", some cc, [regName rx, spellSImm4 simm])
  | .bpt cc => ("BPT", some cc, [])
  | .hlt cc => ("HLT", some cc, [])
  | .nop cc => ("NOP", some cc, [])
  | .xc => ("XC", none, [])
  | .tf => ("TF", none, [])
  | .em => ("EM", none, [])
  | .dr rd => ("DR", none, [regName rd])
  | .reservedPrefixC3 => ("RESERVED_PREFIX", none, [])
  | .reservedPrefixC4 _ => ("RESERVED_PREFIX", none, [])
  | .reservedPrefixC8 _ => ("RESERVED_PREFIX", none, [])

/-- An instruction with the prefixes before it, in assembler text (R112 to R114): `EM:` in front, `F` after
the mnemonic, the condition after a period, the register of a `DR` prefix as a leading operand. -/
def spell (p : Progress) (i : Instr) : String :=
  let (name, cc, operands) := spellingParts i
  let suffix := match cc with
    | some cc => condSuffix ((if p.xc then 8#4 else 0#4) + cc.setWidth 4)
    | none => ""
  let operands := match p.dr with
    | some rd => regName rd :: operands
    | none => operands
  (if p.em then "EM:" else "") ++ name ++ (if p.tf then "F" else "") ++ suffix
    ++ (if operands.isEmpty then "" else " " ++ String.intercalate ", " operands)

end Sys2Proof.Machine
end

