-- ==== Sys2Proof/Safety.lean ====
section
/-! DEFINITION. What the claims about the machine are stated in: the invariant of its states, what a step
leaves alone, the flags a result has, and what counts as a safe run. -/

namespace Sys2Proof.Machine

/-! ### The invariant -/

/-- A suspended instruction is in the middle of its work (R258): its code bytes are not all there, or the
accesses still to be made are data accesses. -/
def Suspended.Midway (t : Suspended) : Prop :=
  match t.work with
  | .fetch got => ∃ e, decode t.progress.xc got = .error e
  | .data _ _ x todo => ∀ y ∈ x :: todo, y.kind ≠ .execute

/-- What every step keeps. -/
structure State.Inv (s : State) : Prop where
  /-- memory is in its canonical form -/
  memWf : Memory.wf s.mem
  /-- `MF = 1` exactly in the exception context (R29, R35) -/
  mfInHandler : s.flags.mf = s.suspended.isSome
  /-- the suspended context is the thread context, whose `MF` is 0 (R29) -/
  threadMf : ∀ t, s.suspended = some t → t.thread.flags.mf = false
  /-- a suspended instruction has something left to do (R258) -/
  midway : ∀ t, s.suspended = some t → t.Midway
  /-- a halted machine has no instruction in progress (R250) -/
  haltedIdle : s.status ≠ .running → s.progress = none

/-! ### Frames -/

/-- What an instruction other than a store leaves alone: every register but those listed, every byte of
memory, MF, the suspended thread, the port events and the run status; it ends at an instruction
boundary. -/
def Keeps (s t : State) (written : List RegNum) : Prop :=
  (∀ r, r ∉ written → t.reg r = s.reg r) ∧ (∀ pa, t.physRead pa = s.physRead pa) ∧
    t.flags.mf = s.flags.mf ∧ t.suspended = s.suspended ∧ t.ports = s.ports ∧ t.status = s.status ∧
    t.progress = none

/-- What a store that ends normally leaves alone: every register but those listed, every byte of memory
but those at the listed physical addresses, all flags, the suspended thread, the port events and the run
status; it ends at an instruction boundary. -/
def KeepsBut (s t : State) (written : List RegNum) (stored : List Word) : Prop :=
  (∀ r, r ∉ written → t.reg r = s.reg r) ∧ (∀ pa, pa ∉ stored → t.physRead pa = s.physRead pa) ∧
    t.flags = s.flags ∧ t.suspended = s.suspended ∧ t.ports = s.ports ∧ t.status = s.status ∧
    t.progress = none

/-- What a port instruction leaves alone: as `Keeps`, but one port event is recorded. -/
def KeepsAnd (s t : State) (written : List RegNum) (e : PortEvent) : Prop :=
  t.ports = s.ports ++ [e] ∧ Keeps s { t with ports := s.ports } written

/-- Register `r` has received `v`: it reads `v`, and `R0` reads 0 whatever is written to it (R21). -/
def Received (t : State) (r : RegNum) (v : Word) : Prop := t.reg r = if r = 0#4 then 0#16 else v

/-- What a halt leaves alone (R253): every register, every flag, every byte of memory, the suspended
thread and the port events. -/
def HaltsWith (s t : State) (reason : HaltReason) : Prop :=
  t.status = .halted reason ∧ (∀ r, t.reg r = s.reg r) ∧ t.flags = s.flags ∧
    (∀ pa, t.physRead pa = s.physRead pa) ∧ t.suspended = s.suspended ∧ t.ports = s.ports ∧
    t.progress = none

/-! ### Flags -/

/-- ZF, SF and PF describe a 16-bit result (R28, R31): zero, high bit, an odd number of 1 bits. -/
def Flags.Describe (f : Flags) (v : Word) : Prop :=
  (f.zf = true ↔ v.toNat = 0) ∧ (f.sf = true ↔ 32768 ≤ v.toNat) ∧
    (f.pf = true ↔ ((List.range 16).map fun n => (v.getLsbD n).toNat).sum % 2 = 1)

/-- The flags after an instruction whose FLAGS column is `ZSP`: written from a result if `wf`, CF and VF
kept; else all kept (R28, R30). -/
def ZSPWritten (wf : Bool) (f g : Flags) (v : Word) : Prop :=
  if wf then g.Describe v ∧ g.cf = f.cf ∧ g.vf = f.vf else g = f

/-- The flags after an instruction whose FLAGS column is `ZSPC`. -/
def ZSPCWritten (wf : Bool) (f g : Flags) (v : Word) (c : Bool) : Prop :=
  if wf then g.Describe v ∧ g.cf = c ∧ g.vf = f.vf else g = f

/-- The flags after an instruction whose FLAGS column is `ZSPCV`. -/
def ZSPCVWritten (wf : Bool) (f g : Flags) (v : Word) (c o : Prop) : Prop :=
  if wf then g.Describe v ∧ (g.cf = true ↔ c) ∧ (g.vf = true ↔ o) else g = f

/-- An instruction with one result whose bits are `op` of the bits of `a = x[rx]` and `b = vy`, and whose
FLAGS column is `ZSP` (R136, R137, R138). -/
def BitwiseResult (make : CondField → RegNum → Vy → Instr) (op : Bool → Bool → Bool) : Prop :=
  ∀ (cc : CondField) (rx : RegNum) (vy : Vy) (s : State), s.holds cc = true →
    ∃ (t : State) (v : Word), exec (make cc rx vy) s = .next t ∧
      (∀ n < 16, v.getLsbD n = op ((s.reg rx).getLsbD n) ((s.vy vy).getLsbD n)) ∧
      Received t (s.rd rx) v ∧ ZSPWritten (s.wf cc) s.flags t.flags v ∧ Keeps s t [s.rd rx]

/-- An integer outside the range of a signed 16-bit value (R32). -/
def SignedOverflow (n : Int) : Prop := n < -32768 ∨ 32767 < n

/-- The values of the FLAGS column of the opcode table (R107). -/
inductive FlagColumn where
  | none
  | zsp
  | zspc
  | zspcv
deriving DecidableEq, Repr

/-- The FLAGS column of an instruction (R107, spec/opcode_table.json "flags_written"). -/
def flagColumn : Instr → FlagColumn
  | .add _ _ _ | .sub _ _ _ | .cmp _ _ _ | .inc _ _ _ => .zspcv
  | .sru _ _ _ | .srs _ _ _ | .rdb _ _ _ | .wrb _ _ _ => .zspc
  | .mlu _ _ _ | .mls _ _ _ | .dvu _ _ _ | .dvs _ _ _ | .xor _ _ _ | .and _ _ _ | .orr _ _ _ => .zsp
  | .shl _ _ _ | .mov _ _ _ | .ldw _ _ _ | .ldb _ _ _ => .zsp
  | .stw _ _ _ | .stb _ _ _ | .bra _ _ _ | .brr _ _ | .fca _ _ _ | .fcr _ _ | .psh _ _ => .none
  | .pop _ _ | .bpt _ | .hlt _ | .nop _ | .reserved0E _ | .reserved0F _ | .xc | .tf | .em => .none
  | .dr _ | .reservedPrefixC3 | .reservedPrefixC4 _ | .reservedPrefixC8 _ => .none

/-- The condition field of an instruction that has a condition: every assigned opcode. The reserved opcodes
halt whatever it is (R108), and the prefixes have none. -/
def condFieldOfInstr : Instr → Option CondField
  | .add cc _ _ | .sub cc _ _ | .mlu cc _ _ | .mls cc _ _ | .dvu cc _ _ | .dvs cc _ _ => some cc
  | .xor cc _ _ | .and cc _ _ | .orr cc _ _ | .shl cc _ _ | .sru cc _ _ | .srs cc _ _ => some cc
  | .mov cc _ _ | .cmp cc _ _ | .ldw cc _ _ | .stw cc _ _ | .ldb cc _ _ | .stb cc _ _ => some cc
  | .bra cc _ _ | .brr cc _ | .fca cc _ _ | .fcr cc _ | .rdb cc _ _ | .wrb cc _ _ => some cc
  | .psh cc _ | .pop cc _ | .inc cc _ _ | .bpt cc | .hlt cc | .nop cc => some cc
  | .reserved0E _ | .reserved0F _ | .xc | .tf | .em | .dr _ => none
  | .reservedPrefixC3 | .reservedPrefixC4 _ | .reservedPrefixC8 _ => none

/-! ### Accesses and code -/

/-- The byte accesses of an instruction are all made, in order, at the listed physical addresses: each is
located in the state the ones before it leave (R57, R70). -/
def State.AllLocated (s : State) : List ByteAccess → List Word → Prop
  | [], [] => True
  | x :: xs, pa :: pas => s.locate x.addr x.kind = .frame pa ∧ (s.access x pa []).1.AllLocated xs pas
  | _, _ => False

/-- What making byte accesses at the listed physical addresses comes to: the state after them, and the bytes
read so far (R57, R106 step 3). -/
def State.made (s : State) (got : List Byte) : List ByteAccess → List Word → State × List Byte
  | x :: xs, pa :: pas => (s.access x pa got).1.made (s.access x pa got).2 xs pas
  | _, _ => (s, got)

/-- The byte accesses of an instruction with data accesses, in order, and what it commits after them: `LDW`,
`LDB`, `STW`, `STB` at `vy` or `x[rx]` and the address after it, low byte first (R160 to R163, D1; log 20), and
`PSH` and `POP` (R190, R191; what their lists hold is in `PshResult` and `PopResult`). -/
def State.dataAccesses (s : State) : Instr → Option (DataOp × List ByteAccess)
  | .ldw cc rx vy => some (.loadWord (s.rd rx) (s.wf cc),
      [⟨.read, s.vy vy, 0#8⟩, ⟨.read, s.vy vy + 1#16, 0#8⟩])
  | .ldb cc rx vy => some (.loadByte (s.rd rx) (s.wf cc), [⟨.read, s.vy vy, 0#8⟩])
  | .stw _ rx vy => some (.store, [⟨.write, s.reg rx, BitVec.ofNat 8 (s.vy vy).toNat⟩,
      ⟨.write, s.reg rx + 1#16, BitVec.ofNat 8 ((s.vy vy).toNat / 256)⟩])
  | .stb _ rx v8 => some (.store, [⟨.write, s.reg rx, s.v8 v8⟩])
  | .psh _ regs => some (.push (s.rd 11#4) (s.pushPointer regs), s.pushAccesses regs)
  | .pop _ regs => some (.pop (s.rd 11#4) regs, s.popAccesses regs)
  | _ => none

/-- What byte accesses made at the listed physical addresses have left in memory: every byte written has its
value, the later one where two reach one byte, and every other byte is as it was (R61, R71). -/
def StoredBy (s t : State) (xs : List ByteAccess) (pas : List Word) : Prop :=
  (∀ q, (∀ (k : Nat) (x : ByteAccess), xs[k]? = some x → x.kind = .write → pas[k]? ≠ some q) →
    t.physRead q = s.physRead q) ∧
  ∀ (k : Nat) (x : ByteAccess) (pa : Word), xs[k]? = some x → x.kind = .write → pas[k]? = some pa →
    (∀ j, k < j → pas[j]? ≠ some pa) → t.physRead pa = x.byte

/-- A halt in the middle of an instruction's byte accesses (R253, R193): those before it stand in memory, and
every register and flag is as before the instruction. -/
def HaltsMidway (s t : State) (reason : HaltReason) (xs : List ByteAccess) (pas : List Word) : Prop :=
  t.status = .halted reason ∧ (∀ r, t.reg r = s.reg r) ∧ t.flags = s.flags ∧ StoredBy s t xs pas ∧
    t.suspended = s.suspended ∧ t.ports = s.ports ∧ t.progress = none

/-- What an instruction with data accesses leaves alone beside memory: every register but those listed, MF,
the suspended thread, the port events and the run status; it ends at an instruction boundary. -/
def KeepsBesideMemory (s t : State) (written : List RegNum) : Prop :=
  (∀ r, r ∉ written → t.reg r = s.reg r) ∧ t.flags.mf = s.flags.mf ∧ t.suspended = s.suspended ∧
    t.ports = s.ports ∧ t.status = s.status ∧ t.progress = none

/-- What an instruction has committed after its last byte access, from the bytes it read (R160 to R163, R190,
R191; D1, D10, D15; logs 20, 29, 34; the pointer a `POP` adds to, log 14). -/
def Committed (op : DataOp) (bytes : List Byte) (s t : State) : Prop :=
  match op with
  | .loadWord rd wf => KeepsBesideMemory s t [rd] ∧ ∀ lo hi, bytes = [lo, hi] →
      ∃ v : Word, v.toNat = lo.toNat + 256 * hi.toNat ∧ Received t rd v ∧ ZSPWritten wf s.flags t.flags v
  | .loadByte rd wf => KeepsBesideMemory s t [rd] ∧ ∀ b, bytes = [b] →
      ∃ v : Word, v.toNat = b.toNat ∧ Received t rd v ∧ ZSPWritten wf s.flags t.flags v
  | .store => KeepsBesideMemory s t [] ∧ t.flags = s.flags
  | .push rd pointer => KeepsBesideMemory s t [rd] ∧ t.flags = s.flags ∧ Received t rd pointer
  | .pop rd regs => KeepsBesideMemory s t (rd :: members regs) ∧ t.flags = s.flags ∧
      (rd ∉ members regs → Received t rd (s.reg rd + BitVec.ofNat 16 (2 * (members regs).length))) ∧
      ∀ (k : Nat) (r : RegNum) (lo hi : Byte), (members regs)[k]? = some r → bytes[2 * k]? = some lo →
        bytes[2 * k + 1]? = some hi → ∃ v : Word, v.toNat = lo.toNat + 256 * hi.toNat ∧
          Received t r (if r = rd then v + BitVec.ofNat 16 (2 * (members regs).length) else v)

/-- The thread as a handler's return leaves it, before the suspended instruction goes on (R260 steps 4 to 6),
where the saved `PC` was not changed: every register but `ZERO` and `PC` has its saved word, `PC` is the live
one, the flags are the thread's own. -/
def Returned (s b : State) (t : Suspended) : Prop :=
  (∀ r : RegNum, r ≠ 0#4 → r ≠ 14#4 →
      b.reg r = memReadWord s.mem (Config.excArea.savedRegs + BitVec.ofNat 16 (2 * r.toNat))) ∧
    b.pc = t.thread.reg 14#4 ∧ b.flags = { t.thread.flags with mf := false } ∧ b.mem = s.mem ∧
    b.progress = some t.progress ∧ b.suspended = none ∧ b.ports = s.ports ∧ b.status = .running

/-- The bytes that fetches from `a` on read (R58), `1 + DPC` apart. -/
def State.CodeAt (s : State) (a : Word) : List Byte → Prop
  | [] => True
  | b :: rest =>
    (∃ pa, s.locate a .execute = .frame pa ∧ s.physRead pa = b) ∧ s.CodeAt (a + 1#16 + s.dpc) rest

/-- The address `n` code bytes after `a`: `n` strides of `1 + DPC` (R24). -/
def afterBytes (a dpc : Word) : Nat → Word
  | 0 => a
  | n + 1 => afterBytes (a + 1#16 + dpc) dpc n

/-- A running machine at the state from which `step` fetches: not at the return address of a handler. -/
def State.Fetching (s : State) : Prop :=
  s.status = .running ∧ ∀ t, s.suspended = some t → s.atHandlerReturn Config.excArea = false

/-- The physical addresses of the 32 bytes of the saved-register area (R257). -/
def savedArea (area : ExcArea) : List Word :=
  (List.range 32).map fun n => area.savedRegs + BitVec.ofNat 16 n

/-! ### Safe runs -/

/-- A run has ended as its program says (R202). -/
def State.EndedNormally (s : State) : Prop := s.status = .halted .instruction

/-- The exception area lies where R264 requires it: its stack, its saved registers and its return address
outside the tables and in allowed pages (R259). The first is a property of the configuration, which
`Config.excArea` has; the second is one of memory, which the loader sees to (R302) and the hardware does not
check (D21; log 10). -/
def AreaPlaced (area : ExcArea) (s : State) : Prop :=
  Config.placed area = true ∧
    (∀ n, 1 ≤ n → n ≤ Config.excStackBytes →
      s.physAllowed (area.stackTop - BitVec.ofNat 16 n) = true) ∧
    (∀ pa ∈ savedArea area, s.physAllowed pa = true) ∧ s.physAllowed area.returnAddr = true

/-- A page the program may fetch from, read or write without a halt (R302): its page number for the kind
is there and its physical page is allowed, or its faults are serviced. -/
def State.Serviced (s : State) (a : Word) (k : Kind) : Prop :=
  (∃ pa, s.locate a k = .frame pa) ∨ (s.locate a k = .pageFault ∧ s.handlerPage a ≠ 0#8)

/-- What must be in place before the first instruction (R301, R302), for a program that touches the listed
addresses in the listed ways. -/
def State.BootReady (s : State) (area : ExcArea) (touched : List (Word × Kind)) : Prop :=
  s.flags.mf = false ∧ s.Serviced s.pc .execute ∧ (∀ x ∈ touched, s.Serviced x.1 x.2) ∧ AreaPlaced area s

/-- The registers a called function restores (R40): `S0` to `S3`, that is `R7` to `R10`. -/
def calleeSaved : List RegNum := [7#4, 8#4, 9#4, 10#4]

/-- The calling convention between a call and its return (R40, R41): a software contract. -/
def FollowsConvention (atCall atReturn : State) : Prop :=
  (∀ r ∈ calleeSaved, atReturn.reg r = atCall.reg r) ∧ atReturn.pc = atCall.reg regRA ∧
    atReturn.dpc = atCall.reg regRD

end Sys2Proof.Machine
end

