-- ==== Sys2Proof/Certificates/Slice0/Obligations.lean ====
section
/-! DEFINITION. The statements about EAR version 2 that are to be proved. "D<n>" is a decision of the spec,
92_eei_decisions.md; "log <n>" is notes/assumptions/<n>.md. -/

section

open Sys2Proof Sys2Proof.Machine

/-! ### Encoding -/

/-- Decoding the encoding of a well-formed instruction gives it back, whatever follows, at every value of
every operand (R90 to R101). The field places are recovered by the spec (R90 [derived]); D1 and D12 to D14
fix the orders and formats (log 20, 31, 32, 33). -/
def Obligations.DecodeOfEncode : Prop :=
  ∀ (afterXC : Bool) (i : Instr) (rest : List Byte), i.wf afterXC = true →
    decode afterXC (encode i ++ rest) = .ok (i, rest)

/-- Only the encoding of an instruction decodes to it, and what is decoded is well formed: no two byte
sequences are the same instruction. -/
def Obligations.EncodeOfDecode : Prop :=
  ∀ (afterXC : Bool) (bytes rest : List Byte) (i : Instr), decode afterXC bytes = .ok (i, rest) →
    i.wf afterXC = true ∧ encode i ++ rest = bytes

/-- Any four bytes begin with an instruction or a prefix byte: no byte pattern is without a meaning, and no
instruction is longer than four bytes without its prefixes (R102 [derived], R104 [derived]). -/
def Obligations.FourBytesDecode : Prop :=
  ∀ (afterXC : Bool) (b₀ b₁ b₂ b₃ : Byte), ∃ (i : Instr) (rest : List Byte),
    decode afterXC [b₀, b₁, b₂, b₃] = .ok (i, rest) ∧ rest.length ≤ 3

/-- Bytes written out in the spec (R115 and the examples of the instructions' rules) decode to the
instructions they stand for. -/
def Obligations.WrittenBytesDecode : Prop :=
  decode false [0xE0#8, 0x12#8] = .ok (.add 7#3 1#4 (.reg 2#4), []) ∧
  decode false [0xE0#8, 0x1F#8, 0x34#8, 0x12#8] = .ok (.add 7#3 1#4 (.imm 0x1234#16), []) ∧
  decode false [0xF2#8, 0x1F#8, 0x01#8, 0x20#8] = .ok (.ldb 7#3 1#4 (.imm 0x2001#16), []) ∧
  decode false [0xF3#8, 0x2F#8, 0x41#8] = .ok (.stb 7#3 2#4 (.imm 0x41#8), []) ∧
  decode false [0xF4#8, 0xDC#8] = .ok (.bra 7#3 13#4 (.reg 12#4), []) ∧
  decode false [0xF8#8, 0x35#8] = .ok (.rdb 7#3 3#4 5#4, []) ∧
  decode false [0xF9#8, 0x53#8] = .ok (.wrb 7#3 5#4 (.reg 3#4), []) ∧
  decode false [0xFA#8, 0x80#8, 0x11#8] = .ok (.psh 7#3 0x1180#16, []) ∧
  decode false [0xFC#8, 0x17#8] = .ok (.inc 7#3 1#4 7#4, []) ∧
  decode false [0x0F#8] = .ok (.reserved0F 0#3, []) ∧
  decode false [0xC1#8, 0xE0#8] = .ok (.tf, [0xE0#8]) ∧
  decode false [0xD5#8, 0xE1#8] = .ok (.dr 5#4, [0xE1#8]) ∧
  decode true [0xC0#8, 0x12#8] = .ok (.add 6#3 1#4 (.reg 2#4), [])

/-- The value of every `SImm4` field (R98); and that `INC` has its register in the high and that field in the low
nybble, a choice of the spec where its source is silent (D13, log 32). The value 15 in that place is -1, no
immediate marker. Only `INC` has such a field. -/
def Obligations.SImm4Values : Prop :=
  (List.range 16).map (fun n => (simm4Value (BitVec.ofNat 4 n)).toInt) =
      [1, 2, 3, 4, 5, 6, 7, 8, -8, -7, -6, -5, -4, -3, -2, -1] ∧
    ∀ (cc : CondField) (rx : RegNum) (n : SImm4),
      decode true [opcodeByte cc 0x1C#5, nybbles rx n] = .ok (.inc cc rx n, [])

/-! ### Flags and conditions -/

/-- R31, `setZSP`: if `wf`, ZF, SF and PF describe the 16-bit result and CF and VF are kept; else nothing is
written. -/
def Obligations.SetZSP : Prop :=
  ∀ (s : State) (wf : Bool) (v : Word),
    ZSPWritten wf s.flags (s.writeFlags wf (s.flags.withZSP v)).flags v ∧
      (s.writeFlags wf (s.flags.withZSP v)).flags.mf = s.flags.mf ∧
      ∀ r, (s.writeFlags wf (s.flags.withZSP v)).reg r = s.reg r

/-- The condition table of R33. Number 6 belongs to no executed operation (R34) and is not in it. -/
def Obligations.ConditionTable : Prop :=
  ∀ f : Flags,
    condTrue 0x0#4 f = f.zf ∧ condTrue 0x1#4 f = !f.zf ∧
    condTrue 0x2#4 f = (f.cf && !f.zf) ∧ condTrue 0x3#4 f = (!f.cf || f.zf) ∧
    condTrue 0x4#4 f = !f.cf ∧ condTrue 0x5#4 f = f.cf ∧ condTrue 0x7#4 f = true ∧
    condTrue 0x8#4 f = f.sf ∧ condTrue 0x9#4 f = !f.sf ∧
    condTrue 0xA#4 f = (!f.zf && f.sf == f.vf) ∧ condTrue 0xB#4 f = (f.zf || f.sf != f.vf) ∧
    condTrue 0xC#4 f = (f.sf != f.vf) ∧ condTrue 0xD#4 f = (f.sf == f.vf) ∧
    condTrue 0xE#4 f = f.pf ∧ condTrue 0xF#4 f = !f.pf

/-- After a `CMP` that writes flags, the relational conditions read as relations between its operands,
unsigned and signed (R33 [derived], R143). The carry that says "no borrow" is D4 (log 23). -/
def Obligations.CompareRelations : Prop :=
  ∀ (cc : CondField) (rx : RegNum) (vy : Vy) (s : State), s.holds cc = true → s.wf cc = true →
    ∃ t, exec (.cmp cc rx vy) s = .next t ∧
      (condTrue 0x0#4 t.flags = true ↔ (s.reg rx).toNat = (s.vy vy).toNat) ∧
      (condTrue 0x1#4 t.flags = true ↔ (s.reg rx).toNat ≠ (s.vy vy).toNat) ∧
      (condTrue 0x2#4 t.flags = true ↔ (s.vy vy).toNat < (s.reg rx).toNat) ∧
      (condTrue 0x3#4 t.flags = true ↔ (s.reg rx).toNat ≤ (s.vy vy).toNat) ∧
      (condTrue 0x4#4 t.flags = true ↔ (s.reg rx).toNat < (s.vy vy).toNat) ∧
      (condTrue 0x5#4 t.flags = true ↔ (s.vy vy).toNat ≤ (s.reg rx).toNat) ∧
      (condTrue 0xA#4 t.flags = true ↔ (s.vy vy).toInt < (s.reg rx).toInt) ∧
      (condTrue 0xB#4 t.flags = true ↔ (s.reg rx).toInt ≤ (s.vy vy).toInt) ∧
      (condTrue 0xC#4 t.flags = true ↔ (s.reg rx).toInt < (s.vy vy).toInt) ∧
      (condTrue 0xD#4 t.flags = true ↔ (s.vy vy).toInt ≤ (s.reg rx).toInt)

/-- An instruction whose condition is false does nothing but leave its bytes behind: each of the 30 assigned
opcodes, every operand form (R105, D16; log 35). -/
def Obligations.FalseConditionDoesNothing : Prop :=
  ∀ (i : Instr) (cc : CondField) (s : State), condFieldOfInstr i = some cc → s.holds cc = false →
    ∃ t, exec i s = .next t ∧ Keeps s t [] ∧ t.flags = s.flags

/-- An instruction that does not enter a fault handler leaves every flag outside its FLAGS column as it was
(R28, D3; log 22). -/
def Obligations.FlagsOutsideColumnKept : Prop :=
  ∀ (i : Instr) (s t : State), exec i s = .next t → t.flags.mf = s.flags.mf →
    (flagColumn i = .none → t.flags = s.flags) ∧
      (flagColumn i = .zsp → t.flags.cf = s.flags.cf ∧ t.flags.vf = s.flags.vf) ∧
      (flagColumn i = .zspc → t.flags.vf = s.flags.vf)

/-! ### Prefixes -/

/-- With no prefix, the condition number is the field, flags are written exactly by unconditional
instructions and the destination is the default (R91, R95, R103). Each prefix byte changes that one thing
for the instruction it belongs to and nothing else of the machine (R210 to R213, R215). A prefix is a step
of its own (log 6); that a second `TF` undoes the first and the last `DR` counts is D17 (log 36); what `EM`
translates is D24 (log 42). -/
def Obligations.PrefixEffects : Prop :=
  (∀ (s : State) (cc : CondField) (d : RegNum), s.progress = none →
    (s.cond cc).toNat = cc.toNat ∧ s.wf cc = decide (cc = 7#3) ∧ s.rd d = d ∧
      s.current.startPc = s.pc) ∧
  ∀ (s : State) (rd : RegNum),
    (∃ t, exec .xc s = .next t ∧ t = s.setProgress t.progress ∧
      (∀ cc, (t.cond cc).toNat = cc.toNat + 8) ∧ t.current.tf = s.current.tf ∧
      t.current.em = s.current.em ∧ t.current.dr = s.current.dr ∧
      t.current.startPc = s.current.startPc) ∧
    (∃ t, exec .tf s = .next t ∧ t = s.setProgress t.progress ∧
      (∀ cc, t.wf cc = !s.wf cc) ∧ (∀ cc, t.cond cc = s.cond cc) ∧ t.current.em = s.current.em ∧
      t.current.dr = s.current.dr ∧ t.current.startPc = s.current.startPc) ∧
    (∃ t, exec .em s = .next t ∧ t = s.setProgress t.progress ∧
      t.mmuOn .read = true ∧ t.mmuOn .write = true ∧ t.mmuOn .execute = s.mmuOn .execute ∧
      (∀ cc, t.cond cc = s.cond cc ∧ t.wf cc = s.wf cc) ∧ t.current.dr = s.current.dr ∧
      t.current.startPc = s.current.startPc) ∧
    (∃ t, exec (.dr rd) s = .next t ∧ t = s.setProgress t.progress ∧
      (∀ d, t.rd d = rd) ∧ (∀ cc, t.cond cc = s.cond cc ∧ t.wf cc = s.wf cc) ∧
      t.current.em = s.current.em ∧ t.current.startPc = s.current.startPc)

/-! ### Arithmetic and logic -/

/-- R130, `ADD`, opcode 00: the sum modulo 2^16 to `Rd`; CF is bit 16 of the sum, VF says that the signed sum
does not fit. -/
def Obligations.AddResult : Prop :=
  ∀ (cc : CondField) (rx : RegNum) (vy : Vy) (s : State), s.holds cc = true →
    encode (.add cc rx vy) = encodeRV cc 0x00#5 rx vy ∧
    ∃ t, exec (.add cc rx vy) s = .next t ∧
      Received t (s.rd rx) (BitVec.ofNat 16 ((s.reg rx).toNat + (s.vy vy).toNat)) ∧
      ZSPCVWritten (s.wf cc) s.flags t.flags (BitVec.ofNat 16 ((s.reg rx).toNat + (s.vy vy).toNat))
        (65536 ≤ (s.reg rx).toNat + (s.vy vy).toNat)
        (SignedOverflow ((s.reg rx).toInt + (s.vy vy).toInt)) ∧
      Keeps s t [s.rd rx]

/-- R131, `SUB`: the difference modulo 2^16 to `Rd`; CF says that no borrow occurs (R32, D4; log 23). -/
def Obligations.SubResult : Prop :=
  ∀ (cc : CondField) (rx : RegNum) (vy : Vy) (s : State), s.holds cc = true →
    ∃ t, exec (.sub cc rx vy) s = .next t ∧
      Received t (s.rd rx) (BitVec.ofInt 16 ((s.reg rx).toInt - (s.vy vy).toInt)) ∧
      ZSPCVWritten (s.wf cc) s.flags t.flags (BitVec.ofInt 16 ((s.reg rx).toInt - (s.vy vy).toInt))
        ((s.vy vy).toNat ≤ (s.reg rx).toNat)
        (SignedOverflow ((s.reg rx).toInt - (s.vy vy).toInt)) ∧
      Keeps s t [s.rd rx]

/-- R143, `CMP`: the flags of `SUB`, no register, whatever a `DR` prefix names (D11; log 30). -/
def Obligations.CmpResult : Prop :=
  ∀ (cc : CondField) (rx : RegNum) (vy : Vy) (s : State), s.holds cc = true →
    ∃ t, exec (.cmp cc rx vy) s = .next t ∧
      ZSPCVWritten (s.wf cc) s.flags t.flags (BitVec.ofInt 16 ((s.reg rx).toInt - (s.vy vy).toInt))
        ((s.vy vy).toNat ≤ (s.reg rx).toNat)
        (SignedOverflow ((s.reg rx).toInt - (s.vy vy).toInt)) ∧
      Keeps s t []

/-- R132, `MLU`: the 32-bit unsigned product, its low word to `Rd`, its high word to `Rdx`, whose number is
`Rd`'s XOR 1; ZF, SF, PF of the low word (D6; log 25). -/
def Obligations.MluResult : Prop :=
  ∀ (cc : CondField) (rx : RegNum) (vy : Vy) (s : State), s.holds cc = true →
    ∃ t, exec (.mlu cc rx vy) s = .next t ∧
      Received t (s.rd rx) (BitVec.ofNat 16 ((s.reg rx).toNat * (s.vy vy).toNat)) ∧
      Received t (s.rd rx ^^^ 1#4) (BitVec.ofNat 16 ((s.reg rx).toNat * (s.vy vy).toNat / 65536)) ∧
      ZSPWritten (s.wf cc) s.flags t.flags (BitVec.ofNat 16 ((s.reg rx).toNat * (s.vy vy).toNat)) ∧
      Keeps s t [s.rd rx, s.rd rx ^^^ 1#4]

/-- R133, `MLS`: the signed product in the same two registers; ZF, SF, PF of the low word (D6; log 25). -/
def Obligations.MlsResult : Prop :=
  ∀ (cc : CondField) (rx : RegNum) (vy : Vy) (s : State), s.holds cc = true →
    ∃ t, exec (.mls cc rx vy) s = .next t ∧
      Received t (s.rd rx) (BitVec.ofInt 16 ((s.reg rx).toInt * (s.vy vy).toInt)) ∧
      Received t (s.rd rx ^^^ 1#4) (BitVec.ofInt 16 ((s.reg rx).toInt * (s.vy vy).toInt / 65536)) ∧
      ZSPWritten (s.wf cc) s.flags t.flags (BitVec.ofInt 16 ((s.reg rx).toInt * (s.vy vy).toInt)) ∧
      Keeps s t [s.rd rx, s.rd rx ^^^ 1#4]

/-- R134, `DVU` with a divisor that is not 0: quotient to `Rd`, remainder to `Rdx`; ZF, SF, PF of the
quotient (D6; log 25). -/
def Obligations.DvuResult : Prop :=
  ∀ (cc : CondField) (rx : RegNum) (vy : Vy) (s : State), s.holds cc = true → s.vy vy ≠ 0#16 →
    ∃ (t : State) (q m : Nat), exec (.dvu cc rx vy) s = .next t ∧
      (s.reg rx).toNat = q * (s.vy vy).toNat + m ∧ m < (s.vy vy).toNat ∧
      Received t (s.rd rx) (BitVec.ofNat 16 q) ∧ Received t (s.rd rx ^^^ 1#4) (BitVec.ofNat 16 m) ∧
      ZSPWritten (s.wf cc) s.flags t.flags (BitVec.ofNat 16 q) ∧
      Keeps s t [s.rd rx, s.rd rx ^^^ 1#4]

/-- R135, `DVS` with a divisor that is not 0, for both values of SDIV_MODE (D8; log 9): toward zero the
remainder has the dividend's sign, toward minus infinity the divisor's. Quotient and remainder are taken
modulo 2^16, so -32768 by -1 does not halt (D8; log 27); ZF, SF, PF of the quotient (D6; log 25). -/
def Obligations.DvsResult : Prop :=
  ∀ (cc : CondField) (rx : RegNum) (vy : Vy) (s : State), s.holds cc = true → s.vy vy ≠ 0#16 →
    ∃ (t : State) (q m : Int), exec (.dvs cc rx vy) s = .next t ∧
      (s.reg rx).toInt = q * (s.vy vy).toInt + m ∧ |m| < |(s.vy vy).toInt| ∧
      (Config.sdivMode = .trunc → 0 ≤ m * (s.reg rx).toInt) ∧
      (Config.sdivMode = .floor → 0 ≤ m * (s.vy vy).toInt) ∧
      Received t (s.rd rx) (BitVec.ofInt 16 q) ∧ Received t (s.rd rx ^^^ 1#4) (BitVec.ofInt 16 m) ∧
      ZSPWritten (s.wf cc) s.flags t.flags (BitVec.ofInt 16 q) ∧
      Keeps s t [s.rd rx, s.rd rx ^^^ 1#4]

/-- `DVU` and `DVS` by 0 halt the machine before anything is written (R134, R135, D7; log 26). -/
def Obligations.DivisionByZeroHalts : Prop :=
  ∀ (cc : CondField) (rx : RegNum) (vy : Vy) (s : State), s.holds cc = true → s.vy vy = 0#16 →
    (∃ t, exec (.dvu cc rx vy) s = .next t ∧ HaltsWith s t .divZero) ∧
      ∃ t, exec (.dvs cc rx vy) s = .next t ∧ HaltsWith s t .divZero

/-- R136, R137, R138: `XOR`, `AND`, `ORR` bit by bit; CF and VF are kept (D3; log 22). -/
def Obligations.BitwiseResults : Prop :=
  BitwiseResult .xor (fun a b => a != b) ∧ BitwiseResult .and (fun a b => a && b) ∧
    BitwiseResult .orr (fun a b => a || b)

/-- R139, `SHL`: `a * 2^n` modulo 2^16 for every count `n` of 0 to 65535 (D9; log 28); CF is kept. -/
def Obligations.ShlResult : Prop :=
  ∀ (cc : CondField) (rx : RegNum) (vy : Vy) (s : State), s.holds cc = true →
    ∃ t, exec (.shl cc rx vy) s = .next t ∧
      Received t (s.rd rx) (BitVec.ofNat 16 ((s.reg rx).toNat * 2 ^ (s.vy vy).toNat)) ∧
      ZSPWritten (s.wf cc) s.flags t.flags (BitVec.ofNat 16 ((s.reg rx).toNat * 2 ^ (s.vy vy).toNat)) ∧
      Keeps s t [s.rd rx]

/-- R140, `SRU`: `a / 2^n` rounded down, `a` unsigned; CF is `a[n-1]` for counts 1 to 16, else 0 (D9; log
28). -/
def Obligations.SruResult : Prop :=
  ∀ (cc : CondField) (rx : RegNum) (vy : Vy) (s : State), s.holds cc = true →
    ∃ t, exec (.sru cc rx vy) s = .next t ∧
      Received t (s.rd rx) (BitVec.ofNat 16 ((s.reg rx).toNat / 2 ^ (s.vy vy).toNat)) ∧
      ZSPCWritten (s.wf cc) s.flags t.flags (BitVec.ofNat 16 ((s.reg rx).toNat / 2 ^ (s.vy vy).toNat))
        (decide (1 ≤ (s.vy vy).toNat ∧ (s.vy vy).toNat ≤ 16 ∧
          (s.reg rx).toNat / 2 ^ ((s.vy vy).toNat - 1) % 2 = 1)) ∧
      Keeps s t [s.rd rx]

/-- R141, `SRS`: `a / 2^n` rounded down, `a` signed; CF is `a[n-1]` for counts 1 to 16, 0 for count 0, the
sign for counts above 16 (D9; log 28). -/
def Obligations.SrsResult : Prop :=
  ∀ (cc : CondField) (rx : RegNum) (vy : Vy) (s : State), s.holds cc = true →
    ∃ t, exec (.srs cc rx vy) s = .next t ∧
      Received t (s.rd rx) (BitVec.ofInt 16 ((s.reg rx).toInt / 2 ^ (s.vy vy).toNat)) ∧
      ZSPCWritten (s.wf cc) s.flags t.flags (BitVec.ofInt 16 ((s.reg rx).toInt / 2 ^ (s.vy vy).toNat))
        (decide (1 ≤ (s.vy vy).toNat ∧
          if (s.vy vy).toNat ≤ 16 then (s.reg rx).toNat / 2 ^ ((s.vy vy).toNat - 1) % 2 = 1
          else (s.reg rx).toInt < 0)) ∧
      Keeps s t [s.rd rx]

/-- R142, `MOV`: `vy` to `Rd`, which is not `Rx` after a `DR` prefix (D11; log 30). -/
def Obligations.MovResult : Prop :=
  ∀ (cc : CondField) (rx : RegNum) (vy : Vy) (s : State), s.holds cc = true →
    ∃ t, exec (.mov cc rx vy) s = .next t ∧ Received t (s.rd rx) (s.vy vy) ∧
      ZSPWritten (s.wf cc) s.flags t.flags (s.vy vy) ∧ Keeps s t [s.rd rx]

/-- R200, `INC`: `Rd := Rx + SImm4`; CF and VF are those of adding the sign-extended immediate, so for a
decrement by `m` CF says that `Rx` is at least `m` (D5; log 24). -/
def Obligations.IncResult : Prop :=
  ∀ (cc : CondField) (rx : RegNum) (n : SImm4) (s : State), s.holds cc = true →
    ∃ t, exec (.inc cc rx n) s = .next t ∧
      Received t (s.rd rx) (BitVec.ofInt 16 ((s.reg rx).toInt + (simm4Value n).toInt)) ∧
      ZSPCVWritten (s.wf cc) s.flags t.flags
        (BitVec.ofInt 16 ((s.reg rx).toInt + (simm4Value n).toInt))
        (if (simm4Value n).toInt < 0 then -(simm4Value n).toInt ≤ (s.reg rx).toNat
          else 65536 ≤ ((s.reg rx).toNat : Int) + (simm4Value n).toInt)
        (SignedOverflow ((s.reg rx).toInt + (simm4Value n).toInt)) ∧
      Keeps s t [s.rd rx]

/-! ### Loads and stores -/

/-- R57, R62, R56, R67: where a byte access is made. Translated, it is made in the page whose number stands at
`0xFC00 + 4 * page + kind`, and page-faults when that number is 0; the thread context translates every
access, the exception context only the data accesses of an `EM` instruction (D24; log 42). The page must
have bit 2 of its allocation byte at `0x0100 + page`, in every context and for fetches as well (D21; log
40); the bitmap at physical 0 has no say (D22; log 11). -/
def Obligations.AccessTranslation : Prop :=
  ∀ (s : State) (a : Word) (k : Kind) (n : Nat),
    n = (s.physRead (BitVec.ofNat 16 (0xFC00 + 4 * (a.toNat / 256) + k.number.toNat))).toNat →
    (s.flags.mf = false ∨ (s.current.em = true ∧ k ≠ .execute) →
      (n = 0 → s.locate a k = .pageFault) ∧
      (n ≠ 0 → (s.physRead (BitVec.ofNat 16 (0x0100 + n))).getLsbD 2 = true →
        s.locate a k = .frame (BitVec.ofNat 16 (256 * n + a.toNat % 256))) ∧
      (n ≠ 0 → (s.physRead (BitVec.ofNat 16 (0x0100 + n))).getLsbD 2 = false →
        s.locate a k = .denied)) ∧
    (s.flags.mf = true ∧ (s.current.em = false ∨ k = .execute) →
      s.locate a k =
        if (s.physRead (BitVec.ofNat 16 (0x0100 + a.toNat / 256))).getLsbD 2 then .frame a else .denied)

/-- R160, `LDW`, when both byte accesses may be made: the byte at `vy` is the low one (D1; log 20) and the
second comes from `vy + 1` modulo 2^16 (D20; log 39); the destination is `Rd` (D11; log 30). -/
def Obligations.LdwResult : Prop :=
  ∀ (cc : CondField) (rx : RegNum) (vy : Vy) (s : State) (pa₀ pa₁ : Word), s.holds cc = true →
    s.locate (s.vy vy) .read = .frame pa₀ → s.locate (s.vy vy + 1#16) .read = .frame pa₁ →
    ∃ (t : State) (v : Word), exec (.ldw cc rx vy) s = .next t ∧
      v.toNat = (s.physRead pa₀).toNat + 256 * (s.physRead pa₁).toNat ∧ Received t (s.rd rx) v ∧
      ZSPWritten (s.wf cc) s.flags t.flags v ∧ Keeps s t [s.rd rx]

/-- R162, `LDB`, when the byte access may be made: zero-extended (D10; log 29). -/
def Obligations.LdbResult : Prop :=
  ∀ (cc : CondField) (rx : RegNum) (vy : Vy) (s : State) (pa : Word), s.holds cc = true →
    s.locate (s.vy vy) .read = .frame pa →
    ∃ (t : State) (v : Word), exec (.ldb cc rx vy) s = .next t ∧
      v.toNat = (s.physRead pa).toNat ∧ Received t (s.rd rx) v ∧
      ZSPWritten (s.wf cc) s.flags t.flags v ∧ Keeps s t [s.rd rx]

/-- R161, `STW`, when both byte accesses may be made, the second translated after the first byte has landed
(R70): the low byte goes to `x[rx]` (D1; log 20), the high byte to `x[rx] + 1` modulo 2^16 (D20; log 39),
and over the low one if the two share a physical byte. -/
def Obligations.StwResult : Prop :=
  ∀ (cc : CondField) (rx : RegNum) (vy : Vy) (s : State) (pa₀ pa₁ : Word), Memory.wf s.mem →
    s.holds cc = true → s.locate (s.reg rx) .write = .frame pa₀ →
    (s.physWrite pa₀ (BitVec.ofNat 8 (s.vy vy).toNat)).locate (s.reg rx + 1#16) .write = .frame pa₁ →
    ∃ t, exec (.stw cc rx vy) s = .next t ∧
      (t.physRead pa₁).toNat = (s.vy vy).toNat / 256 ∧
      (pa₀ ≠ pa₁ → (t.physRead pa₀).toNat = (s.vy vy).toNat % 256) ∧ KeepsBut s t [] [pa₀, pa₁]

/-- R163, `STB`, when the byte access may be made: the low byte of the operand (D10; log 29). -/
def Obligations.StbResult : Prop :=
  ∀ (cc : CondField) (rx : RegNum) (v8 : V8) (s : State) (pa : Word), Memory.wf s.mem →
    s.holds cc = true → s.locate (s.reg rx) .write = .frame pa →
    ∃ t, exec (.stb cc rx v8) s = .next t ∧
      (t.physRead pa).toNat =
        (match v8 with | .reg ry => (s.reg ry).toNat % 256 | .imm b => b.toNat) ∧
      KeepsBut s t [] [pa]

/-- A word stored by `STW` is loaded by an `LDW` that reaches the same two physical bytes, in any later state
with the same memory (R65, R71 D31; log 47). -/
def Obligations.StoredWordIsLoaded : Prop :=
  ∀ (cc cc' : CondField) (rx rx' : RegNum) (vy vy' : Vy) (s t u : State) (pa₀ pa₁ : Word),
    Memory.wf s.mem → s.holds cc = true → pa₀ ≠ pa₁ → s.locate (s.reg rx) .write = .frame pa₀ →
    (s.physWrite pa₀ (BitVec.ofNat 8 (s.vy vy).toNat)).locate (s.reg rx + 1#16) .write = .frame pa₁ →
    exec (.stw cc rx vy) s = .next t → u.mem = t.mem → u.holds cc' = true →
    u.locate (u.vy vy') .read = .frame pa₀ → u.locate (u.vy vy' + 1#16) .read = .frame pa₁ →
    ∃ w, exec (.ldw cc' rx' vy') u = .next w ∧ Received w (u.rd rx') (s.vy vy)

/-- An instruction that is no `STW`, `STB` or `PSH` and does not enter a fault handler leaves every byte of
memory as it was (R54, R71). -/
def Obligations.OnlyStoresChangeMemory : Prop :=
  ∀ (i : Instr) (s t : State), (∀ cc rx vy, i ≠ .stw cc rx vy) → (∀ cc rx v8, i ≠ .stb cc rx v8) →
    (∀ cc regs, i ≠ .psh cc regs) → exec i s = .next t → t.flags.mf = s.flags.mf →
    ∀ pa, t.physRead pa = s.physRead pa

/-! ### The stack -/

/-- R100, D14 (log 33): the members of a `Regs16` set are the registers whose bits are set, each once, in
ascending number. -/
def Obligations.RegisterSetMembers : Prop :=
  ∀ regs : Regs16, (∀ r : RegNum, r ∈ members regs ↔ regs.getLsbD r.toNat = true) ∧
    (members regs).Pairwise (fun q r => q < r) ∧ (members regs).length = popcount regs

/-- R190, `PSH`, when its byte accesses may be made, each in the memory the ones before it leave: `Rd` falls by
two for each member (D14, C3; log 33), byte `k` of the stack goes to the new pointer plus `k`, low byte
first, the members ascending, and the pointer register stores its new value (D15; log 34, 13). Where two
accesses reach one physical byte the later one stands. -/
def Obligations.PshResult : Prop :=
  ∀ (cc : CondField) (regs : Regs16) (s : State) (pas : List Word), Memory.wf s.mem →
    s.holds cc = true → s.AllLocated (s.pushAccesses regs) pas →
    ∃ (t : State) (p : Word), exec (.psh cc regs) s = .next t ∧
      p = s.reg (s.rd 11#4) - BitVec.ofNat 16 (2 * (members regs).length) ∧
      Received t (s.rd 11#4) p ∧ KeepsBut s t [s.rd 11#4] pas ∧
      pas.length = 2 * (members regs).length ∧
      ∀ (k : Nat) (x : ByteAccess) (pa : Word) (r : RegNum), (s.pushAccesses regs)[k]? = some x →
        pas[k]? = some pa → (members regs)[k / 2]? = some r →
        x.kind = .write ∧ x.addr = p + BitVec.ofNat 16 k ∧
        ((∀ j, k < j → pas[j]? ≠ some pa) → (t.physRead pa).toNat =
          if k % 2 = 0 then (if r = s.rd 11#4 then p else s.reg r).toNat % 256
          else (if r = s.rd 11#4 then p else s.reg r).toNat / 256)

/-- R191, `POP`, when its byte accesses may be made: it reads two bytes for each member, byte `k` at the pointer
plus `k` (R60), and each member gets the word of its slot, ascending, low byte first (D14, D1; logs 33, 20); then
`Rd`, read after that, rises by two for each member (D15; log 34). -/
def Obligations.PopResult : Prop :=
  ∀ (cc : CondField) (regs : Regs16) (s : State) (pas : List Word), s.holds cc = true →
    s.AllLocated (s.popAccesses regs) pas →
    ∃ t, exec (.pop cc regs) s = .next t ∧ Keeps s t (s.rd 11#4 :: members regs) ∧
      t.flags = s.flags ∧
      (s.rd 11#4 ∉ members regs → Received t (s.rd 11#4)
        (s.reg (s.rd 11#4) + BitVec.ofNat 16 (2 * (members regs).length))) ∧
      pas.length = 2 * (members regs).length ∧
      (∀ k < 2 * (members regs).length, ∃ (x : ByteAccess) (pa : Word),
        (s.popAccesses regs)[k]? = some x ∧ pas[k]? = some pa ∧ x.kind = .read ∧
          x.addr = s.reg (s.rd 11#4) + BitVec.ofNat 16 k ∧ s.locate x.addr .read = .frame pa) ∧
      ∀ (k : Nat) (lo hi : Word) (r : RegNum), (members regs)[k]? = some r →
        pas[2 * k]? = some lo → pas[2 * k + 1]? = some hi →
        ∃ v : Word, v.toNat = (s.physRead lo).toNat + 256 * (s.physRead hi).toNat ∧
          Received t r
            (if r = s.rd 11#4 then v + BitVec.ofNat 16 (2 * (members regs).length) else v)

/-- `POP {S}` after `PSH {S}` with the same pointer register, not itself in `S`, gives every member and the
pointer their old values, in any later state with the same memory and pointer whose reads reach the bytes
the pushes wrote, all of them different (R191 [derived], R65). -/
def Obligations.PopAfterPshRestores : Prop :=
  ∀ (cc cc' : CondField) (regs : Regs16) (s t u : State) (pas : List Word), Memory.wf s.mem →
    s.holds cc = true → s.AllLocated (s.pushAccesses regs) pas → pas.Nodup →
    s.rd 11#4 ∉ members regs → exec (.psh cc regs) s = .next t →
    u.mem = t.mem → u.rd 11#4 = s.rd 11#4 → u.reg (s.rd 11#4) = t.reg (s.rd 11#4) →
    u.holds cc' = true → u.AllLocated (u.popAccesses regs) pas →
    ∃ w, exec (.pop cc' regs) u = .next w ∧ (∀ r ∈ members regs, w.reg r = s.reg r) ∧
      w.reg (s.rd 11#4) = s.reg (s.rd 11#4)

/-! ### Control transfer -/

/-- R170, `BRA`, opcode 14: `DPC` gets `x[rx]`, `PC` gets `vy`, both as they were before. -/
def Obligations.BraResult : Prop :=
  ∀ (cc : CondField) (rx : RegNum) (vy : Vy) (s : State), s.holds cc = true →
    encode (.bra cc rx vy) = encodeRV cc 0x14#5 rx vy ∧
    ∃ t, exec (.bra cc rx vy) s = .next t ∧ t.pc = s.vy vy ∧ t.dpc = s.reg rx ∧ t.flags = s.flags ∧
      Keeps s t [14#4, 15#4]

/-- R171, `BRR`, opcode 15: `PC`, which is the address of the next instruction, gets `Imm16` added modulo 2^16. -/
def Obligations.BrrResult : Prop :=
  ∀ (cc : CondField) (imm16 : Word) (s : State), s.holds cc = true →
    encode (.brr cc imm16) = encodeI16 cc 0x15#5 imm16 ∧
    ∃ t, exec (.brr cc imm16) s = .next t ∧ t.pc.toNat = (s.pc.toNat + imm16.toNat) % 65536 ∧
      t.flags = s.flags ∧ Keeps s t [14#4]

/-- R172, `FCA`: `RD` gets the old `DPC`, `RA` the address of the next instruction, then as `BRA`, all operands
as they were before the call, `RA` and `RD` among them (D19; log 38). -/
def Obligations.FcaResult : Prop :=
  ∀ (cc : CondField) (rx : RegNum) (vy : Vy) (s : State), s.holds cc = true →
    ∃ t, exec (.fca cc rx vy) s = .next t ∧ t.reg 13#4 = s.dpc ∧ t.reg 12#4 = s.pc ∧
      t.pc = s.vy vy ∧ t.dpc = s.reg rx ∧ t.flags = s.flags ∧ Keeps s t [12#4, 13#4, 14#4, 15#4]

/-- R173, `FCR`, opcode 17: the same link, `PC` gets `Imm16` added, `DPC` stays. -/
def Obligations.FcrResult : Prop :=
  ∀ (cc : CondField) (imm16 : Word) (s : State), s.holds cc = true →
    encode (.fcr cc imm16) = encodeI16 cc 0x17#5 imm16 ∧
    ∃ t, exec (.fcr cc imm16) s = .next t ∧ t.reg 13#4 = s.dpc ∧ t.reg 12#4 = s.pc ∧
      t.pc.toNat = (s.pc.toNat + imm16.toNat) % 65536 ∧ t.flags = s.flags ∧
      Keeps s t [12#4, 13#4, 14#4]

/-- `RET`, the bytes F4 DC, takes a callee that has kept `RA` and `RD` back to the instruction after the call,
with the caller's fetch stride (R175 [derived], R220, R41). -/
def Obligations.ReturnAfterCall : Prop :=
  encode (.bra 7#3 13#4 (.reg 12#4)) = [0xF4#8, 0xDC#8] ∧
  ∀ (cc : CondField) (rx : RegNum) (vy : Vy) (imm16 : Word) (s t u : State), s.holds cc = true →
    exec (.fca cc rx vy) s = .next t ∨ exec (.fcr cc imm16) s = .next t →
    u.reg 12#4 = t.reg 12#4 → u.reg 13#4 = t.reg 13#4 → u.progress = none →
    ∃ v, exec (.bra 7#3 13#4 (.reg 12#4)) u = .next v ∧ v.pc = s.pc ∧ v.dpc = s.dpc ∧
      v.flags = u.flags ∧ Keeps u v [14#4, 15#4]

/-! ### Ports -/

/-- R182, `RDB`: one event, the byte zero-extended (D10; log 29) to `Rd` (D11; log 30), CF the failure. What
the environment answers is free (D33; log 8). -/
def Obligations.RdbResult : Prop :=
  ∀ (cc : CondField) (rx : RegNum) (port : Port) (s : State), s.holds cc = true →
    ∃ (t : State) (byte : Byte) (fail : Bool) (v : Word), exec (.rdb cc rx port) s = .next t ∧
      (byte, fail) = Config.portRead s.ports port ∧ v.toNat = byte.toNat ∧ Received t (s.rd rx) v ∧
      ZSPCWritten (s.wf cc) s.flags t.flags v fail ∧
      KeepsAnd s t [s.rd rx] (.read port byte fail)

/-- R183, `WRB`: one event, CF the failure; ZF, SF, PF of the byte written (D33; log 49). -/
def Obligations.WrbResult : Prop :=
  ∀ (cc : CondField) (port : Port) (v8 : V8) (s : State), s.holds cc = true →
    ∃ (t : State) (byte : Byte) (v : Word), exec (.wrb cc port v8) s = .next t ∧
      byte.toNat = (match v8 with | .reg ry => (s.reg ry).toNat % 256 | .imm b => b.toNat) ∧
      v.toNat = byte.toNat ∧
      ZSPCWritten (s.wf cc) s.flags t.flags v (Config.portWrite s.ports port byte) ∧
      KeepsAnd s t [] (.write port byte (Config.portWrite s.ports port byte))

/-- No step forgets or changes a port event, and none makes more than one (R180, R181; that one step is one
instruction is log 6 and log 15). -/
def Obligations.PortEventsOnlyGrow : Prop :=
  ∀ s t : State, step s = .next t → t.ports = s.ports ∨ ∃ e, t.ports = s.ports ++ [e]

/-! ### System instructions -/

/-- `HLT` and `BPT` halt when their condition holds (R201, R202, D29; log 46); the reserved opcodes and the
reserved prefix bytes halt always (R108, R109, R204, R214, D18; log 37). A halt changes nothing else
(R253). -/
def Obligations.HaltingInstructions : Prop :=
  (∀ (cc : CondField) (s : State), s.holds cc = true →
    (∃ t, exec (.hlt cc) s = .next t ∧ HaltsWith s t .instruction) ∧
      ∃ t, exec (.bpt cc) s = .next t ∧ HaltsWith s t .breakpoint) ∧
  ∀ (i : Instr) (s : State), ((∃ cc, i = .reserved0E cc) ∨ (∃ cc, i = .reserved0F cc) ∨
      i = .reservedPrefixC3 ∨ (∃ n, i = .reservedPrefixC4 n) ∨ ∃ n, i = .reservedPrefixC8 n) →
    ∃ t, exec i s = .next t ∧ HaltsWith s t .illegal

/-- R203, `NOP`, opcode 1F, one byte: nothing changes once that byte is fetched, whatever the condition and the
prefixes. -/
def Obligations.NopDoesNothing : Prop :=
  ∀ (cc : CondField) (s : State), encode (.nop cc) = [opcodeByte cc 0x1F#5] ∧
    ∃ t, exec (.nop cc) s = .next t ∧ Keeps s t [] ∧ t.flags = s.flags

/-! ### Page faults and their handlers -/

/-- R255, R257, R258: a page fault of the thread context on a page with a handler. The handler's registers
and flags (D26; log 43), the thread suspended as it stands, its registers in the saved-register area, `PC`
there the faulting instruction's first byte, low bytes first (D1, D37; log 20, 51), written without a
check (D21; log 40), and every other byte of memory as it was. Where the area lies is free (D27; log 10). -/
def Obligations.PageFaultEntersHandler : Prop :=
  ∀ (s : State) (va : Word) (k : Kind) (work : Work), Memory.wf s.mem → s.flags.mf = false →
    s.handlerPage va ≠ 0#8 →
    (s.pageFault va k work).reg 1#4 = BitVec.ofNat 16 (0xFC00 + 4 * (va.toNat / 256)) ∧
    (s.pageFault va k work).reg 2#4 = va ∧
    (s.pageFault va k work).reg 3#4 = (match k with | .read => 0#16 | .write => 1#16 | .execute => 2#16) ∧
    (s.pageFault va k work).reg 4#4 = Config.excArea.savedRegs ∧
    (s.pageFault va k work).reg 5#4 = s.pc ∧
    (∀ r ∈ [6#4, 7#4, 8#4, 9#4, 10#4, 13#4, 15#4], (s.pageFault va k work).reg r = 0#16) ∧
    (s.pageFault va k work).reg 11#4 = Config.excArea.stackTop ∧
    (s.pageFault va k work).reg 12#4 = Config.excArea.returnAddr ∧
    (s.pageFault va k work).pc.toNat =
      256 * (s.physRead (BitVec.ofNat 16 (0xFC00 + 4 * (va.toNat / 256) + 3))).toNat ∧
    (s.pageFault va k work).flags =
      { zf := false, sf := false, pf := false, cf := false, vf := false, mf := true } ∧
    (s.pageFault va k work).suspended = some ⟨s.ctx, s.current, work⟩ ∧
    (s.pageFault va k work).progress = none ∧ (s.pageFault va k work).ports = s.ports ∧
    (s.pageFault va k work).status = s.status ∧
    (∀ r : RegNum,
      ((s.pageFault va k work).physRead
          (Config.excArea.savedRegs + BitVec.ofNat 16 (2 * r.toNat))).toNat =
        (if r = 14#4 then s.current.startPc else s.reg r).toNat % 256 ∧
      ((s.pageFault va k work).physRead
          (Config.excArea.savedRegs + BitVec.ofNat 16 (2 * r.toNat + 1))).toNat =
        (if r = 14#4 then s.current.startPc else s.reg r).toNat / 256) ∧
    ∀ pa, pa ∉ savedArea Config.excArea → (s.pageFault va k work).physRead pa = s.physRead pa

/-- R255, R256: a page fault without a handler halts with HALT_UNMAPPED; one in the exception context on a
page with a handler halts with HALT_DOUBLEFAULT (D25; log 42): handlers never nest. -/
def Obligations.PageFaultHalts : Prop :=
  ∀ (s : State) (va : Word) (k : Kind) (work : Work),
    (s.handlerPage va = 0#8 → HaltsWith s (s.pageFault va k work) .unmapped) ∧
      (s.handlerPage va ≠ 0#8 → s.flags.mf = true →
        HaltsWith s (s.pageFault va k work) .doubleFault)

/-- R165, R193, R258: a byte access of a load, store, push or pop that page-faults, be it the first or a later
one, takes the page fault at the exact address of that byte, with the instruction suspended there: the operands
latched, the bytes read, the accesses still to be made. The accesses before it are made, so bytes already stored
stay stored (R61, R263), and nothing is committed: the thread's registers and flags are as before (D19; log 38;
word order D1, log 20). -/
def Obligations.DataPageFaultIsTaken : Prop :=
  ∀ (i : Instr) (cc : CondField) (op : DataOp) (before todo : List ByteAccess) (x : ByteAccess)
    (pas : List Word) (s u : State) (got : List Byte),
    condFieldOfInstr i = some cc → s.holds cc = true →
    s.dataAccesses i = some (op, before ++ x :: todo) → s.AllLocated before pas →
    (u, got) = s.made [] before pas → u.locate x.addr x.kind = .pageFault →
    exec i s = .next (u.pageFault x.addr x.kind (.data op got x todo)) ∧
      u.ctx = s.ctx ∧ u.current = s.current ∧ u.suspended = s.suspended ∧ u.ports = s.ports ∧
      ((∀ y ∈ before, y.kind = .read) → u.mem = s.mem ∧ got = pas.map s.physRead) ∧
      (Memory.wf s.mem → StoredBy s u before pas)

/-- R67, R61, R193, R253: a byte access of a load, store, push or pop to a page whose allocation byte denies it,
be it the first or a later one, halts with HALT_DOUBLEFAULT. The bytes stored before it stay stored, and nothing
else changes: no register, the pointer and the members of a `POP` among them, and no flag (D21, D19; logs 40, 38;
word order D1, log 20). -/
def Obligations.DeniedAccessHalts : Prop :=
  ∀ (i : Instr) (cc : CondField) (op : DataOp) (before todo : List ByteAccess) (x : ByteAccess)
    (pas : List Word) (s : State), Memory.wf s.mem →
    condFieldOfInstr i = some cc → s.holds cc = true →
    s.dataAccesses i = some (op, before ++ x :: todo) → s.AllLocated before pas →
    (s.made [] before pas).1.locate x.addr x.kind = .denied →
    ∃ t, exec i s = .next t ∧ HaltsMidway s t .doubleFault before pas

/-- R58, R104, R252, R253: a code byte that cannot be fetched stops the step at its own address, `PC` there,
the bytes before it fetched: a page fault of kind execute with those bytes in the suspended instruction, or
a halt with HALT_DOUBLEFAULT. -/
def Obligations.FetchStopsAtMissingByte : Prop :=
  ∀ (s : State) (got : List Byte) (e : DecodeError) (va : Word), s.Fetching → s.CodeAt s.pc got →
    decode s.current.xc got = .error e → va = afterBytes s.pc s.dpc got.length →
    (s.locate va .execute = .pageFault →
      step s = .next ((s.beginInstr.setReg 14#4 va).pageFault va .execute (.fetch got))) ∧
    (s.locate va .execute = .denied →
      ∃ t, step s = .next t ∧ HaltsWith (s.beginInstr.setReg 14#4 va) t .doubleFault)

/-- R260 with the instruction marked complete, by a `saved_regs[ZERO]` that is not 0 or a changed
`saved_regs[PC]`: it is dropped; every register but `ZERO` and `PC` gets its saved word, `PC` only if the
saved word was changed, the thread's flags are its own (D27, D28; log 10, 44). -/
def Obligations.CompletedHandlerReturn : Prop :=
  ∀ (s : State) (t : Suspended), s.status = .running → s.suspended = some t →
    s.atHandlerReturn Config.excArea = true →
    (memReadWord s.mem Config.excArea.savedRegs ≠ 0#16 ∨
      memReadWord s.mem (Config.excArea.savedRegs + 28#16) ≠ t.progress.startPc) →
    ∃ u, step s = .next u ∧
      (∀ r : RegNum, r ≠ 0#4 → r ≠ 14#4 →
        u.reg r = memReadWord s.mem (Config.excArea.savedRegs + BitVec.ofNat 16 (2 * r.toNat))) ∧
      u.pc = (if memReadWord s.mem (Config.excArea.savedRegs + 28#16) = t.progress.startPc
        then t.thread.reg 14#4 else memReadWord s.mem (Config.excArea.savedRegs + 28#16)) ∧
      u.flags = { t.thread.flags with mf := false } ∧ u.mem = s.mem ∧ u.progress = none ∧
      u.suspended = none ∧ u.ports = s.ports ∧ u.status = .running

/-- R260, R261 with the instruction not marked complete: the thread's registers are written back, and the faulting
byte is accessed at the address the handler returns in `R2`, if its page is allowed, without translation; a page
that is not allowed halts with HALT_DOUBLEFAULT. The accesses after it are translated afresh: if all can be made
the instruction commits; one that page-faults is taken as a new page fault, one that is denied halts, with the
accesses before it made. A suspended code byte is taken at that address, `PC` advances by the `DPC` just written
back, and the bytes after it are fetched: an instruction that becomes complete is run with its own decode state,
a byte that cannot be fetched is a new page fault or a halt (D10, D15, D19, D28; logs 29, 34, 38, 44, 45; the
pointer a `POP` adds to, log 14; one step, log 15; word order D1, log 20). -/
def Obligations.HandlerReturnContinues : Prop :=
  ∀ (s : State) (t : Suspended) (ret : Word), s.status = .running → s.suspended = some t →
    s.atHandlerReturn Config.excArea = true → ret = s.reg 2#4 →
    memReadWord s.mem Config.excArea.savedRegs = 0#16 →
    memReadWord s.mem (Config.excArea.savedRegs + 28#16) = t.progress.startPc →
    ∃ b : State, Returned s b t ∧
    (s.physAllowed ret = false → ∃ u, step s = .next u ∧ HaltsWith b u .doubleFault) ∧
    (s.physAllowed ret = true →
      (∀ op got x todo pas, t.work = .data op got x todo → Memory.wf s.mem →
        (b.access x ret got).1.AllLocated todo pas →
        ∃ (u : State) (bytes : List Byte), step s = .next u ∧ Committed op bytes b u ∧
          ((∀ y ∈ x :: todo, y.kind = .read) → bytes = got ++ (ret :: pas).map s.physRead) ∧
          StoredBy b u (x :: todo) (ret :: pas)) ∧
      (∀ op got x before y todo pas c all, t.work = .data op got x (before ++ y :: todo) →
        Memory.wf s.mem → (b.access x ret got).1.AllLocated before pas →
        (c, all) = b.made got (x :: before) (ret :: pas) →
        (c.locate y.addr y.kind = .pageFault →
          step s = .next (c.pageFault y.addr y.kind (.data op all y todo)) ∧ c.ctx = b.ctx ∧
            c.progress = b.progress ∧ StoredBy b c (x :: before) (ret :: pas) ∧
            ((∀ z ∈ x :: before, z.kind = .read) → all = got ++ (ret :: pas).map s.physRead)) ∧
        (c.locate y.addr y.kind = .denied →
          ∃ u, step s = .next u ∧ HaltsMidway b u .doubleFault (x :: before) (ret :: pas))) ∧
      ∀ got more c va, t.work = .fetch got → c = b.setReg 14#4 (b.pc + 1#16 + b.dpc) →
        c.CodeAt c.pc more → va = afterBytes c.pc c.dpc more.length →
        (∀ i, decode t.progress.xc (got ++ s.physRead ret :: more) = .ok (i, []) →
          step s = exec i (c.setReg 14#4 va)) ∧
        ∀ e, decode t.progress.xc (got ++ s.physRead ret :: more) = .error e →
          (c.locate va .execute = .pageFault → step s =
            .next ((c.setReg 14#4 va).pageFault va .execute (.fetch (got ++ s.physRead ret :: more)))) ∧
          (c.locate va .execute = .denied →
            ∃ u, step s = .next u ∧ HaltsWith (c.setReg 14#4 va) u .doubleFault))

/-- A whole fault, from entry to return, for any exception area: if the handler leaves the saved-register area
alone and returns an allowed address, the suspended `LDB` ends with the byte at that address in its
destination and its flags, and every other register of the thread as it was (R257 to R263; D21, D26 to
D28; log 40, 43, 44). -/
def Obligations.UnmarkedFaultFinishesLoad : Prop :=
  ∀ (area : ExcArea) (s h : State) (va : Word) (page : Byte) (rd : RegNum) (wf : Bool) (work : Work),
    Memory.wf s.mem → s.flags.mf = false →
    work = .data (.loadByte rd wf) [] ⟨.read, va, 0#8⟩ [] →
    (∀ pa ∈ savedArea area, h.physRead pa = (s.enterHandler area va .read page work).physRead pa) →
    h.physAllowed (h.reg 2#4) = true →
    ∃ (u : State) (v : Word), h.afterHandler area ⟨s.ctx, s.current, work⟩ = .settled u ∧
      v.toNat = (h.physRead (h.reg 2#4)).toNat ∧ Received u rd v ∧
      (∀ r, r ≠ rd → u.reg r = s.reg r) ∧ ZSPWritten wf s.flags u.flags v ∧
      u.flags.mf = false ∧ u.mem = h.mem ∧ u.progress = none ∧ u.suspended = none

/-- R29, R271: MF changes in no other way than by entering a handler, which sets it in a fresh exception
context, and by a handler's return to its return address, which clears it. -/
def Obligations.MfChangesOnlyByEntryAndReturn : Prop :=
  ∀ s t : State, step s = .next t → t.flags.mf = s.flags.mf ∨
    (s.flags.mf = false ∧ t.flags.mf = true ∧
      ∃ va k page w, page ≠ 0#8 ∧ t.suspended = some w ∧
        t.ctx = handlerContext Config.excArea va k (w.thread.reg 14#4) page) ∨
    (s.flags.mf = true ∧ t.flags.mf = false ∧ s.atHandlerReturn Config.excArea = true ∧
      t.suspended = none)

/-! ### The step and the whole machine -/

/-- When the bytes from `PC` on, `1 + DPC` apart, are the bytes of an instruction, a step runs exactly that
instruction, with `PC` past its bytes and the decode state it began with (R24, R58, R104, R106). -/
def Obligations.StepRunsDecodedInstruction : Prop :=
  ∀ (s : State) (bytes : List Byte) (i : Instr), s.Fetching →
    decode s.current.xc bytes = .ok (i, []) → s.CodeAt s.pc bytes →
    step s = exec i (s.beginInstr.setReg 14#4 (afterBytes s.pc s.dpc bytes.length))

/-- A step has a next state exactly when the machine is running, and it never refuses (R38, R250). That the
step of a halted machine is a fault of the model is log 7. -/
def Obligations.StepStopsOnlyWhenHalted : Prop :=
  ∀ s : State, (s.status = .running → ∃ t, step s = .next t) ∧
    ∀ reason, s.status = .halted reason → step s = .fault (.halted reason)

/-- Every step from a state of the invariant leads to one: the memory stays canonical, MF is set exactly while
a handler runs, the suspended context is the thread's and in the middle of its instruction, and a halted
machine has none in progress (R29, R35, R36, R250, R258). The canonical form is the model's (log 4). -/
def Obligations.StepKeepsInvariant : Prop :=
  ∀ s t : State, s.Inv → step s = .next t → t.Inv

/-- The machine after reset meets the invariant that every step keeps. That it does rests on decision D32 (log 48)
for `MF`, the suspended thread and the run status, whose reset values are
`ResetState`'s, and on the model's choice of an empty memory (log 4). -/
def Obligations.ResetMeetsInvariant : Prop := State.reset.Inv

/-- What the spec gives for reset: `DPC` and `R0` read 0, MF is 0, nothing is suspended, no instruction is in
progress, no port event has happened, the machine runs (R39, R300, D32; log 48). The values of the other
registers and flags and of memory are the model's choice (logs 1 to 4) and no part of this. -/
def Obligations.ResetState : Prop :=
  State.reset.dpc = 0#16 ∧ State.reset.reg 0#4 = 0#16 ∧ State.reset.flags.mf = false ∧
    State.reset.suspended = none ∧ State.reset.progress = none ∧ State.reset.ports = [] ∧
    State.reset.status = .running

end
end

