-- ==== Sys2Proof/Laws/Flags.lean ====
section
/-! SUPPORT. What the flag computations write and what they leave alone, one lemma a flag. -/

namespace Sys2Proof.Machine

@[simp] theorem Flags.withZSP_zf (f : Flags) (v : Word) : (f.withZSP v).zf = (v == 0#16) := rfl
@[simp] theorem Flags.withZSP_sf (f : Flags) (v : Word) : (f.withZSP v).sf = v.getLsbD 15 := rfl
@[simp] theorem Flags.withZSP_pf (f : Flags) (v : Word) : (f.withZSP v).pf = parity v := rfl
@[simp] theorem Flags.withZSP_cf (f : Flags) (v : Word) : (f.withZSP v).cf = f.cf := rfl
@[simp] theorem Flags.withZSP_vf (f : Flags) (v : Word) : (f.withZSP v).vf = f.vf := rfl
@[simp] theorem Flags.withZSP_mf (f : Flags) (v : Word) : (f.withZSP v).mf = f.mf := rfl

@[simp] theorem Flags.withZSPC_zf (f : Flags) (v : Word) (c : Bool) :
    (f.withZSPC v c).zf = (v == 0#16) := rfl
@[simp] theorem Flags.withZSPC_sf (f : Flags) (v : Word) (c : Bool) :
    (f.withZSPC v c).sf = v.getLsbD 15 := rfl
@[simp] theorem Flags.withZSPC_pf (f : Flags) (v : Word) (c : Bool) :
    (f.withZSPC v c).pf = parity v := rfl
@[simp] theorem Flags.withZSPC_cf (f : Flags) (v : Word) (c : Bool) : (f.withZSPC v c).cf = c := rfl
@[simp] theorem Flags.withZSPC_vf (f : Flags) (v : Word) (c : Bool) : (f.withZSPC v c).vf = f.vf := rfl
@[simp] theorem Flags.withZSPC_mf (f : Flags) (v : Word) (c : Bool) : (f.withZSPC v c).mf = f.mf := rfl

@[simp] theorem Flags.ofAdd_zf (f : Flags) (a b : Word) : (f.ofAdd a b).zf = (a + b == 0#16) := rfl
@[simp] theorem Flags.ofAdd_sf (f : Flags) (a b : Word) : (f.ofAdd a b).sf = (a + b).getLsbD 15 := rfl
@[simp] theorem Flags.ofAdd_pf (f : Flags) (a b : Word) : (f.ofAdd a b).pf = parity (a + b) := rfl
@[simp] theorem Flags.ofAdd_mf (f : Flags) (a b : Word) : (f.ofAdd a b).mf = f.mf := rfl

@[simp] theorem Flags.ofSub_zf (f : Flags) (a b : Word) : (f.ofSub a b).zf = (a - b == 0#16) := rfl
@[simp] theorem Flags.ofSub_sf (f : Flags) (a b : Word) : (f.ofSub a b).sf = (a - b).getLsbD 15 := rfl
@[simp] theorem Flags.ofSub_pf (f : Flags) (a b : Word) : (f.ofSub a b).pf = parity (a - b) := rfl
@[simp] theorem Flags.ofSub_cf (f : Flags) (a b : Word) :
    (f.ofSub a b).cf = decide (b.toNat ≤ a.toNat) := rfl
@[simp] theorem Flags.ofSub_mf (f : Flags) (a b : Word) : (f.ofSub a b).mf = f.mf := rfl

/-- The carry of an addition (R32): bit 16 of the 17-bit sum. -/
theorem Flags.ofAdd_cf (f : Flags) (a b : Word) :
    (f.ofAdd a b).cf = decide (65536 ≤ a.toNat + b.toNat) := by
  have ha := a.isLt
  have hb := b.isLt
  show (a.setWidth 17 + b.setWidth 17).getLsbD 16 = _
  have h : (a.setWidth 17 + b.setWidth 17).toNat = a.toNat + b.toNat := by
    simp only [BitVec.toNat_add, BitVec.toNat_setWidth]; omega
  rw [BitVec.getLsbD, h, Nat.testBit_eq_decide_div_mod_eq]
  congr 1
  simp only [eq_iff_iff]
  omega

end Sys2Proof.Machine
end

