-- ==== Sys2Proof/Laws/State.lean ====
section
/-! SUPPORT. What each update of the state does to each part of it: one lemma a part and update, so that
no proof unfolds a record update. -/

namespace Sys2Proof.Machine

/-! ### Registers of a context -/

@[simp] theorem Context.reg_zero (c : Context) : c.reg 0#4 = 0#16 := rfl

@[simp] theorem Context.setReg_zero (c : Context) (v : Word) : c.setReg 0#4 v = c := rfl

@[simp] theorem Context.flags_setReg (c : Context) (r : RegNum) (v : Word) :
    (c.setReg r v).flags = c.flags := by
  unfold Context.setReg; split <;> rfl

/-- Reading a register after writing one: `R0` discards, every other register keeps. -/
theorem Context.reg_setReg (c : Context) (r q : RegNum) (v : Word) :
    (c.setReg r v).reg q = if q = r ∧ r ≠ 0#4 then v else c.reg q := by
  unfold Context.setReg Context.reg
  by_cases hr : r = 0#4
  · simp [hr]
  · by_cases hq : q = 0#4
    · subst hq; simp [hr, Ne.symm hr]
    · simp only [hr, hq, dite_false, Vector.getElem_set, ne_eq, not_false_eq_true, and_true]
      have hr' : r.toNat ≠ 0 := fun h => hr (BitVec.eq_of_toNat_eq h)
      have hq' : q.toNat ≠ 0 := fun h => hq (BitVec.eq_of_toNat_eq h)
      by_cases e : q = r
      · simp [e]
      · have : r.toNat - 1 ≠ q.toNat - 1 := fun h => e (BitVec.eq_of_toNat_eq (by omega))
        simp [e, this]

@[simp] theorem Context.reg_setReg_same (c : Context) (r : RegNum) (v : Word) (h : r ≠ 0#4) :
    (c.setReg r v).reg r = v := by simp [Context.reg_setReg, h]

@[simp] theorem Context.reg_setReg_other (c : Context) (r q : RegNum) (v : Word) (h : q ≠ r) :
    (c.setReg r v).reg q = c.reg q := by simp [Context.reg_setReg, h]

/-- Two contexts with the same registers and flags are the same context: `R0` has no storage. -/
theorem Context.ext_reg (c d : Context) (hr : ∀ r, c.reg r = d.reg r) (hf : c.flags = d.flags) :
    c = d := by
  obtain ⟨cr, cf⟩ := c
  obtain ⟨dr, df⟩ := d
  simp only [Context.mk.injEq]
  refine ⟨Vector.ext fun i hi => ?_, hf⟩
  have h := hr (BitVec.ofNat 4 (i + 1))
  have hne : BitVec.ofNat 4 (i + 1) ≠ 0#4 := fun e => by
    have := congrArg BitVec.toNat e
    simp [BitVec.toNat_ofNat] at this
    omega
  have hidx : (BitVec.ofNat 4 (i + 1)).toNat - 1 = i := by
    simp only [BitVec.toNat_ofNat]; omega
  simp only [Context.reg, hne, dite_false, hidx] at h
  exact h

/-! ### Parts of the state -/

@[simp] theorem State.reg_zero (s : State) : s.reg 0#4 = 0#16 := rfl

@[simp] theorem State.setReg_zero (s : State) (v : Word) : s.setReg 0#4 v = s := rfl

/-- Reading a register after writing one. -/
theorem State.reg_setReg (s : State) (r q : RegNum) (v : Word) :
    (s.setReg r v).reg q = if q = r ∧ r ≠ 0#4 then v else s.reg q := Context.reg_setReg ..

@[simp] theorem State.reg_setReg_same (s : State) (r : RegNum) (v : Word) (h : r ≠ 0#4) :
    (s.setReg r v).reg r = v := Context.reg_setReg_same _ _ _ h

@[simp] theorem State.reg_setReg_other (s : State) (r q : RegNum) (v : Word) (h : q ≠ r) :
    (s.setReg r v).reg q = s.reg q := Context.reg_setReg_other _ _ _ _ h

@[simp] theorem State.flags_setReg (s : State) (r : RegNum) (v : Word) : (s.setReg r v).flags = s.flags :=
  Context.flags_setReg ..
@[simp] theorem State.mem_setReg (s : State) (r : RegNum) (v : Word) : (s.setReg r v).mem = s.mem := rfl
@[simp] theorem State.progress_setReg (s : State) (r : RegNum) (v : Word) : (s.setReg r v).progress = s.progress := rfl
@[simp] theorem State.suspended_setReg (s : State) (r : RegNum) (v : Word) : (s.setReg r v).suspended = s.suspended := rfl
@[simp] theorem State.ports_setReg (s : State) (r : RegNum) (v : Word) : (s.setReg r v).ports = s.ports := rfl
@[simp] theorem State.status_setReg (s : State) (r : RegNum) (v : Word) : (s.setReg r v).status = s.status := rfl
@[simp] theorem State.ctx_setReg (s : State) (r : RegNum) (v : Word) : (s.setReg r v).ctx = s.ctx.setReg r v := rfl
@[simp] theorem State.physRead_setReg (s : State) (r : RegNum) (v : Word) (q : Word) :
    (s.setReg r v).physRead q = s.physRead q := rfl

@[simp] theorem State.flags_setFlags (s : State) (f : Flags) : (s.setFlags f).flags = f := rfl
@[simp] theorem State.mem_setFlags (s : State) (f : Flags) : (s.setFlags f).mem = s.mem := rfl
@[simp] theorem State.progress_setFlags (s : State) (f : Flags) : (s.setFlags f).progress = s.progress := rfl
@[simp] theorem State.suspended_setFlags (s : State) (f : Flags) : (s.setFlags f).suspended = s.suspended := rfl
@[simp] theorem State.ports_setFlags (s : State) (f : Flags) : (s.setFlags f).ports = s.ports := rfl
@[simp] theorem State.status_setFlags (s : State) (f : Flags) : (s.setFlags f).status = s.status := rfl
@[simp] theorem State.reg_setFlags (s : State) (f : Flags) (q : RegNum) : (s.setFlags f).reg q = s.reg q := rfl
@[simp] theorem State.physRead_setFlags (s : State) (f : Flags) (q : Word) :
    (s.setFlags f).physRead q = s.physRead q := rfl

@[simp] theorem State.flags_setProgress (s : State) (p : Option Progress) : (s.setProgress p).flags = s.flags := rfl
@[simp] theorem State.mem_setProgress (s : State) (p : Option Progress) : (s.setProgress p).mem = s.mem := rfl
@[simp] theorem State.progress_setProgress (s : State) (p : Option Progress) : (s.setProgress p).progress = p := rfl
@[simp] theorem State.suspended_setProgress (s : State) (p : Option Progress) : (s.setProgress p).suspended = s.suspended := rfl
@[simp] theorem State.ports_setProgress (s : State) (p : Option Progress) : (s.setProgress p).ports = s.ports := rfl
@[simp] theorem State.status_setProgress (s : State) (p : Option Progress) : (s.setProgress p).status = s.status := rfl
@[simp] theorem State.ctx_setProgress (s : State) (p : Option Progress) : (s.setProgress p).ctx = s.ctx := rfl
@[simp] theorem State.reg_setProgress (s : State) (p : Option Progress) (q : RegNum) : (s.setProgress p).reg q = s.reg q := rfl
@[simp] theorem State.physRead_setProgress (s : State) (p : Option Progress) (q : Word) :
    (s.setProgress p).physRead q = s.physRead q := rfl

@[simp] theorem State.flags_retire (s : State) : (s.retire).flags = s.flags := rfl
@[simp] theorem State.mem_retire (s : State) : (s.retire).mem = s.mem := rfl
@[simp] theorem State.progress_retire (s : State) : (s.retire).progress = none := rfl
@[simp] theorem State.suspended_retire (s : State) : (s.retire).suspended = s.suspended := rfl
@[simp] theorem State.ports_retire (s : State) : (s.retire).ports = s.ports := rfl
@[simp] theorem State.status_retire (s : State) : (s.retire).status = s.status := rfl
@[simp] theorem State.ctx_retire (s : State) : (s.retire).ctx = s.ctx := rfl
@[simp] theorem State.reg_retire (s : State) (q : RegNum) : (s.retire).reg q = s.reg q := rfl
@[simp] theorem State.physRead_retire (s : State) (q : Word) :
    (s.retire).physRead q = s.physRead q := rfl

@[simp] theorem State.flags_halt (s : State) (h : HaltReason) : (s.halt h).flags = s.flags := rfl
@[simp] theorem State.mem_halt (s : State) (h : HaltReason) : (s.halt h).mem = s.mem := rfl
@[simp] theorem State.progress_halt (s : State) (h : HaltReason) : (s.halt h).progress = none := rfl
@[simp] theorem State.suspended_halt (s : State) (h : HaltReason) : (s.halt h).suspended = s.suspended := rfl
@[simp] theorem State.ports_halt (s : State) (h : HaltReason) : (s.halt h).ports = s.ports := rfl
@[simp] theorem State.status_halt (s : State) (h : HaltReason) : (s.halt h).status = .halted h := rfl
@[simp] theorem State.ctx_halt (s : State) (h : HaltReason) : (s.halt h).ctx = s.ctx := rfl
@[simp] theorem State.reg_halt (s : State) (h : HaltReason) (q : RegNum) : (s.halt h).reg q = s.reg q := rfl
@[simp] theorem State.physRead_halt (s : State) (h : HaltReason) (q : Word) :
    (s.halt h).physRead q = s.physRead q := rfl

@[simp] theorem State.flags_record (s : State) (e : PortEvent) : (s.record e).flags = s.flags := rfl
@[simp] theorem State.mem_record (s : State) (e : PortEvent) : (s.record e).mem = s.mem := rfl
@[simp] theorem State.progress_record (s : State) (e : PortEvent) : (s.record e).progress = s.progress := rfl
@[simp] theorem State.suspended_record (s : State) (e : PortEvent) : (s.record e).suspended = s.suspended := rfl
@[simp] theorem State.ports_record (s : State) (e : PortEvent) : (s.record e).ports = s.ports ++ [e] := rfl
@[simp] theorem State.status_record (s : State) (e : PortEvent) : (s.record e).status = s.status := rfl
@[simp] theorem State.ctx_record (s : State) (e : PortEvent) : (s.record e).ctx = s.ctx := rfl
@[simp] theorem State.reg_record (s : State) (e : PortEvent) (q : RegNum) : (s.record e).reg q = s.reg q := rfl
@[simp] theorem State.physRead_record (s : State) (e : PortEvent) (q : Word) :
    (s.record e).physRead q = s.physRead q := rfl

@[simp] theorem State.flags_physWrite (s : State) (pa : Word) (b : Byte) : (s.physWrite pa b).flags = s.flags := rfl
@[simp] theorem State.mem_physWrite (s : State) (pa : Word) (b : Byte) : (s.physWrite pa b).mem = memWrite s.mem pa.toNat b := rfl
@[simp] theorem State.progress_physWrite (s : State) (pa : Word) (b : Byte) : (s.physWrite pa b).progress = s.progress := rfl
@[simp] theorem State.suspended_physWrite (s : State) (pa : Word) (b : Byte) : (s.physWrite pa b).suspended = s.suspended := rfl
@[simp] theorem State.ports_physWrite (s : State) (pa : Word) (b : Byte) : (s.physWrite pa b).ports = s.ports := rfl
@[simp] theorem State.status_physWrite (s : State) (pa : Word) (b : Byte) : (s.physWrite pa b).status = s.status := rfl
@[simp] theorem State.ctx_physWrite (s : State) (pa : Word) (b : Byte) : (s.physWrite pa b).ctx = s.ctx := rfl
@[simp] theorem State.reg_physWrite (s : State) (pa : Word) (b : Byte) (q : RegNum) : (s.physWrite pa b).reg q = s.reg q := rfl

/-! ### Flags written if `wf` -/

theorem State.writeFlags_true (s : State) (f : Flags) : s.writeFlags true f = s.setFlags f := rfl
theorem State.writeFlags_false (s : State) (f : Flags) : s.writeFlags false f = s := rfl
@[simp] theorem State.mem_writeFlags (s : State) (w : Bool) (f : Flags) :
    (s.writeFlags w f).mem = s.mem := by cases w <;> rfl
@[simp] theorem State.progress_writeFlags (s : State) (w : Bool) (f : Flags) :
    (s.writeFlags w f).progress = s.progress := by cases w <;> rfl
@[simp] theorem State.suspended_writeFlags (s : State) (w : Bool) (f : Flags) :
    (s.writeFlags w f).suspended = s.suspended := by cases w <;> rfl
@[simp] theorem State.ports_writeFlags (s : State) (w : Bool) (f : Flags) :
    (s.writeFlags w f).ports = s.ports := by cases w <;> rfl
@[simp] theorem State.status_writeFlags (s : State) (w : Bool) (f : Flags) :
    (s.writeFlags w f).status = s.status := by cases w <;> rfl
@[simp] theorem State.reg_writeFlags (s : State) (w : Bool) (f : Flags) (q : RegNum) :
    (s.writeFlags w f).reg q = s.reg q := by cases w <;> rfl
@[simp] theorem State.physRead_writeFlags (s : State) (w : Bool) (f : Flags) (q : Word) :
    (s.writeFlags w f).physRead q = s.physRead q := by cases w <;> rfl
@[simp] theorem State.flags_writeFlags (s : State) (w : Bool) (f : Flags) :
    (s.writeFlags w f).flags = if w then f else s.flags := by cases w <;> rfl

/-! ### The instruction in progress -/

@[simp] theorem State.current_of_some (s : State) (p : Progress) (h : s.progress = some p) :
    s.current = p := by simp [State.current, h]

@[simp] theorem State.current_setProgress (s : State) (p : Progress) :
    (s.setProgress (some p)).current = p := rfl

@[simp] theorem State.current_beginInstr (s : State) : s.beginInstr.current = s.current := rfl

@[simp] theorem State.progress_beginInstr (s : State) :
    s.beginInstr.progress = some s.current := rfl

@[simp] theorem State.reg_beginInstr (s : State) (r : RegNum) : s.beginInstr.reg r = s.reg r := rfl

/-! ### The machine after reset -/

theorem State.reset_reg (r : RegNum) : State.reset.reg r = 0#16 := by revert r; decide

end Sys2Proof.Machine
end

