-- ==== Sys2Proof/Laws/Memory.lean ====
section
/-! SUPPORT. Physical memory: reads after writes, and the canonical form that every memory operation
keeps. -/

namespace Sys2Proof.Machine

@[simp] theorem memRead_nil (a : Nat) : memRead [] a = Config.unlistedByte := rfl

/-- A write leaves every other address alone. -/
theorem memRead_memWrite_ne (m : List Host.Cell) (a b : Nat) (v : Byte) (h : b ≠ a) :
    memRead (memWrite m a v) b = memRead m b := by
  induction m with
  | nil => unfold memWrite; split <;> simp [memRead, Ne.symm h]
  | cons c rest ih =>
    obtain ⟨k, d⟩ := c
    unfold memWrite
    split_ifs with h1 h2 h3 h4
    · rfl
    · simp [memRead, Ne.symm h]
    · simp [memRead, h3 ▸ Ne.symm h]
    · simp [memRead, h3 ▸ Ne.symm h, Ne.symm h]
    · simp only [memRead, ih]

/-- An address below every listed one reads as unlisted. -/
theorem memRead_of_lt (m : List Host.Cell) (a : Nat) (h : ∀ c ∈ m, a < c.1) :
    memRead m a = Config.unlistedByte := by
  induction m with
  | nil => rfl
  | cons c rest ih =>
    have hc := h c (by simp)
    have : c.1 ≠ a := by omega
    simp only [memRead, this, if_false]
    exact ih fun d hd => h d (by simp [hd])

/-- A read after a write to the same address gives the byte written. -/
theorem memRead_memWrite_same (m : List Host.Cell) (a : Nat) (v : Byte) (hm : Memory.wf m) :
    memRead (memWrite m a v) a = v := by
  induction m with
  | nil => unfold memWrite; split <;> simp_all [memRead]
  | cons c rest ih =>
    obtain ⟨k, d⟩ := c
    obtain ⟨hp, hb⟩ := hm
    rw [List.pairwise_cons] at hp
    have hrest : Memory.wf rest := ⟨hp.2, fun e he => hb e (by simp [he])⟩
    have hlow : a ≤ k → ∀ e ∈ rest, a < e.1 := fun hak e he => by
      have := hp.1 e he; simp at this; omega
    unfold memWrite
    split_ifs with h1 h2 h3 h4
    · have : k ≠ a := by omega
      simp [memRead, this, h2, memRead_of_lt rest a (hlow (by omega))]
    · simp [memRead]
    · rw [h4, memRead_of_lt rest a (hlow (by omega))]
    · simp [memRead]
    · have : k ≠ a := fun h => h3 h.symm
      simp only [memRead, this, if_false]
      exact ih hrest

/-- What a read after a write gives. -/
theorem memRead_memWrite (m : List Host.Cell) (a b : Nat) (v : Byte) (hm : Memory.wf m) :
    memRead (memWrite m a v) b = if b = a then v else memRead m b := by
  split_ifs with h
  · rw [h, memRead_memWrite_same m a v hm]
  · exact memRead_memWrite_ne m a b v h

theorem mem_memWrite (m : List Host.Cell) (a : Nat) (v : Byte) (c : Host.Cell)
    (h : c ∈ memWrite m a v) : c ∈ m ∨ (c = (a, v) ∧ v ≠ Config.unlistedByte) := by
  induction m with
  | nil => unfold memWrite at h; split at h <;> simp_all
  | cons d rest ih =>
    unfold memWrite at h
    split_ifs at h <;> simp_all <;> tauto

/-- A write inside the address space keeps the canonical form. -/
theorem memWrite_wf (m : List Host.Cell) (a : Nat) (v : Byte) (ha : a < 65536) (hm : Memory.wf m) :
    Memory.wf (memWrite m a v) := by
  refine ⟨?_, fun c hc => ?_⟩
  · induction m with
    | nil => unfold memWrite; split <;> simp
    | cons d rest ih =>
      obtain ⟨k, e⟩ := d
      obtain ⟨hp, hb⟩ := hm
      have hp' := List.pairwise_cons.1 hp
      have hrest : Memory.wf rest := ⟨hp'.2, fun x hx => hb x (by simp [hx])⟩
      have hlow : a ≤ k → ∀ x ∈ rest, a < x.1 := fun hak x hx => by
        have := hp'.1 x hx; simp at this; omega
      unfold memWrite
      split_ifs with h1 h2 h3 h4
      · exact hp
      · refine List.pairwise_cons.2 ⟨fun x hx => ?_, hp⟩
        rcases List.mem_cons.1 hx with rfl | hx
        · exact h1
        · exact hlow (by omega) x hx
      · exact hp'.2
      · exact List.pairwise_cons.2 ⟨hlow (by omega), hp'.2⟩
      · refine List.pairwise_cons.2 ⟨fun x hx => ?_, ih hrest⟩
        rcases mem_memWrite rest a v x hx with hx | ⟨rfl, -⟩
        · exact hp'.1 x hx
        · simp; omega
  · rcases mem_memWrite m a v c hc with hc | ⟨rfl, hv⟩
    · exact hm.2 c hc
    · exact ⟨ha, hv⟩

theorem memWriteWord_wf (m : List Host.Cell) (pa w : Word) (hm : Memory.wf m) :
    Memory.wf (memWriteWord m pa w) :=
  memWrite_wf _ _ _ (by omega) (memWrite_wf _ _ _ (by omega) hm)

theorem saveRegs_wf (area : ExcArea) (c : Context) (startPc : Word) (m : List Host.Cell)
    (hm : Memory.wf m) : Memory.wf (saveRegs area c startPc m) := by
  unfold saveRegs
  generalize allRegs = rs
  induction rs generalizing m with
  | nil => exact hm
  | cons r rest ih => exact ih _ (memWriteWord_wf _ _ _ hm)

/-- The memory after reset is in its canonical form. -/
theorem reset_memory_wf : Memory.wf State.reset.mem := by decide

/-- The two bytes of a word are those it was made of (R51). -/
@[simp] theorem wordOfBytes_bytes (w : Word) : wordOfBytes (firstByte w) (secondByte w) = w := by
  show w.extractLsb' 8 8 ++ w.extractLsb' 0 8 = w
  ext i hi
  simp only [BitVec.getElem_append, BitVec.getElem_extractLsb']
  split
  · simp [BitVec.getLsbD_eq_getElem hi]
  · rw [show 8 + (i - 8) = i by omega, BitVec.getLsbD_eq_getElem hi]

/-- The value of a word of two bytes (R51): the byte at the lower address is bits 7:0. -/
theorem toNat_wordOfBytes (a b : Byte) : (wordOfBytes a b).toNat = a.toNat + 256 * b.toNat := by
  show (b ++ a).toNat = _
  have ha := a.isLt
  rw [BitVec.toNat_append, Nat.shiftLeft_eq, ← Nat.mul_comm (2 ^ 8) b.toNat,
    ← Nat.two_pow_add_eq_or_of_lt ha]
  omega

@[simp] theorem firstByte_wordOfBytes (a b : Byte) : firstByte (wordOfBytes a b) = a := by
  apply BitVec.eq_of_toNat_eq
  have ha := a.isLt
  show ((wordOfBytes a b).extractLsb' 0 8).toNat = _
  rw [BitVec.extractLsb'_toNat, toNat_wordOfBytes]
  simp only [Nat.shiftRight_zero]; omega

@[simp] theorem secondByte_wordOfBytes (a b : Byte) : secondByte (wordOfBytes a b) = b := by
  apply BitVec.eq_of_toNat_eq
  have ha := a.isLt
  have hb := b.isLt
  show ((wordOfBytes a b).extractLsb' 8 8).toNat = _
  rw [BitVec.extractLsb'_toNat, toNat_wordOfBytes, Nat.shiftRight_eq_div_pow]
  omega

/-- A byte read of the state after a raw write. -/
theorem State.physRead_physWrite (s : State) (pa q : Word) (b : Byte) (hm : Memory.wf s.mem) :
    (s.physWrite pa b).physRead q = if q = pa then b else s.physRead q := by
  show memRead (memWrite s.mem pa.toNat b) q.toNat = _
  rw [memRead_memWrite _ _ _ _ hm]
  simp only [← BitVec.toNat_inj]
  rfl

theorem State.physRead_physWrite_ne (s : State) (pa q : Word) (b : Byte) (h : q ≠ pa) :
    (s.physWrite pa b).physRead q = s.physRead q :=
  memRead_memWrite_ne _ _ _ _ fun e => h (BitVec.eq_of_toNat_eq e)

end Sys2Proof.Machine
end

