-- ==== Sys2Proof/Laws/Ops.lean ====
section
/-! SUPPORT. What the shared operations of the machine can do, said once for each: translation and the
physical check, byte accesses and the run over them, the commit, taking a page fault and returning from its
handler. -/

namespace Sys2Proof.Machine

/-! ### Translation and the physical check look at memory, MF and EM only -/

@[simp] theorem State.physAllowed_setReg (s : State) (r : RegNum) (v pa : Word) :
    (s.setReg r v).physAllowed pa = s.physAllowed pa := rfl
@[simp] theorem State.pageNumber_setReg (s : State) (r : RegNum) (v va : Word) (k : Kind) :
    (s.setReg r v).pageNumber va k = s.pageNumber va k := rfl
@[simp] theorem State.handlerPage_setReg (s : State) (r : RegNum) (v va : Word) :
    (s.setReg r v).handlerPage va = s.handlerPage va := rfl
@[simp] theorem State.checked_setReg (s : State) (r : RegNum) (v pa : Word) :
    (s.setReg r v).checked pa = s.checked pa := rfl

/-- An execute access is translated exactly when `MF = 0`: `EM` has no part in it (R56). -/
@[simp] theorem State.mmuOn_execute (s : State) : s.mmuOn .execute = !s.flags.mf := by
  simp [State.mmuOn]

/-- Every access of the thread context is translated (R56). -/
theorem State.mmuOn_thread (s : State) (k : Kind) (h : s.flags.mf = false) : s.mmuOn k = true := by
  simp [State.mmuOn, h]

@[simp] theorem State.locate_setReg_execute (s : State) (r : RegNum) (v a : Word) :
    (s.setReg r v).locate a .execute = s.locate a .execute := by
  simp only [State.locate, State.mmuOn_execute, State.flags_setReg]; rfl

@[simp] theorem State.locate_setProgress_execute (s : State) (p : Option Progress) (a : Word) :
    (s.setProgress p).locate a .execute = s.locate a .execute := by
  simp only [State.locate, State.mmuOn_execute, State.flags_setProgress]; rfl

/-- An access of the thread context (R57, R62). -/
theorem State.locate_thread (s : State) (a : Word) (k : Kind) (h : s.flags.mf = false) :
    s.locate a k =
      if s.pageNumber a k = 0#8 then .pageFault else s.checked (inPage (s.pageNumber a k) a) := by
  simp [State.locate, s.mmuOn_thread k h]

/-- An access that is not translated never page-faults (R57). -/
theorem State.locate_physical (s : State) (a : Word) (k : Kind) (h : s.mmuOn k = false) :
    s.locate a k = s.checked a := by simp [State.locate, h]

theorem State.checked_ne_pageFault (s : State) (pa : Word) : s.checked pa ≠ .pageFault := by
  unfold State.checked; split <;> simp

/-- An access that may be made is made at an allowed physical address (R67). -/
theorem State.allowed_of_locate (s : State) (a pa : Word) (k : Kind) (h : s.locate a k = .frame pa) :
    s.physAllowed pa = true := by
  have hc : ∀ q, s.checked q = .frame pa → s.physAllowed pa = true := fun q hq => by
    unfold State.checked at hq; split at hq
    · cases hq; assumption
    · cases hq
  unfold State.locate at h
  split at h
  · split at h
    · cases h
    · exact hc _ h
  · exact hc _ h

/-! ### One byte access -/

@[simp] theorem State.access_write (s : State) (a pa : Word) (b : Byte) (got : List Byte) :
    s.access ⟨.write, a, b⟩ pa got = (s.physWrite pa b, got) := rfl
@[simp] theorem State.access_read (s : State) (a pa : Word) (b : Byte) (got : List Byte) :
    s.access ⟨.read, a, b⟩ pa got = (s, got ++ [s.physRead pa]) := rfl

/-- A byte access changes memory only, and only when it is a write. -/
theorem State.access_cases (s : State) (x : ByteAccess) (pa : Word) (got : List Byte) :
    (x.kind = .write ∧ s.access x pa got = (s.physWrite pa x.byte, got)) ∨
      (x.kind ≠ .write ∧ s.access x pa got = (s, got ++ [s.physRead pa])) := by
  obtain ⟨k, a, b⟩ := x
  cases k <;> simp [State.access]

/-! ### The commit -/

@[simp] theorem State.mem_setRegs (s : State) (l : List (RegNum × Word)) : (s.setRegs l).mem = s.mem := by
  induction l generalizing s with
  | nil => rfl
  | cons x rest ih => obtain ⟨r, v⟩ := x; exact ih _
@[simp] theorem State.flags_setRegs (s : State) (l : List (RegNum × Word)) :
    (s.setRegs l).flags = s.flags := by
  induction l generalizing s with
  | nil => rfl
  | cons x rest ih => obtain ⟨r, v⟩ := x; simp [State.setRegs, ih]
@[simp] theorem State.suspended_setRegs (s : State) (l : List (RegNum × Word)) :
    (s.setRegs l).suspended = s.suspended := by
  induction l generalizing s with
  | nil => rfl
  | cons x rest ih => obtain ⟨r, v⟩ := x; exact ih _
@[simp] theorem State.ports_setRegs (s : State) (l : List (RegNum × Word)) :
    (s.setRegs l).ports = s.ports := by
  induction l generalizing s with
  | nil => rfl
  | cons x rest ih => obtain ⟨r, v⟩ := x; exact ih _
@[simp] theorem State.status_setRegs (s : State) (l : List (RegNum × Word)) :
    (s.setRegs l).status = s.status := by
  induction l generalizing s with
  | nil => rfl
  | cons x rest ih => obtain ⟨r, v⟩ := x; exact ih _

/-- A register that no write names keeps its value. -/
theorem State.reg_setRegs_of_not_mem (s : State) (l : List (RegNum × Word)) (q : RegNum)
    (h : ∀ x ∈ l, x.1 ≠ q) : (s.setRegs l).reg q = s.reg q := by
  induction l generalizing s with
  | nil => rfl
  | cons x rest ih =>
    obtain ⟨r, v⟩ := x
    have hr : r ≠ q := h (r, v) (by simp)
    rw [State.setRegs, ih _ fun y hy => h y (by simp [hy]), State.reg_setReg_other _ _ _ _ (Ne.symm hr)]

@[simp] theorem State.mem_commit (s : State) (op : DataOp) (got : List Byte) :
    (s.commit op got).mem = s.mem := by cases op <;> simp [State.commit]
@[simp] theorem State.suspended_commit (s : State) (op : DataOp) (got : List Byte) :
    (s.commit op got).suspended = s.suspended := by cases op <;> simp [State.commit]
@[simp] theorem State.ports_commit (s : State) (op : DataOp) (got : List Byte) :
    (s.commit op got).ports = s.ports := by cases op <;> simp [State.commit]
@[simp] theorem State.status_commit (s : State) (op : DataOp) (got : List Byte) :
    (s.commit op got).status = s.status := by cases op <;> simp [State.commit]

/-- No commit writes MF (R29). -/
@[simp] theorem State.mf_commit (s : State) (op : DataOp) (got : List Byte) :
    (s.commit op got).flags.mf = s.flags.mf := by
  cases op <;> simp only [State.commit, State.flags_writeFlags, State.flags_setReg, State.flags_setRegs]
  all_goals split <;> rfl

/-! ### The run over the accesses -/

theorem State.runData_nil (op : DataOp) (got : List Byte) (s : State) :
    s.runData op [] got = (s.commit op got).retire := rfl

theorem State.runData_frame (op : DataOp) (x : ByteAccess) (todo : List ByteAccess) (got : List Byte)
    (s : State) (pa : Word) (h : s.locate x.addr x.kind = .frame pa) :
    s.runData op (x :: todo) got = (s.access x pa got).1.runData op todo (s.access x pa got).2 := by
  simp [State.runData, h]

theorem State.runData_denied (op : DataOp) (x : ByteAccess) (todo : List ByteAccess) (got : List Byte)
    (s : State) (h : s.locate x.addr x.kind = .denied) :
    s.runData op (x :: todo) got = s.halt .doubleFault := by
  simp [State.runData, h]

theorem State.runData_pageFault (op : DataOp) (x : ByteAccess) (todo : List ByteAccess)
    (got : List Byte) (s : State) (h : s.locate x.addr x.kind = .pageFault) :
    s.runData op (x :: todo) got = s.pageFault x.addr x.kind (.data op got x todo) := by
  simp [State.runData, h]

/-- Everything a run over data accesses can do (R106 steps 3 and 4): what the byte writes keep (`P`) holds
where it ends, and it ends in the commit, in a halt at a denied page, or in a page fault at one of its
accesses. -/
theorem State.runData_ends {P Q : State → Prop} (op : DataOp) (xs : List ByteAccess) (got : List Byte)
    (s : State) (hs : P s)
    (hwrite : ∀ u, ∀ x ∈ xs, ∀ pa, x.kind = .write → P u → P (u.physWrite pa x.byte))
    (hdone : ∀ u got, P u → Q (u.commit op got).retire)
    (hdenied : ∀ u, P u → Q (u.halt .doubleFault))
    (hfault : ∀ u got x todo, x ∈ xs → (∀ y ∈ todo, y ∈ xs) → P u → u.locate x.addr x.kind = .pageFault →
      Q (u.pageFault x.addr x.kind (.data op got x todo))) :
    Q (s.runData op xs got) := by
  induction xs generalizing s got with
  | nil => exact hdone _ _ hs
  | cons x todo ih =>
    cases h : s.locate x.addr x.kind with
    | frame pa =>
      rw [s.runData_frame _ _ _ _ _ h]
      refine ih _ _ ?_ (fun u y hy => hwrite u y (by simp [hy]))
        (fun u g y t hy ht => hfault u g y t (by simp [hy]) fun z hz => by simp [ht z hz])
      obtain ⟨hk, he⟩ | ⟨-, he⟩ := s.access_cases x pa got
      · rw [he]; exact hwrite s x (by simp) pa hk hs
      · rw [he]; exact hs
    | denied => rw [s.runData_denied _ _ _ _ h]; exact hdenied _ hs
    | pageFault =>
      rw [s.runData_pageFault _ _ _ _ h]
      exact hfault _ _ _ _ (by simp) (fun y hy => by simp [hy]) hs h

/-! ### Taking a page fault -/

/-- Everything a page fault can do (R255, R256): halt for want of a handler, halt in the exception context,
or enter the handler from the thread context. -/
theorem State.pageFault_cases (s : State) (va : Word) (k : Kind) (work : Work) :
    (s.handlerPage va = 0#8 ∧ s.pageFault va k work = s.halt .unmapped) ∨
    (s.handlerPage va ≠ 0#8 ∧ s.flags.mf = true ∧ s.pageFault va k work = s.halt .doubleFault) ∨
    (s.handlerPage va ≠ 0#8 ∧ s.flags.mf = false ∧
      s.pageFault va k work = s.enterHandler Config.excArea va k (s.handlerPage va) work) := by
  unfold State.pageFault
  by_cases h : s.handlerPage va = 0#8
  · simp [h]
  · by_cases hm : s.flags.mf = true <;> simp [h, hm]

/-- The flags have no part in a register. -/
theorem Context.reg_withFlags (c : Context) (f : Flags) (r : RegNum) :
    ({ c with flags := f } : Context).reg r = c.reg r := rfl

@[simp] theorem Context.zero_reg (r : RegNum) : Context.zero.reg r = 0#16 := by
  simp [Context.reg, Context.zero]

/-- The registers of a handler at its entry (R257 step 3). -/
theorem handlerContext_reg (area : ExcArea) (va : Word) (k : Kind) (nextPc : Word) (h : Byte)
    (r : RegNum) :
    (handlerContext area va k nextPc h).reg r =
      if r = regPC then inPage h 0#16 else if r = regRA then area.returnAddr
      else if r = regSP then area.stackTop else if r = 5#4 then nextPc
      else if r = 4#4 then area.savedRegs else if r = 3#4 then k.number
      else if r = 2#4 then va else if r = 1#4 then tteAddr va else 0#16 := by
  unfold handlerContext
  rw [Context.reg_withFlags]
  simp only [Context.reg_setReg, Context.zero_reg, ne_eq, show regPC ≠ 0#4 by decide,
    show regRA ≠ 0#4 by decide, show regSP ≠ 0#4 by decide, show (5#4 : RegNum) ≠ 0#4 by decide,
    show (4#4 : RegNum) ≠ 0#4 by decide, show (3#4 : RegNum) ≠ 0#4 by decide,
    show (2#4 : RegNum) ≠ 0#4 by decide, show (1#4 : RegNum) ≠ 0#4 by decide, not_false_eq_true, and_true]

/-- The flags of a handler at its entry (R257 step 3). -/
@[simp] theorem handlerContext_flags (area : ExcArea) (va : Word) (k : Kind) (nextPc : Word) (h : Byte) :
    (handlerContext area va k nextPc h).flags =
      { zf := false, sf := false, pf := false, cf := false, vf := false, mf := true } := by
  simp [handlerContext, Context.zero]

section EnterHandler

variable (s : State) (area : ExcArea) (va : Word) (k : Kind) (h : Byte) (work : Work)

@[simp] theorem State.ctx_enterHandler :
    (s.enterHandler area va k h work).ctx = handlerContext area va k s.pc h := rfl
@[simp] theorem State.mem_enterHandler :
    (s.enterHandler area va k h work).mem = saveRegs area s.ctx s.current.startPc s.mem := by
  simp only [State.enterHandler]
@[simp] theorem State.progress_enterHandler : (s.enterHandler area va k h work).progress = none := rfl
@[simp] theorem State.suspended_enterHandler :
    (s.enterHandler area va k h work).suspended =
      some { thread := s.ctx, progress := s.current, work := work } := rfl
@[simp] theorem State.ports_enterHandler : (s.enterHandler area va k h work).ports = s.ports := rfl
@[simp] theorem State.status_enterHandler : (s.enterHandler area va k h work).status = s.status := rfl
@[simp] theorem State.mf_enterHandler : (s.enterHandler area va k h work).flags.mf = true := by
  simp [State.flags]

end EnterHandler

/-! ### Returning from a fault handler -/

/-- Register writes from a list: the registers it does not name keep their values, those it names get
theirs. -/
theorem Context.reg_foldl_setReg (c : Context) (l : List RegNum) (f : RegNum → Word) (q : RegNum)
    (hq : q ≠ 0#4) :
    (l.foldl (fun c r => c.setReg r (f r)) c).reg q = if q ∈ l then f q else c.reg q := by
  induction l generalizing c with
  | nil => simp
  | cons r rest ih =>
    rw [List.foldl_cons, ih]
    by_cases hm : q ∈ rest
    · simp [hm]
    · by_cases hr : q = r
      · subst hr; simp [hm, hq]
      · simp [hm, hr]

@[simp] theorem Context.flags_foldl_setReg (c : Context) (l : List RegNum) (f : RegNum → Word) :
    (l.foldl (fun c r => c.setReg r (f r)) c).flags = c.flags := by
  induction l generalizing c with
  | nil => rfl
  | cons r rest ih => rw [List.foldl_cons, ih, Context.flags_setReg]

/-- The thread's registers after the write-back (R260 step 4). -/
theorem restoredContext_reg (area : ExcArea) (m : List Host.Cell) (c : Context) (q : RegNum) :
    (restoredContext area m c).reg q =
      if q = 0#4 then 0#16 else if q = regPC then c.reg q else memReadWord m (savedRegAddr area q) := by
  by_cases h0 : q = 0#4
  · simp [h0]
  · have hm : q ∈ allRegs.filter (· != regPC) ↔ q ≠ regPC := by revert q; decide
    rw [restoredContext, Context.reg_foldl_setReg _ _ (fun r => memReadWord m (savedRegAddr area r)) _ h0]
    by_cases hp : q = regPC
    · rw [if_neg (by simp [hp]), if_neg h0, if_pos hp]
    · rw [if_pos (hm.2 hp), if_neg h0, if_neg hp]

section LeaveHandler

variable (s : State) (area : ExcArea) (t : Suspended)

/-- The thread's registers after the return (R260 steps 4 and 5). -/
theorem State.reg_leaveHandler (q : RegNum) :
    (s.leaveHandler area t).reg q =
      if q = 0#4 then 0#16
      else if q = regPC ∧ memReadWord s.mem (savedRegAddr area regPC) = t.progress.startPc then
        t.thread.reg regPC
      else memReadWord s.mem (savedRegAddr area q) := by
  unfold State.leaveHandler State.reg
  by_cases h0 : q = 0#4
  · simp [h0]
  · show Context.reg (if _ then _ else _ : Context) q = _
    split
    · rename_i he
      rw [restoredContext_reg]
      by_cases hp : q = regPC
      · rw [if_pos hp, if_neg h0, if_pos ⟨hp, he⟩, hp]
      · simp only [h0, hp, false_and, if_false]
    · rename_i he
      by_cases hp : q = regPC
      · rw [hp, Context.reg_setReg_same _ _ _ (by decide)]
        simp only [he, and_false, if_false]
      · rw [Context.reg_setReg_other _ _ _ _ hp, restoredContext_reg]
        simp only [h0, hp, false_and, if_false]

@[simp] theorem State.flags_leaveHandler :
    (s.leaveHandler area t).flags = { t.thread.flags with mf := false } := rfl
@[simp] theorem State.mem_leaveHandler : (s.leaveHandler area t).mem = s.mem := rfl
@[simp] theorem State.progress_leaveHandler : (s.leaveHandler area t).progress = some t.progress := rfl
@[simp] theorem State.suspended_leaveHandler : (s.leaveHandler area t).suspended = none := rfl
@[simp] theorem State.ports_leaveHandler : (s.leaveHandler area t).ports = s.ports := rfl
@[simp] theorem State.status_leaveHandler : (s.leaveHandler area t).status = s.status := rfl
@[simp] theorem State.current_leaveHandler : (s.leaveHandler area t).current = t.progress := rfl

end LeaveHandler

end Sys2Proof.Machine
end

