-- ==== Sys2Proof/Laws/Operands.lean ====
section
/-! SUPPORT. What the operand forms read and what the commits of the register instructions do, one lemma a
part of the state. -/

namespace Sys2Proof.Machine

theorem State.when_true (s : State) (cc : CondField) (body : State → State) (h : s.holds cc = true) :
    s.when cc body = body s := by simp [State.when, h]

theorem State.when_false (s : State) (cc : CondField) (body : State → State) (h : s.holds cc = false) :
    s.when cc body = s.retire := by simp [State.when, h]

/-- Everything an instruction with a condition can do (R105): its operation, or nothing. -/
theorem State.when_cases {Q : State → Prop} (s : State) (cc : CondField) (body : State → State)
    (hbody : s.holds cc = true → Q (body s)) (hskip : s.holds cc = false → Q s.retire) :
    Q (s.when cc body) := by
  cases h : s.holds cc with
  | true => rw [s.when_true _ _ h]; exact hbody h
  | false => rw [s.when_false _ _ h]; exact hskip h

@[simp] theorem State.vy_reg (s : State) (ry : RegNum) : s.vy (.reg ry) = s.reg ry := rfl
@[simp] theorem State.vy_imm (s : State) (w : Word) : s.vy (.imm w) = w := rfl
@[simp] theorem State.v8_imm (s : State) (b : Byte) : s.v8 (.imm b) = b := rfl

/-- The two registers of a pair are different registers (R145). -/
theorem pairOf_ne (rd : RegNum) : pairOf rd ≠ rd := by revert rd; decide

section CommitResult

variable (s : State) (cc : CondField) (rd : RegNum) (v : Word) (f : Flags)

@[simp] theorem State.reg_commitResult (q : RegNum) :
    (s.commitResult cc rd v f).reg q = if q = rd ∧ rd ≠ 0#4 then v else s.reg q := by
  simp [State.commitResult, State.reg_setReg]
@[simp] theorem State.flags_commitResult :
    (s.commitResult cc rd v f).flags = if s.wf cc then f else s.flags := by
  simp [State.commitResult]
@[simp] theorem State.mem_commitResult : (s.commitResult cc rd v f).mem = s.mem := by
  simp [State.commitResult]
@[simp] theorem State.progress_commitResult : (s.commitResult cc rd v f).progress = none := rfl
@[simp] theorem State.suspended_commitResult : (s.commitResult cc rd v f).suspended = s.suspended := by
  simp [State.commitResult]
@[simp] theorem State.ports_commitResult : (s.commitResult cc rd v f).ports = s.ports := by
  simp [State.commitResult]
@[simp] theorem State.status_commitResult : (s.commitResult cc rd v f).status = s.status := by
  simp [State.commitResult]

end CommitResult

section CommitPair

variable (s : State) (cc : CondField) (rd : RegNum) (lo hi : Word)

/-- The two writes of a pair: the partner's stands last, and the two registers differ. -/
@[simp] theorem State.reg_commitPair (q : RegNum) :
    (s.commitPair cc rd lo hi).reg q =
      if q = pairOf rd ∧ pairOf rd ≠ 0#4 then hi else if q = rd ∧ rd ≠ 0#4 then lo else s.reg q := by
  simp [State.commitPair, State.reg_setReg]
@[simp] theorem State.flags_commitPair :
    (s.commitPair cc rd lo hi).flags = if s.wf cc then s.flags.withZSP lo else s.flags := by
  simp [State.commitPair]
@[simp] theorem State.mem_commitPair : (s.commitPair cc rd lo hi).mem = s.mem := by
  simp [State.commitPair]
@[simp] theorem State.progress_commitPair : (s.commitPair cc rd lo hi).progress = none := rfl
@[simp] theorem State.suspended_commitPair : (s.commitPair cc rd lo hi).suspended = s.suspended := by
  simp [State.commitPair]
@[simp] theorem State.ports_commitPair : (s.commitPair cc rd lo hi).ports = s.ports := by
  simp [State.commitPair]
@[simp] theorem State.status_commitPair : (s.commitPair cc rd lo hi).status = s.status := by
  simp [State.commitPair]

end CommitPair

/-- Equal memory reads equal bytes. -/
theorem State.physRead_of_mem (s t : State) (h : t.mem = s.mem) (pa : Word) :
    t.physRead pa = s.physRead pa := by simp [State.physRead, h]

/-- An ALU instruction whose condition holds (R144). -/
theorem State.alu_true (s : State) (cc : CondField) (rx : RegNum) (vy : Vy)
    (f : Word → Word → Flags → Word × Flags) (h : s.holds cc = true) :
    s.alu cc rx vy f =
      s.commitResult cc (s.rd rx) (f (s.reg rx) (s.vy vy) s.flags).1 (f (s.reg rx) (s.vy vy) s.flags).2 :=
  s.when_true cc _ h

theorem State.alu_false (s : State) (cc : CondField) (rx : RegNum) (vy : Vy)
    (f : Word → Word → Flags → Word × Flags) (h : s.holds cc = false) :
    s.alu cc rx vy f = s.retire := s.when_false cc _ h

end Sys2Proof.Machine
end

