-- ==== Sys2Proof/Laws/Accesses.lean ====
section
/-! SUPPORT. What making byte accesses in order comes to, and what an instruction with data accesses commits
after them. -/

namespace Sys2Proof.Machine

/-! ### Accesses in order -/

@[simp] theorem State.made_nil (s : State) (got : List Byte) (pas : List Word) :
    s.made got [] pas = (s, got) := by cases pas <;> rfl

@[simp] theorem State.made_cons (s : State) (got : List Byte) (x : ByteAccess) (xs : List ByteAccess)
    (pa : Word) (pas : List Word) : s.made got (x :: xs) (pa :: pas) =
      (s.access x pa got).1.made (s.access x pa got).2 xs pas := rfl

/-- One access changes memory only. -/
theorem State.access_frame (s : State) (x : ByteAccess) (pa : Word) (got : List Byte) :
    (s.access x pa got).1 = { s with mem := (s.access x pa got).1.mem } := by
  unfold State.access; split <;> rfl

/-- Accesses change memory only. -/
theorem State.made_frame (s : State) (got : List Byte) (xs : List ByteAccess) (pas : List Word) :
    (s.made got xs pas).1 = { s with mem := (s.made got xs pas).1.mem } := by
  induction xs generalizing s got pas with
  | nil => simp
  | cons x xs ih =>
    cases pas with
    | nil => rfl
    | cons pa pas =>
      rw [State.made_cons, ih, State.mk.injEq]
      rw [s.access_frame x pa got]
      exact ⟨rfl, rfl, rfl, rfl, rfl, rfl⟩

@[simp] theorem State.ctx_made (s : State) (got : List Byte) (xs : List ByteAccess) (pas : List Word) :
    (s.made got xs pas).1.ctx = s.ctx := by rw [State.made_frame]
@[simp] theorem State.progress_made (s : State) (got : List Byte) (xs : List ByteAccess) (pas : List Word) :
    (s.made got xs pas).1.progress = s.progress := by rw [State.made_frame]
@[simp] theorem State.suspended_made (s : State) (got : List Byte) (xs : List ByteAccess) (pas : List Word) :
    (s.made got xs pas).1.suspended = s.suspended := by rw [State.made_frame]
@[simp] theorem State.ports_made (s : State) (got : List Byte) (xs : List ByteAccess) (pas : List Word) :
    (s.made got xs pas).1.ports = s.ports := by rw [State.made_frame]
@[simp] theorem State.status_made (s : State) (got : List Byte) (xs : List ByteAccess) (pas : List Word) :
    (s.made got xs pas).1.status = s.status := by rw [State.made_frame]

/-- The accesses of an instruction that are made have as many physical addresses. -/
theorem State.allLocated_length (s : State) (xs : List ByteAccess) (pas : List Word)
    (h : s.AllLocated xs pas) : pas.length = xs.length := by
  induction xs generalizing s pas with
  | nil => cases pas <;> simp_all [State.AllLocated]
  | cons x xs ih =>
    cases pas with
    | nil => exact h.elim
    | cons pa pas => simp [ih _ _ h.2]

/-- The state after an access does not depend on the bytes read before it. -/
theorem State.access_fst (s : State) (x : ByteAccess) (pa : Word) (got got' : List Byte) :
    (s.access x pa got).1 = (s.access x pa got').1 := by
  unfold State.access; split <;> rfl

/-- Accesses that only read are each located in the state before all of them. -/
theorem State.allLocated_read (s : State) (xs : List ByteAccess) (pas : List Word) (h : s.AllLocated xs pas)
    (hr : ∀ x ∈ xs, x.kind = .read) (k : Nat) (x : ByteAccess) (pa : Word) (hx : xs[k]? = some x)
    (hp : pas[k]? = some pa) : s.locate x.addr x.kind = .frame pa := by
  induction xs generalizing k pas with
  | nil => simp at hx
  | cons y xs ih =>
    cases pas with
    | nil => exact h.elim
    | cons q pas =>
      obtain ⟨h1, h2⟩ := h
      have hs : (s.access y q []).1 = s := by simp [State.access, hr y (by simp)]
      rw [hs] at h2
      cases k with
      | zero => simp at hx hp; subst hx hp; exact h1
      | succ k => exact ih pas h2 (fun z hz => hr z (by simp [hz])) k hx hp

/-- A run over accesses that are all made goes on with what is left (R106 step 3). -/
theorem State.runData_made (op : DataOp) (before todo : List ByteAccess) (pas : List Word)
    (got : List Byte) (s : State) (h : s.AllLocated before pas) :
    s.runData op (before ++ todo) got =
      (s.made got before pas).1.runData op todo (s.made got before pas).2 := by
  induction before generalizing s got pas with
  | nil => simp
  | cons x before ih =>
    cases pas with
    | nil => exact h.elim
    | cons pa pas =>
      rw [List.cons_append, State.runData_frame (h := h.1), State.made_cons]
      exact ih _ _ _ (by rw [s.access_fst x pa got []]; exact h.2)

/-- Reads leave memory alone and give the bytes at their addresses. -/
theorem State.made_read (s : State) (got : List Byte) (xs : List ByteAccess) (pas : List Word)
    (hr : ∀ x ∈ xs, x.kind = .read) (hlen : pas.length = xs.length) :
    s.made got xs pas = (s, got ++ pas.map s.physRead) := by
  induction xs generalizing got pas with
  | nil => rw [List.length_nil, List.length_eq_zero_iff] at hlen; simp [hlen]
  | cons x xs ih =>
    obtain ⟨k, a, b⟩ := x
    obtain rfl : k = .read := hr _ List.mem_cons_self
    cases pas with
    | nil => simp at hlen
    | cons pa pas =>
      rw [State.made_cons, State.access_read, ih _ _ (fun x h => hr x (List.mem_cons_of_mem _ h))
        (by simpa using hlen)]
      simp

/-- Accesses keep the canonical form of memory. -/
theorem State.access_wf (s : State) (x : ByteAccess) (pa : Word) (got : List Byte) (hm : Memory.wf s.mem) :
    Memory.wf (s.access x pa got).1.mem := by
  obtain ⟨-, h⟩ | ⟨-, h⟩ := s.access_cases x pa got <;> rw [h]
  · exact memWrite_wf _ _ _ (by omega) hm
  · exact hm

/-- Memory after one access. -/
theorem State.physRead_access (s : State) (x : ByteAccess) (pa q : Word) (got : List Byte)
    (hm : Memory.wf s.mem) : (s.access x pa got).1.physRead q =
      if x.kind = .write ∧ q = pa then x.byte else s.physRead q := by
  obtain ⟨hk, h⟩ | ⟨hk, h⟩ := s.access_cases x pa got <;> rw [h]
  · simp [State.physRead_physWrite _ _ _ _ hm, hk]
  · simp [hk]

/-- What accesses leave in memory (R61, R71). -/
theorem State.made_stored (s : State) (got : List Byte) (xs : List ByteAccess) (pas : List Word)
    (hm : Memory.wf s.mem) : StoredBy s (s.made got xs pas).1 xs pas := by
  induction xs generalizing s got pas with
  | nil => simp [StoredBy]
  | cons x xs ih =>
    cases pas with
    | nil => simp [StoredBy, State.made]
    | cons pa pas =>
      obtain ⟨hkeep, hlast⟩ := ih (s.access x pa got).1 (s.access x pa got).2 pas (s.access_wf x pa got hm)
      rw [State.made_cons]
      refine ⟨fun q hq => ?_, fun k y p hy hk hp hnot => ?_⟩
      · rw [hkeep q fun k y hy hk => by simpa using hq (k + 1) y (by simpa using hy) hk,
          State.physRead_access _ _ _ _ _ hm, if_neg]
        rintro ⟨hw, rfl⟩
        exact hq 0 x rfl hw rfl
      · cases k with
        | zero =>
          obtain rfl : x = y := by simpa using hy
          obtain rfl : pa = p := by simpa using hp
          rw [hkeep pa fun j z _ _ => by simpa using hnot (j + 1) (by omega),
            State.physRead_access _ _ _ _ _ hm, if_pos ⟨hk, rfl⟩]
        | succ k =>
          exact hlast k y p (by simpa using hy) hk (by simpa using hp)
            fun j hj => by simpa using hnot (j + 1) (by omega)

/-- An instruction with data accesses whose condition holds runs over them (R106). -/
theorem exec_of_dataAccesses (i : Instr) (cc : CondField) (op : DataOp) (xs : List ByteAccess) (s : State)
    (hcc : condFieldOfInstr i = some cc) (h : s.holds cc = true)
    (hi : s.dataAccesses i = some (op, xs)) : exec i s = .next (s.runData op xs []) := by
  have hfirst : ∀ v : Word, firstByte v = BitVec.ofNat 8 v.toNat := fun v => by
    apply BitVec.eq_of_toNat_eq
    show (v.extractLsb' 0 8).toNat = _
    simp
  have hsecond : ∀ v : Word, secondByte v = BitVec.ofNat 8 (v.toNat / 256) := fun v => by
    apply BitVec.eq_of_toNat_eq
    show (v.extractLsb' 8 8).toNat = _
    rw [BitVec.extractLsb'_toNat, Nat.shiftRight_eq_div_pow, BitVec.toNat_ofNat]
  cases i <;> simp only [State.dataAccesses, reduceCtorEq, Option.some.injEq, Prod.mk.injEq] at hi
  all_goals
    obtain ⟨rfl, rfl⟩ := hi
    obtain rfl : _ = cc := Option.some.inj hcc
    show Host.Outcome.next (s.when _ _) = _
    rw [s.when_true _ _ h]
    try simp only [readWordAccesses, writeWordAccesses, hfirst, hsecond]
    try rfl

/-! ### The commit -/

/-- ZF, SF and PF as `setZSP` writes them describe the result (R31). -/
theorem Flags.withZSP_describe (f : Flags) (v : Word) : (f.withZSP v).Describe v := by
  refine ⟨?_, ?_, ?_⟩
  · rw [Flags.withZSP_zf, beq_iff_eq]
    exact ⟨fun h => by rw [h]; rfl, fun h => BitVec.eq_of_toNat_eq h⟩
  · rw [Flags.withZSP_sf, BitVec.getLsbD, Nat.testBit_eq_decide_div_mod_eq]
    have := v.isLt
    simp only [decide_eq_true_eq]
    omega
  · have hsum : ∀ l : List Nat,
        (l.filter fun n => v.getLsbD n).length = (l.map fun n => (v.getLsbD n).toNat).sum := fun l => by
      induction l with
      | nil => rfl
      | cons n l ih =>
        cases h : v.getLsbD n <;> simp only [List.filter_cons, h, List.map_cons, List.sum_cons] <;>
          simp [ih]
        omega
    rw [Flags.withZSP_pf, parity, popcount, bitNumbers, hsum, beq_iff_eq]

/-- The members of a register set are different registers (R100). -/
theorem members_nodup (regs : Regs16) : (members regs).Nodup := by
  have hlt : (members regs).Pairwise fun q r => q < r := by
    simp only [members, bitNumbers, List.pairwise_map]
    apply List.Pairwise.filter (R := fun a b : Nat => BitVec.ofNat 4 a < BitVec.ofNat 4 b)
    decide
  exact hlt.imp fun h e => by subst e; exact absurd h (BitVec.lt_irrefl _)

/-- The word of a slot is made of its two bytes (R60). -/
theorem wordsOfBytes_get (bytes : List Byte) (k : Nat) (lo hi : Byte) (hlo : bytes[2 * k]? = some lo)
    (hhi : bytes[2 * k + 1]? = some hi) : (wordsOfBytes bytes)[k]? = some (wordOfBytes lo hi) := by
  induction k generalizing bytes with
  | zero =>
    match bytes with
    | [] => simp at hlo
    | [_] => simp at hhi
    | a :: b :: _ =>
      obtain rfl : a = lo := by simpa using hlo
      obtain rfl : b = hi := by simpa using hhi
      rfl
  | succ k ih =>
    rw [show 2 * (k + 1) = 2 * k + 1 + 1 by omega] at hlo hhi
    match bytes with
    | [] => simp at hlo
    | [_] => simp at hlo
    | _ :: _ :: rest => exact ih rest (by simpa using hlo) (by simpa using hhi)

/-- Register writes that name each register once: a register they name gets its value. -/
theorem State.reg_setRegs_of_mem (s : State) (l : List (RegNum × Word)) (r : RegNum) (v : Word)
    (hn : (l.map (·.1)).Nodup) (h : (r, v) ∈ l) : (s.setRegs l).reg r = if r = 0#4 then 0#16 else v := by
  induction l generalizing s with
  | nil => simp at h
  | cons x l ih =>
    obtain ⟨q, w⟩ := x
    rw [List.map_cons, List.nodup_cons] at hn
    obtain he | h := List.mem_cons.1 h
    · obtain ⟨rfl, rfl⟩ := Prod.mk.inj he
      rw [State.setRegs, State.reg_setRegs_of_not_mem _ _ _ fun x hx e =>
        hn.1 (List.mem_map.2 ⟨x, hx, e⟩), State.reg_setReg]
      by_cases h0 : r = 0#4 <;> simp [h0]
    · exact ih _ hn.2 h

/-- The registers a `POP` writes from its words are members of its set, each once. -/
theorem zip_members_nodup (regs : Regs16) (ws : List Word) :
    (((members regs).zip ws).map (·.1)).Nodup := by
  have hpre : ∀ (l : List RegNum) (ws : List Word), ((l.zip ws).map (·.1)).Sublist l := fun l => by
    induction l with
    | nil => simp
    | cons a l ih =>
      intro ws
      cases ws with
      | nil => simp
      | cons w ws => simpa using (ih ws).cons_cons a
  exact (hpre _ ws).nodup (members_nodup regs)

/-- A register written as a destination. -/
theorem received_setReg (s : State) (r : RegNum) (v : Word) : Received (s.setReg r v) r v := by
  unfold Received
  by_cases h : r = 0#4 <;> simp [h]

/-- Everything a commit does, whatever the accesses before it have done to memory (R106 step 4). -/
theorem State.commit_committed (s u : State) (op : DataOp) (bytes : List Byte)
    (hu : u = { s with mem := u.mem }) : Committed op bytes s (u.commit op bytes).retire := by
  rw [hu]
  generalize u.mem = m
  have hreg : ∀ r, ({ s with mem := m } : State).reg r = s.reg r := fun _ => rfl
  have hflags : ({ s with mem := m } : State).flags = s.flags := rfl
  have hload : ∀ (rd : RegNum) (wf : Bool) (v : Word),
      let t := ((({ s with mem := m } : State).setReg rd v).writeFlags wf
        (({ s with mem := m } : State).flags.withZSP v)).retire
      KeepsBesideMemory s t [rd] ∧ Received t rd v ∧ ZSPWritten wf s.flags t.flags v := by
    intro rd wf v
    refine ⟨⟨fun r hr => ?_, ?_, by simp, by simp, by simp, rfl⟩, ?_, ?_⟩
    · simp only [List.mem_singleton] at hr
      simp [hr, hreg]
    · cases wf <;> simp [hflags]
    · have := received_setReg ({ s with mem := m } : State) rd v
      simpa only [Received, State.reg_retire, State.reg_writeFlags] using this
    · cases wf <;> simp [ZSPWritten, hflags, Flags.withZSP_describe]
  cases op with
  | loadWord rd wf =>
    refine ⟨(hload rd wf _).1, ?_⟩
    rintro lo hi rfl
    exact ⟨_, toNat_wordOfBytes lo hi, (hload rd wf _).2⟩
  | loadByte rd wf =>
    refine ⟨(hload rd wf _).1, ?_⟩
    rintro b rfl
    exact ⟨b.setWidth 16, by have := b.isLt; simp; omega, (hload rd wf _).2⟩
  | store => exact ⟨⟨fun _ _ => rfl, rfl, rfl, rfl, rfl, rfl⟩, rfl⟩
  | push rd pointer =>
    refine ⟨⟨fun r hr => ?_, by simp [State.commit, hflags], rfl, rfl, rfl, rfl⟩,
      by simp [State.commit, hflags], received_setReg _ rd pointer⟩
    simp only [List.mem_singleton] at hr
    simp [State.commit, hr, hreg]
  | pop rd regs =>
    have hpop : popcount regs = (members regs).length := by simp [members, popcount]
    simp only [State.commit, hpop]
    generalize hws : wordsOfBytes bytes = ws
    have hmem : ∀ x ∈ (members regs).zip ws, x.1 ∈ members regs := fun x hx => (List.of_mem_zip hx).1
    refine ⟨⟨fun r hr => ?_, by simp [hflags], by simp, by simp, by simp, rfl⟩, by simp [hflags],
      fun hnot => ?_, fun k r lo hi hr hlo hhi => ?_⟩
    · simp only [List.mem_cons, not_or] at hr
      rw [State.reg_retire, State.reg_setReg_other _ _ _ _ hr.1,
        State.reg_setRegs_of_not_mem _ _ _ fun x hx e => by subst e; exact hr.2 (hmem x hx), hreg]
    · rw [State.reg_setRegs_of_not_mem _ _ _ fun x hx e => by subst e; exact hnot (hmem x hx)]
      exact received_setReg _ rd _
    · refine ⟨_, toNat_wordOfBytes lo hi, ?_⟩
      have hw : ws[k]? = some (wordOfBytes lo hi) := hws ▸ wordsOfBytes_get bytes k lo hi hlo hhi
      have hz : (r, wordOfBytes lo hi) ∈ (members regs).zip ws :=
        List.mem_of_getElem? (i := k) (by simp [List.getElem?_zip_eq_some, hr, hw])
      have hg := ({ s with mem := m } : State).reg_setRegs_of_mem _ _ _ (zip_members_nodup regs ws) hz
      by_cases he : r = rd
      · subst he
        rw [hg, if_pos rfl]
        by_cases h0 : r = 0#4 <;> simp [Received, h0]
      · simp only [Received, State.reg_retire, State.reg_setReg_other _ _ _ _ he, hg, if_neg he]

/-! ### The exception area -/

/-- The configured exception area lies outside the tables, as R264 requires. -/
theorem excArea_placed : Config.placed Config.excArea = true := by
  unfold Config.excArea
  split
  · assumption
  · decide

/-- Byte `k` of a `POP` is read at the pointer plus `k` (R191, R60). -/
theorem State.popAccesses_get (s : State) (regs : Regs16) (k : Nat) (hk : k < 2 * (members regs).length) :
    (s.popAccesses regs)[k]? = some ⟨.read, s.reg (s.rd regSP) + BitVec.ofNat 16 k, 0#8⟩ := by
  unfold State.popAccesses
  generalize s.reg (s.rd regSP) = p
  generalize members regs = l at hk
  induction l generalizing p k with
  | nil => simp at hk
  | cons q l ih =>
    rw [slots, List.flatMap_cons, readWordAccesses]
    match k with
    | 0 => simp
    | 1 => simp
    | k + 2 =>
      rw [List.length_cons] at hk
      simp only [List.cons_append, List.nil_append, List.getElem?_cons_succ]
      rw [ih k _ (by omega), BitVec.add_assoc, ← BitVec.ofNat_add, Nat.add_comm 2 k]

/-- A `POP` reads two bytes for each member (R191). -/
theorem State.popAccesses_length (s : State) (regs : Regs16) :
    (s.popAccesses regs).length = 2 * (members regs).length := by
  unfold State.popAccesses
  generalize s.reg (s.rd regSP) = p
  generalize members regs = l
  induction l generalizing p with
  | nil => rfl
  | cons q l ih =>
    rw [slots, List.flatMap_cons, List.length_append, ih, List.length_cons]
    simp [readWordAccesses]; omega

/-- The bytes of two areas that are apart differ: none of the first lies in the second. -/
theorem apart_outside (a : Word) (n : Nat) (b : Word) (m k : Nat) (h : Config.apart a n b m = true)
    (hk : k < n) : m ≤ (a + BitVec.ofNat 16 k - b).toNat := by
  simp only [Config.apart, Bool.and_eq_true, decide_eq_true_eq, BitVec.toNat_sub] at h
  simp only [BitVec.toNat_sub, BitVec.toNat_add, BitVec.toNat_ofNat]
  have := a.isLt
  have := b.isLt
  omega

/-- No byte of the saved-register area lies in the page table or in the allocation table (R264). -/
theorem savedArea_outside_tables (pa : Word) (h : pa ∈ savedArea Config.excArea) :
    Config.pageTableBytes ≤ (pa - Config.pageTableBase).toNat ∧
      Config.patBytes ≤ (pa - Config.patBase).toNat := by
  obtain ⟨n, hn, rfl⟩ := List.mem_map.1 h
  have hp := excArea_placed
  simp only [Config.placed, Config.outsideTables, Bool.and_eq_true] at hp
  exact ⟨apart_outside _ _ _ _ _ hp.1.2.1 (List.mem_range.1 hn),
    apart_outside _ _ _ _ _ hp.1.2.2 (List.mem_range.1 hn)⟩

end Sys2Proof.Machine
end

