-- ==== Sys2Proof/Laws/Decode.lean ====
section
/-! SUPPORT. The fields of an opcode byte and of a byte of two nybbles, read back from what they were made
of (30_encoding.md R90, R94). -/

namespace Sys2Proof

@[simp] theorem condFieldOf_opcodeByte (cc : CondField) (op : BitVec 5) :
    condFieldOf (opcodeByte cc op) = cc := by revert cc op; decide

@[simp] theorem opcodeOf_opcodeByte (cc : CondField) (op : BitVec 5) :
    opcodeOf (opcodeByte cc op) = op := by revert cc op; decide

@[simp] theorem highNybble_nybbles (h l : BitVec 4) : highNybble (nybbles h l) = h := by
  revert h l; decide

@[simp] theorem lowNybble_nybbles (h l : BitVec 4) : lowNybble (nybbles h l) = l := by
  revert h l; decide

/-- An opcode byte is made of its fields. -/
theorem opcodeByte_fields (b : Byte) : opcodeByte (condFieldOf b) (opcodeOf b) = b := by
  revert b; decide

/-- A byte is made of its nybbles. -/
theorem nybbles_fields (b : Byte) : nybbles (highNybble b) (lowNybble b) = b := by
  revert b; decide

end Sys2Proof
end

