-- ==== Sys2Proof/Laws/PerInstr.lean ====
section
/-! SUPPORT. Statements made instruction by instruction. -/

namespace Sys2Proof.Laws

/-- An instruction, or a prefix byte, has one to four bytes (30_encoding.md R101, R102). -/
def EncodedSize.Statement (i : Instr) : Prop :=
  1 ≤ (encode i).length ∧ (encode i).length ≤ maxInstrBytes

theorem encodeRV_size (cc : CondField) (op : BitVec 5) (rx : RegNum) (vy : Vy) :
    1 ≤ (encodeRV cc op rx vy).length ∧ (encodeRV cc op rx vy).length ≤ maxInstrBytes := by
  cases vy <;> simp [encodeRV, maxInstrBytes]

theorem encodeRV8_size (cc : CondField) (op : BitVec 5) (h : BitVec 4) (v8 : V8) :
    1 ≤ (encodeRV8 cc op h v8).length ∧ (encodeRV8 cc op h v8).length ≤ maxInstrBytes := by
  cases v8 <;> simp [encodeRV8, maxInstrBytes]

theorem EncodedSize.add (cc : CondField) (rx : RegNum) (vy : Vy) : EncodedSize.Statement (.add cc rx vy) :=
  encodeRV_size ..

theorem EncodedSize.sub (cc : CondField) (rx : RegNum) (vy : Vy) : EncodedSize.Statement (.sub cc rx vy) :=
  encodeRV_size ..

theorem EncodedSize.mlu (cc : CondField) (rx : RegNum) (vy : Vy) : EncodedSize.Statement (.mlu cc rx vy) :=
  encodeRV_size ..

theorem EncodedSize.mls (cc : CondField) (rx : RegNum) (vy : Vy) : EncodedSize.Statement (.mls cc rx vy) :=
  encodeRV_size ..

theorem EncodedSize.dvu (cc : CondField) (rx : RegNum) (vy : Vy) : EncodedSize.Statement (.dvu cc rx vy) :=
  encodeRV_size ..

theorem EncodedSize.dvs (cc : CondField) (rx : RegNum) (vy : Vy) : EncodedSize.Statement (.dvs cc rx vy) :=
  encodeRV_size ..

theorem EncodedSize.xor (cc : CondField) (rx : RegNum) (vy : Vy) : EncodedSize.Statement (.xor cc rx vy) :=
  encodeRV_size ..

theorem EncodedSize.and (cc : CondField) (rx : RegNum) (vy : Vy) : EncodedSize.Statement (.and cc rx vy) :=
  encodeRV_size ..

theorem EncodedSize.orr (cc : CondField) (rx : RegNum) (vy : Vy) : EncodedSize.Statement (.orr cc rx vy) :=
  encodeRV_size ..

theorem EncodedSize.shl (cc : CondField) (rx : RegNum) (vy : Vy) : EncodedSize.Statement (.shl cc rx vy) :=
  encodeRV_size ..

theorem EncodedSize.sru (cc : CondField) (rx : RegNum) (vy : Vy) : EncodedSize.Statement (.sru cc rx vy) :=
  encodeRV_size ..

theorem EncodedSize.srs (cc : CondField) (rx : RegNum) (vy : Vy) : EncodedSize.Statement (.srs cc rx vy) :=
  encodeRV_size ..

theorem EncodedSize.mov (cc : CondField) (rx : RegNum) (vy : Vy) : EncodedSize.Statement (.mov cc rx vy) :=
  encodeRV_size ..

theorem EncodedSize.cmp (cc : CondField) (rx : RegNum) (vy : Vy) : EncodedSize.Statement (.cmp cc rx vy) :=
  encodeRV_size ..

theorem EncodedSize.reserved0E (cc : CondField) : EncodedSize.Statement (.reserved0E cc) :=
  ⟨Nat.le_of_ble_eq_true rfl, Nat.le_of_ble_eq_true rfl⟩

theorem EncodedSize.reserved0F (cc : CondField) : EncodedSize.Statement (.reserved0F cc) :=
  ⟨Nat.le_of_ble_eq_true rfl, Nat.le_of_ble_eq_true rfl⟩

theorem EncodedSize.ldw (cc : CondField) (rx : RegNum) (vy : Vy) : EncodedSize.Statement (.ldw cc rx vy) :=
  encodeRV_size ..

theorem EncodedSize.stw (cc : CondField) (rx : RegNum) (vy : Vy) : EncodedSize.Statement (.stw cc rx vy) :=
  encodeRV_size ..

theorem EncodedSize.ldb (cc : CondField) (rx : RegNum) (vy : Vy) : EncodedSize.Statement (.ldb cc rx vy) :=
  encodeRV_size ..

theorem EncodedSize.stb (cc : CondField) (rx : RegNum) (v8 : V8) : EncodedSize.Statement (.stb cc rx v8) :=
  encodeRV8_size ..

theorem EncodedSize.bra (cc : CondField) (rx : RegNum) (vy : Vy) : EncodedSize.Statement (.bra cc rx vy) :=
  encodeRV_size ..

theorem EncodedSize.brr (cc : CondField) (imm16 : Word) : EncodedSize.Statement (.brr cc imm16) :=
  ⟨Nat.le_of_ble_eq_true rfl, Nat.le_of_ble_eq_true rfl⟩

theorem EncodedSize.fca (cc : CondField) (rx : RegNum) (vy : Vy) : EncodedSize.Statement (.fca cc rx vy) :=
  encodeRV_size ..

theorem EncodedSize.fcr (cc : CondField) (imm16 : Word) : EncodedSize.Statement (.fcr cc imm16) :=
  ⟨Nat.le_of_ble_eq_true rfl, Nat.le_of_ble_eq_true rfl⟩

theorem EncodedSize.rdb (cc : CondField) (rx : RegNum) (port : Port) : EncodedSize.Statement (.rdb cc rx port) :=
  ⟨Nat.le_of_ble_eq_true rfl, Nat.le_of_ble_eq_true rfl⟩

theorem EncodedSize.wrb (cc : CondField) (port : Port) (v8 : V8) : EncodedSize.Statement (.wrb cc port v8) :=
  encodeRV8_size ..

theorem EncodedSize.psh (cc : CondField) (regs : Regs16) : EncodedSize.Statement (.psh cc regs) :=
  ⟨Nat.le_of_ble_eq_true rfl, Nat.le_of_ble_eq_true rfl⟩

theorem EncodedSize.pop (cc : CondField) (regs : Regs16) : EncodedSize.Statement (.pop cc regs) :=
  ⟨Nat.le_of_ble_eq_true rfl, Nat.le_of_ble_eq_true rfl⟩

theorem EncodedSize.inc (cc : CondField) (rx : RegNum) (simm : SImm4) : EncodedSize.Statement (.inc cc rx simm) :=
  ⟨Nat.le_of_ble_eq_true rfl, Nat.le_of_ble_eq_true rfl⟩

theorem EncodedSize.bpt (cc : CondField) : EncodedSize.Statement (.bpt cc) :=
  ⟨Nat.le_of_ble_eq_true rfl, Nat.le_of_ble_eq_true rfl⟩

theorem EncodedSize.hlt (cc : CondField) : EncodedSize.Statement (.hlt cc) :=
  ⟨Nat.le_of_ble_eq_true rfl, Nat.le_of_ble_eq_true rfl⟩

theorem EncodedSize.nop (cc : CondField) : EncodedSize.Statement (.nop cc) :=
  ⟨Nat.le_of_ble_eq_true rfl, Nat.le_of_ble_eq_true rfl⟩

theorem EncodedSize.xc : EncodedSize.Statement .xc :=
  by constructor <;> decide

theorem EncodedSize.tf : EncodedSize.Statement .tf :=
  by constructor <;> decide

theorem EncodedSize.em : EncodedSize.Statement .em :=
  by constructor <;> decide

theorem EncodedSize.dr (rd : RegNum) : EncodedSize.Statement (.dr rd) :=
  ⟨Nat.le_of_ble_eq_true rfl, Nat.le_of_ble_eq_true rfl⟩

theorem EncodedSize.reservedPrefixC3 : EncodedSize.Statement .reservedPrefixC3 :=
  by constructor <;> decide

theorem EncodedSize.reservedPrefixC4 (n : BitVec 2) : EncodedSize.Statement (.reservedPrefixC4 n) :=
  ⟨Nat.le_of_ble_eq_true rfl, Nat.le_of_ble_eq_true rfl⟩

theorem EncodedSize.reservedPrefixC8 (n : BitVec 3) : EncodedSize.Statement (.reservedPrefixC8 n) :=
  ⟨Nat.le_of_ble_eq_true rfl, Nat.le_of_ble_eq_true rfl⟩

end Sys2Proof.Laws
end

