-- ==== Sys2Proof/Laws/Step.lean ====
section
/-! SUPPORT. What fetching and a step come to, case by case. -/

namespace Sys2Proof.Machine

/-! ### Fetching -/

/-- Bytes that decode are run. -/
theorem State.fetchRest_ok (fuel : Nat) (got rest : List Byte) (s : State) (i : Instr)
    (h : decode s.current.xc got = .ok (i, rest)) : State.fetchRest fuel got s = .run i s := by
  cases fuel <;> simp [State.fetchRest, h]

/-- Bytes that do not decode yet: the next code byte is fetched (R104). -/
theorem State.fetchRest_more (fuel : Nat) (got : List Byte) (s : State) (e : DecodeError)
    (h : decode s.current.xc got = .error e) :
    State.fetchRest (fuel + 1) got s =
      match s.locate s.pc .execute with
      | .frame pa => State.fetchRest fuel (got ++ [s.physRead pa]) s.advancePc
      | .denied => .settled (s.halt .doubleFault)
      | .pageFault => .settled (s.pageFault s.pc .execute (.fetch got)) := by
  cases hl : s.locate s.pc .execute <;> simp only [State.fetchRest, h, hl]

@[simp] theorem State.flags_advancePc (s : State) : s.advancePc.flags = s.flags := by
  simp [State.advancePc]
@[simp] theorem State.mem_advancePc (s : State) : s.advancePc.mem = s.mem := rfl
@[simp] theorem State.progress_advancePc (s : State) : s.advancePc.progress = s.progress := rfl
@[simp] theorem State.suspended_advancePc (s : State) : s.advancePc.suspended = s.suspended := rfl
@[simp] theorem State.ports_advancePc (s : State) : s.advancePc.ports = s.ports := rfl
@[simp] theorem State.status_advancePc (s : State) : s.advancePc.status = s.status := rfl

/-- A fetched byte moves `PC` by `1 + DPC` (R24). -/
@[simp] theorem State.pc_advancePc (s : State) : s.advancePc.pc = s.pc + 1#16 + s.dpc :=
  State.reg_setReg_same _ _ _ (by decide)

@[simp] theorem State.dpc_advancePc (s : State) : s.advancePc.dpc = s.dpc :=
  State.reg_setReg_other _ _ _ _ (by decide)

/-- The instruction in progress stays in progress while its bytes are fetched (R104). -/
theorem State.current_advancePc (s : State) (p : Progress) (h : s.progress = some p) :
    s.advancePc.current = s.current := by simp [State.current, h]

@[simp] theorem State.flags_beginInstr (s : State) : s.beginInstr.flags = s.flags := rfl
@[simp] theorem State.mem_beginInstr (s : State) : s.beginInstr.mem = s.mem := rfl
@[simp] theorem State.suspended_beginInstr (s : State) : s.beginInstr.suspended = s.suspended := rfl
@[simp] theorem State.ports_beginInstr (s : State) : s.beginInstr.ports = s.ports := rfl
@[simp] theorem State.status_beginInstr (s : State) : s.beginInstr.status = s.status := rfl
@[simp] theorem State.pc_beginInstr (s : State) : s.beginInstr.pc = s.pc := rfl
@[simp] theorem State.dpc_beginInstr (s : State) : s.beginInstr.dpc = s.dpc := rfl

/-! ### One step -/

/-- A halted machine has no step (R38). -/
theorem step_halted (s : State) (reason : HaltReason) (h : s.status = .halted reason) :
    step s = .fault (.halted reason) := by simp [step, h]

theorem step_run (s s' : State) (i : Instr) (h : s.status = .running) (ha : s.advance = .run i s') :
    step s = exec i s' := by simp [step, h, ha]

theorem step_settled (s s' : State) (h : s.status = .running) (ha : s.advance = .settled s') :
    step s = .next s' := by simp [step, h, ha]

/-- Everything a step can do: a fault on a halted machine; else a decoded instruction run, or a state the
fetch or the return from a handler settled in. -/
theorem step_cases (s : State) :
    (∃ reason, s.status = .halted reason ∧ step s = .fault (.halted reason)) ∨
    (∃ i s', s.status = .running ∧ s.advance = .run i s' ∧ step s = exec i s') ∨
    (∃ s', s.status = .running ∧ s.advance = .settled s' ∧ step s = .next s') := by
  cases h : s.status with
  | halted reason => exact .inl ⟨reason, rfl, step_halted s reason h⟩
  | running =>
    cases ha : s.advance with
    | run i s' => exact .inr (.inl ⟨i, s', rfl, rfl, step_run s s' i h ha⟩)
    | settled s' => exact .inr (.inr ⟨s', rfl, rfl, step_settled s s' h ha⟩)

/-- Outside the return from a handler a running machine fetches. -/
theorem State.advance_fetch (s : State)
    (h : ∀ t, s.suspended = some t → s.atHandlerReturn Config.excArea = false) :
    s.advance = s.fetch := by
  unfold State.advance
  cases hs : s.suspended with
  | none => rfl
  | some t => simp [h t hs]

/-- At the return address the handler is left (R260). -/
theorem State.advance_return (s : State) (t : Suspended) (hs : s.suspended = some t)
    (h : s.atHandlerReturn Config.excArea = true) :
    s.advance = s.afterHandler Config.excArea t := by
  simp [State.advance, hs, h]

/-- A handler that marked the instruction complete: it is dropped (R260 steps 3 and 7). -/
theorem State.afterHandler_complete (s : State) (area : ExcArea) (t : Suspended)
    (h : markedComplete area s.mem t.progress.startPc = true) :
    s.afterHandler area t = .settled (s.leaveHandler area t).retire := by
  simp [State.afterHandler, h]

theorem State.afterHandler_fetch (s : State) (area : ExcArea) (t : Suspended) (got : List Byte)
    (h : markedComplete area s.mem t.progress.startPc = false) (hw : t.work = .fetch got) :
    s.afterHandler area t = (s.leaveHandler area t).continueFetch (s.reg 2#4) got := by
  simp [State.afterHandler, h, hw]

theorem State.afterHandler_data (s : State) (area : ExcArea) (t : Suspended) (op : DataOp)
    (got : List Byte) (x : ByteAccess) (todo : List ByteAccess)
    (h : markedComplete area s.mem t.progress.startPc = false) (hw : t.work = .data op got x todo) :
    s.afterHandler area t =
      .settled ((s.leaveHandler area t).continueData (s.reg 2#4) op got x todo) := by
  simp [State.afterHandler, h, hw]

end Sys2Proof.Machine
end

