-- ==== Sys2Proof/Tests/Slice0.lean ====
section
/-! SUPPORT. Small tests. Expected values are those of spec/: the rows of 95_test_vectors.md (named in the
docstrings: A1, L2, ...), R115, the examples of the instructions' rules, or the table of 30_encoding.md
R107. After them the witnesses: for each statement with hypotheses, states and operands that meet them. -/

namespace Sys2Proof.Tests

open Sys2Proof Sys2Proof.Machine

/-! ### Helpers -/

/-- The reset state with registers given. -/
def withRegs (rs : List (RegNum × Word)) : State := rs.foldl (fun s x => s.setReg x.1 x.2) State.reset

/-- A state with bytes stored, each list from an address up. -/
def storing (s : State) : List (Nat × List Byte) → State
  | [] => s
  | (_, []) :: rest => storing s rest
  | (a, b :: bs) :: rest =>
    storing ((List.range bs.length).foldl
      (fun s k => s.physWrite (BitVec.ofNat 16 (a + 1 + k)) (bs.getD k 0#8))
      (s.physWrite (BitVec.ofNat 16 a) b)) rest

/-- ZF, SF, PF, CF, VF. -/
def five (f : Flags) : List Bool := [f.zf, f.sf, f.pf, f.cf, f.vf]

/-- Flags with MF = 0. -/
def mkFlags (z s p c v : Bool) : Flags := { zf := z, sf := s, pf := p, cf := c, vf := v, mf := false }

/-- The next state of an answer. -/
def next? (o : Result) : Option State :=
  match o with
  | .next t => some t
  | _ => none

/-- A view of the next state of an instruction. -/
def view {α : Type} (i : Instr) (s : State) (f : State → α) : Option α := (next? (exec i s)).map f

/-! ### WellFormed: a term each check refuses -/

theorem test_wf_vy_15 : (Instr.add 7#3 1#4 (.reg 15#4)).wf false = false := by decide
theorem test_wf_v8_15 : (Instr.stb 7#3 1#4 (.reg 15#4)).wf false = false := by decide
theorem test_wf_wrb_15 : (Instr.wrb 7#3 1#4 (.reg 15#4)).wf true = false := by decide
theorem test_wf_field_6 : (Instr.nop 6#3).wf false = false ∧ (Instr.nop 6#3).wf true = true := by decide
theorem test_wf_field_6_pair : (Instr.mov 6#3 1#4 (.reg 2#4)).wf false = false := by decide
theorem test_wf_prefix_after_xc : [Instr.xc, .tf, .em, .dr 3#4, .reservedPrefixC3, .reservedPrefixC4 0#2,
    .reservedPrefixC8 0#3].map (Instr.wf true) = List.replicate 7 false := by decide

/-! ### Decoding: one word for each constructor, written out from the encoding table (R90, R93, R107) -/

/-- What the decoder reads at an instruction boundary; `none` if bytes are missing or left over. -/
def reads (bytes : List Byte) : Option Instr :=
  match decode false bytes with
  | .ok (i, []) => some i
  | _ => none

theorem test_decode_add : reads [0xE0#8, 0x12#8] = some (.add 7#3 1#4 (.reg 2#4)) := by decide
theorem test_decode_sub : reads [0xE1#8, 0x1F#8, 0x01#8, 0x00#8] = some (.sub 7#3 1#4 (.imm 1#16)) := by decide
theorem test_decode_mlu : reads [0xE2#8, 0x46#8] = some (.mlu 7#3 4#4 (.reg 6#4)) := by decide
theorem test_decode_mls : reads [0xE3#8, 0x46#8] = some (.mls 7#3 4#4 (.reg 6#4)) := by decide
theorem test_decode_dvu : reads [0xE4#8, 0x24#8] = some (.dvu 7#3 2#4 (.reg 4#4)) := by decide
theorem test_decode_dvs : reads [0xE5#8, 0x24#8] = some (.dvs 7#3 2#4 (.reg 4#4)) := by decide
theorem test_decode_xor : reads [0xE6#8, 0x1F#8, 0xFF#8, 0xFF#8] = some (.xor 7#3 1#4 (.imm 0xFFFF#16)) := by
  decide
theorem test_decode_and : reads [0xE7#8, 0x1F#8, 0xF0#8, 0x00#8] = some (.and 7#3 1#4 (.imm 0xF0#16)) := by
  decide
theorem test_decode_orr : reads [0xE8#8, 0x12#8] = some (.orr 7#3 1#4 (.reg 2#4)) := by decide
theorem test_decode_shl : reads [0xE9#8, 0x1F#8, 0x04#8, 0x00#8] = some (.shl 7#3 1#4 (.imm 4#16)) := by decide
theorem test_decode_sru : reads [0xEA#8, 0x12#8] = some (.sru 7#3 1#4 (.reg 2#4)) := by decide
theorem test_decode_srs : reads [0xEB#8, 0x12#8] = some (.srs 7#3 1#4 (.reg 2#4)) := by decide
theorem test_decode_mov : reads [0xEC#8, 0xF2#8] = some (.mov 7#3 15#4 (.reg 2#4)) := by decide
theorem test_decode_cmp : reads [0xED#8, 0x12#8] = some (.cmp 7#3 1#4 (.reg 2#4)) := by decide
theorem test_decode_reserved0E : reads [0xEE#8] = some (.reserved0E 7#3) := by decide
theorem test_decode_reserved0F : reads [0x0F#8] = some (.reserved0F 0#3) := by decide
theorem test_decode_ldw : reads [0x10#8, 0x1F#8, 0x00#8, 0x2D#8] = some (.ldw 0#3 1#4 (.imm 0x2D00#16)) := by
  decide
theorem test_decode_stw : reads [0xF1#8, 0x21#8] = some (.stw 7#3 2#4 (.reg 1#4)) := by decide
theorem test_decode_ldb : reads [0xF2#8, 0x1F#8, 0x01#8, 0x20#8] = some (.ldb 7#3 1#4 (.imm 0x2001#16)) := by
  decide
theorem test_decode_stb : reads [0xF3#8, 0x2F#8, 0x41#8] = some (.stb 7#3 2#4 (.imm 0x41#8)) := by decide
theorem test_decode_bra : reads [0xF4#8, 0xDC#8] = some (.bra 7#3 13#4 (.reg 12#4)) := by decide
theorem test_decode_brr : reads [0x35#8, 0x10#8, 0x00#8] = some (.brr 1#3 0x10#16) := by decide
theorem test_decode_fca : reads [0xF6#8, 0x0F#8, 0x00#8, 0x03#8] = some (.fca 7#3 0#4 (.imm 0x300#16)) := by
  decide
theorem test_decode_fcr : reads [0xF7#8, 0xFD#8, 0xFF#8] = some (.fcr 7#3 0xFFFD#16) := by decide
theorem test_decode_rdb : reads [0xF8#8, 0x3F#8] = some (.rdb 7#3 3#4 15#4) := by decide
theorem test_decode_wrb : reads [0xF9#8, 0xFF#8, 0x80#8] = some (.wrb 7#3 15#4 (.imm 0x80#8)) := by decide
theorem test_decode_psh : reads [0xFA#8, 0x80#8, 0x11#8] = some (.psh 7#3 0x1180#16) := by decide
theorem test_decode_pop : reads [0xFB#8, 0x00#8, 0xC0#8] = some (.pop 7#3 0xC000#16) := by decide
theorem test_decode_inc : reads [0xFC#8, 0x1F#8] = some (.inc 7#3 1#4 15#4) := by decide
theorem test_decode_bpt : reads [0xFD#8] = some (.bpt 7#3) := by decide
theorem test_decode_hlt : reads [0xFE#8] = some (.hlt 7#3) := by decide
theorem test_decode_nop : reads [0xBF#8] = some (.nop 5#3) := by decide
theorem test_decode_xc : reads [0xC0#8] = some .xc := by decide
theorem test_decode_tf : reads [0xC1#8] = some .tf := by decide
theorem test_decode_em : reads [0xC2#8] = some .em := by decide
theorem test_decode_dr : reads [0xD9#8] = some (.dr 9#4) := by decide
theorem test_decode_reservedPrefixC3 : reads [0xC3#8] = some .reservedPrefixC3 := by decide
theorem test_decode_reservedPrefixC4 : reads [0xC6#8] = some (.reservedPrefixC4 2#2) := by decide
theorem test_decode_reservedPrefixC8 : reads [0xCF#8] = some (.reservedPrefixC8 7#3) := by decide

/-- Directly after `XC` the byte C0 is the opcode byte of `ADD` with condition 14 (R92). -/
theorem test_decode_after_xc : decode true [0xC0#8, 0x12#8] = .ok (.add 6#3 1#4 (.reg 2#4), []) := by decide

/-- Bytes that end inside an instruction are refused by name. -/
theorem test_decode_short : decode false [] = .error .missingOpcodeByte ∧
    decode false [0xE0#8] = .error .missingRegpairByte ∧
    decode false [0xE0#8, 0x1F#8, 0x34#8] = .error .missingImmediate := by decide

/-- The host's numbering: the first byte is the least significant, the bytes above `nbits` are 0. -/
theorem test_decodeTableWord : decodeTableWord 16 0x12E0 = some (.add 7#3 1#4 (.reg 2#4)) ∧
    decodeTableWord 32 0x12341FE0 = some (.add 7#3 1#4 (.imm 0x1234#16)) ∧
    decodeTableWord 8 0xFA = some (.psh 7#3 0#16) := by decide

/-! ### Assembler: prefixes and pseudo-instructions (R110 to R115, R220 to R245) -/

/-- The bytes of an expanded pseudo-instruction. -/
def pseudoBytes (x : Suffix) (p : Pseudo) : Option (List Byte) := (p.expand x).map encodeAll

/-- S5: `DECF.PS R3` is C1 C0 3C 3F. -/
theorem test_decf_ps : pseudoBytes ⟨9#4, true⟩ (.dec 3#4) = some [0xC1#8, 0xC0#8, 0x3C#8, 0x3F#8] := by decide
theorem test_ret : pseudoBytes .plain .ret = some [0xF4#8, 0xDC#8] := by decide
theorem test_neg : pseudoBytes .plain (.neg 5#4) = some [0xD5#8, 0xE1#8, 0x05#8] := by decide
theorem test_neg_dpc : pseudoBytes .plain (.neg 15#4) = none := by decide
theorem test_ldwm : pseudoBytes .plain (.ldwm 1#4 (.reg 2#4)) = some [0xC2#8, 0xF0#8, 0x12#8] := by decide
theorem test_spell : spell { startPc := 0#16, xc := false, tf := true, em := false, dr := some 3#4 }
    (.add 0#3 1#4 (.reg 2#4)) = "ADDF.EQ R3, R1, R2" := by decide

/-! ### Instructions on registers -/

/-- A4. -/
theorem test_add_carry_overflow :
    view (.add 7#3 1#4 (.reg 2#4)) (withRegs [(1#4, 0x8000#16), (2#4, 0x8000#16)])
      (fun t => ([t.reg 1#4], five t.flags)) =
    some ([0x0#16], [true, false, false, true, true]) := by decide

/-- A8: `PC` reads as the next instruction. -/
theorem test_add_pc :
    view (.add 7#3 14#4 (.reg 2#4)) (withRegs [(14#4, 0x1002#16), (2#4, 0x10#16)])
      (fun t => ([t.reg 14#4], five t.flags)) =
    some ([0x1012#16], [false, false, true, false, false]) := by decide

/-- A11. -/
theorem test_sub_borrow :
    view (.sub 7#3 1#4 (.reg 2#4)) (withRegs [(1#4, 0x0#16), (2#4, 0x1#16)])
      (fun t => ([t.reg 1#4], five t.flags)) =
    some ([0xFFFF#16], [false, true, false, false, false]) := by decide

/-- A12. -/
theorem test_sub_overflow :
    view (.sub 7#3 1#4 (.reg 2#4)) (withRegs [(1#4, 0x8000#16), (2#4, 0x1#16)])
      (fun t => ([t.reg 1#4], five t.flags)) =
    some ([0x7FFF#16], [false, false, true, true, true]) := by decide

/-- A16: the destination is odd. -/
theorem test_mlu :
    view (.mlu 7#3 5#4 (.reg 6#4)) (withRegs [(5#4, 0xFFFF#16), (6#4, 0xFFFF#16)])
      (fun t => ([t.reg 4#4, t.reg 5#4], five t.flags)) =
    some ([0xFFFE#16, 0x1#16], [false, false, true, false, false]) := by decide

/-- A18. -/
theorem test_mls :
    view (.mls 7#3 4#4 (.reg 6#4)) (withRegs [(4#4, 0xFFFE#16), (6#4, 0x3#16)])
      (fun t => ([t.reg 4#4, t.reg 5#4], five t.flags)) =
    some ([0xFFFA#16, 0xFFFF#16], [false, true, false, false, false]) := by decide

/-- A22. -/
theorem test_dvu :
    view (.dvu 7#3 2#4 (.reg 4#4)) (withRegs [(2#4, 0x64#16), (4#4, 0x7#16)])
      (fun t => ([t.reg 2#4, t.reg 3#4], five t.flags)) =
    some ([0xE#16, 0x2#16], [false, false, true, false, false]) := by decide

/-- A27 to A31: both values of SDIV_MODE. -/
theorem test_signed_division : [SDivMode.trunc, .floor].map (fun m =>
      [(-7, 2), (7, -2), (-100, 10)].map fun x => (signedQuotient m x.1 x.2, signedRemainder m x.1 x.2)) =
    [[(-3, -1), (-3, 1), (-10, 0)], [(-4, 1), (-4, -1), (-10, 0)]] := by decide

/-- A32. -/
theorem test_dvs_zero : view (.dvs 7#3 2#4 (.reg 4#4)) (withRegs [(2#4, 1#16)]) (fun t => (t.reg 2#4, t.status)) =
    some (1#16, .halted .divZero) := by decide

/-- A34. -/
theorem test_xor_keeps_cf_vf :
    view (.xor 7#3 1#4 (.reg 1#4)) ((withRegs [(1#4, 0xABCD#16)]).setFlags (mkFlags false false false true true))
      (fun t => ([t.reg 1#4], five t.flags)) =
    some ([0x0#16], [true, false, false, true, true]) := by decide

/-- A36. -/
theorem test_and :
    view (.and 7#3 1#4 (.imm 0xF0#16)) (withRegs [(1#4, 0x1234#16)])
      (fun t => ([t.reg 1#4], five t.flags)) =
    some ([0x30#16], [false, false, false, false, false]) := by decide

/-- A37. -/
theorem test_orr :
    view (.orr 7#3 1#4 (.reg 2#4)) (withRegs [(1#4, 0x8000#16), (2#4, 0x1#16)])
      (fun t => ([t.reg 1#4], five t.flags)) =
    some ([0x8001#16], [false, true, false, false, false]) := by decide

/-- A39. -/
theorem test_shl_0 :
    view (.shl 7#3 1#4 (.reg 2#4)) ((withRegs [(1#4, 0x1234#16)]).setFlags (mkFlags false false false true false))
      (fun t => ([t.reg 1#4], five t.flags)) =
    some ([0x1234#16], [false, false, true, true, false]) := by decide

/-- A41. -/
theorem test_shl_16 :
    view (.shl 7#3 1#4 (.reg 2#4)) (withRegs [(1#4, 0xFFFF#16), (2#4, 0x10#16)])
      (fun t => ([t.reg 1#4], five t.flags)) =
    some ([0x0#16], [true, false, false, false, false]) := by decide

/-- A46. -/
theorem test_sru_16 :
    view (.sru 7#3 1#4 (.reg 2#4)) (withRegs [(1#4, 0x8000#16), (2#4, 0x10#16)])
      (fun t => ([t.reg 1#4], five t.flags)) =
    some ([0x0#16], [true, false, false, true, false]) := by decide

/-- A47. -/
theorem test_sru_17 :
    view (.sru 7#3 1#4 (.reg 2#4)) (withRegs [(1#4, 0x8000#16), (2#4, 0x11#16)])
      (fun t => ([t.reg 1#4], five t.flags)) =
    some ([0x0#16], [true, false, false, false, false]) := by decide

/-- A48. -/
theorem test_srs_1 :
    view (.srs 7#3 1#4 (.imm 1#16)) (withRegs [(1#4, 0x8001#16)])
      (fun t => ([t.reg 1#4], five t.flags)) =
    some ([0xC000#16], [false, true, false, true, false]) := by decide

/-- A51. -/
theorem test_srs_17 :
    view (.srs 7#3 1#4 (.reg 2#4)) (withRegs [(1#4, 0x8000#16), (2#4, 0x11#16)])
      (fun t => ([t.reg 1#4], five t.flags)) =
    some ([0xFFFF#16], [false, true, false, true, false]) := by decide

/-- A54. -/
theorem test_mov :
    view (.mov 7#3 1#4 (.imm 0x1234#16)) (withRegs [])
      (fun t => ([t.reg 1#4], five t.flags)) =
    some ([0x1234#16], [false, false, true, false, false]) := by decide

/-- C7. -/
theorem test_cmp :
    view (.cmp 7#3 1#4 (.reg 2#4)) (withRegs [(1#4, 0x7FFF#16), (2#4, 0x8000#16)])
      (fun t => ([t.reg 1#4], five t.flags)) =
    some ([0x7FFF#16], [false, true, false, false, true]) := by decide

/-- I1. -/
theorem test_inc_8 :
    view (.inc 7#3 1#4 7#4) (withRegs [(1#4, 0xFFFC#16)])
      (fun t => ([t.reg 1#4], five t.flags)) =
    some ([0x4#16], [false, false, true, true, false]) := by decide

/-- I5. -/
theorem test_inc_minus_1 :
    view (.inc 7#3 1#4 15#4) (withRegs [(1#4, 0x8000#16)])
      (fun t => ([t.reg 1#4], five t.flags)) =
    some ([0x7FFF#16], [false, false, true, true, true]) := by decide

/-- I10: conditional, so no flag is written. -/
theorem test_inc_cs :
    view (.inc 5#3 1#4 0#4) ((withRegs [(1#4, 0x5#16)]).setFlags (mkFlags false false false true false))
      (fun t => ([t.reg 1#4], five t.flags)) =
    some ([0x6#16], [false, false, false, true, false]) := by decide

/-- B2. -/
theorem test_bra :
    view (.bra 7#3 1#4 (.reg 2#4)) (withRegs [(1#4, 0x1#16), (2#4, 0x2000#16)])
      (fun t => ([t.reg 14#4, t.reg 15#4], five t.flags)) =
    some ([0x2000#16, 0x1#16], [false, false, false, false, false]) := by decide

/-- B8. -/
theorem test_brr :
    view (.brr 7#3 0xFFFD#16) (withRegs [(14#4, 0x1003#16)])
      (fun t => ([t.reg 14#4], five t.flags)) =
    some ([0x1000#16], [false, false, false, false, false]) := by decide

/-- B9. -/
theorem test_brr_not_taken :
    view (.brr 1#3 0x10#16) ((withRegs [(14#4, 0x1003#16)]).setFlags (mkFlags true false false false false))
      (fun t => ([t.reg 14#4], five t.flags)) =
    some ([0x1003#16], [true, false, false, false, false]) := by decide

/-- B14: the target is the old `RA`. -/
theorem test_fca_ra :
    view (.fca 7#3 15#4 (.reg 12#4)) (withRegs [(14#4, 0x1002#16), (12#4, 0x2000#16)])
      (fun t => ([t.reg 12#4, t.reg 14#4], five t.flags)) =
    some ([0x1002#16, 0x2000#16], [false, false, false, false, false]) := by decide

/-- B16. -/
theorem test_fcr :
    view (.fcr 7#3 0xFFFD#16) (withRegs [(14#4, 0x1006#16), (15#4, 0x1#16)])
      (fun t => ([t.reg 12#4, t.reg 13#4, t.reg 14#4], five t.flags)) =
    some ([0x1006#16, 0x1#16, 0x1003#16], [false, false, false, false, false]) := by decide

/-- I13. -/
theorem test_nop :
    view (.nop 7#3) ((withRegs [(14#4, 0x1001#16)]).setFlags (mkFlags true true true true true))
      (fun t => ([t.reg 14#4], five t.flags)) =
    some ([0x1001#16], [true, true, true, true, true]) := by decide

/-- I15 to I19, X11, X12: the halts. -/
theorem test_halts : [Instr.hlt 7#3, .hlt 0#3, .bpt 7#3, .reserved0E 7#3, .reserved0F 0#3, .reservedPrefixC3,
      .reservedPrefixC4 0#2, .reservedPrefixC8 7#3].map (fun i => view i State.reset (·.status)) =
    [some (.halted .instruction), some .running, some (.halted .breakpoint), some (.halted .illegal),
      some (.halted .illegal), some (.halted .illegal), some (.halted .illegal), some (.halted .illegal)] := by
  decide

/-- P8, whatever the environment answers: the byte handed out and the flags but CF. -/
theorem test_wrb : view (.wrb 7#3 15#4 (.imm 0x80#8)) State.reset
      (fun t => (t.ports.map fun e => match e with
        | .write port byte _ => (port, byte)
        | .read port byte _ => (port, byte), t.flags.zf, t.flags.sf, t.flags.pf)) =
    some ([(15#4, 0x80#8)], false, false, true) := by decide

/-- P5: a false condition makes no event. -/
theorem test_rdb_not_taken : view (.rdb 0#3 3#4 5#4) (withRegs [(3#4, 0x1234#16)])
    (fun t => (t.reg 3#4, t.ports)) = some (0x1234#16, []) := by decide

/-! ### Memory: the environment T of 95_test_vectors.md, as far as the rows need it -/

/-- Pages 20, 21, 2F readable and writable, 2C split, FF and 00 readable in 22 and 23; page 30 mapped but
denied. -/
def envT (rs : List (RegNum × Word)) (bytes : List (Nat × List Byte)) : State :=
  storing (withRegs rs) ([(0xFC00, [0x23#8]), (0xFC42, [0x10#8]), (0xFC80, [0x20#8, 0x20#8]),
    (0xFC84, [0x21#8, 0x21#8]), (0xFCB0, [0x40#8, 0x41#8, 0x42#8]), (0xFCBC, [0x2F#8, 0x2F#8]),
    (0xFCC0, [0x30#8, 0x30#8]), (0xFFFC, [0x22#8]), (0x0110, [4#8]), (0x0120, [4#8, 4#8, 4#8, 4#8]),
    (0x012F, [4#8]), (0x0140, [4#8, 4#8, 4#8])] ++ bytes)

/-- L2: unaligned, across two pages. -/
theorem test_ldw_across : view (.ldw 7#3 1#4 (.imm 0x20FF#16)) (envT [] [(0x20FF, [0xCD#8, 0xAB#8])])
    (fun t => (t.reg 1#4, five t.flags)) = some (0xABCD#16, [false, true, false, false, false]) := by decide
/-- L3: the address wraps. -/
theorem test_ldw_wrap : view (.ldw 7#3 1#4 (.reg 2#4))
    (envT [(2#4, 0xFFFF#16)] [(0x22FF, [0x11#8]), (0x2300, [0x80#8])]) (·.reg 1#4) = some 0x8011#16 := by decide
/-- L7. -/
theorem test_stw_across : view (.stw 7#3 2#4 (.imm 0x1234#16)) (envT [(2#4, 0x20FF#16)] [])
    (fun t => (t.physRead 0x20FF#16, t.physRead 0x2100#16)) = some (0x34#8, 0x12#8) := by decide
/-- L16: the first byte stays written. -/
theorem test_stw_denied : view (.stw 7#3 1#4 (.imm 0x1234#16)) (envT [(1#4, 0x2FFF#16)] [])
    (fun t => (t.physRead 0x2FFF#16, t.status)) = some (0x34#8, .halted .doubleFault) := by decide
/-- L8: zero-extended. -/
theorem test_ldb : view (.ldb 7#3 1#4 (.imm 0x2001#16)) (envT [] [(0x2001, [0x80#8])])
    (fun t => (t.reg 1#4, five t.flags)) = some (0x80#16, [false, false, true, false, false]) := by decide
/-- L12: the write goes to the write page. -/
theorem test_stb_split : view (.stb 7#3 1#4 (.imm 0xAA#8)) (envT [(1#4, 0x2C10#16)] [])
    (fun t => (t.physRead 0x4010#16, t.physRead 0x4110#16)) = some (0#8, 0xAA#8) := by decide
/-- K6: the pointer register stores its decremented value. -/
theorem test_psh_pointer : view (.psh 7#3 0x0802#16) (envT [(1#4, 0xAAAA#16), (11#4, 0x3000#16)] [])
    (fun t => (t.reg 11#4, memReadWord t.mem 0x2FFC#16, memReadWord t.mem 0x2FFE#16)) =
    some (0x2FFC#16, 0xAAAA#16, 0x2FFC#16) := by decide
/-- K10: the second slot is denied, the first stays written, `SP` stays. -/
theorem test_psh_denied : view (.psh 7#3 6#16)
    (envT [(1#4, 0x1111#16), (2#4, 0x2222#16), (11#4, 0x3002#16)] [])
    (fun t => (t.reg 11#4, memReadWord t.mem 0x2FFE#16, t.status)) =
    some (0x3002#16, 0x1111#16, .halted .doubleFault) := by decide
/-- K7: the pointer in the set ends as the loaded value + 4. -/
theorem test_pop_pointer : view (.pop 7#3 0x0802#16)
    (envT [(11#4, 0x2FFC#16)] [(0x2FFC, [0xAA#8, 0xAA#8, 0x00#8, 0x20#8])])
    (fun t => (t.reg 1#4, t.reg 11#4)) = some (0xAAAA#16, 0x2004#16) := by decide
/-- K8: return through the stack. -/
theorem test_pop_pc : view (.pop 7#3 0xC000#16)
    (envT [(11#4, 0x2FFC#16)] [(0x2FFC, [0x00#8, 0x20#8, 0x01#8, 0x00#8])])
    (fun t => (t.pc, t.dpc, t.reg 11#4)) = some (0x2000#16, 1#16, 0x3000#16) := by decide

/-! ### Steps -/

/-- A view of the state after `n` steps. -/
def after {α : Type} (n : Nat) (s : State) (f : State → α) : Option α :=
  match n with
  | 0 => some (f s)
  | n + 1 =>
    match step s with
    | .next t => after n t f
    | _ => none

/-- Code at 0x1000. -/
def coded (rs : List (RegNum × Word)) (code : List Byte) : State :=
  storing (withRegs ((14#4, 0x1000#16) :: rs)) [(0xFC42, [0x10#8]), (0x0110, [4#8]), (0x1000, code)]

/-- X5: `DECF.PS R3`, three bytes of which two are prefixes. -/
theorem test_step_decf_ps : after 3 (coded [(3#4, 1#16)] [0xC1#8, 0xC0#8, 0x3C#8, 0x3F#8])
    (fun t => (t.reg 3#4, t.pc, five t.flags, t.progress)) =
    some (0#16, 0x1004#16, [true, false, false, true, false], none) := by decide
/-- X7: of two `DR` the last counts. -/
theorem test_step_dr_dr : after 3 (coded [(1#4, 3#16), (2#4, 4#16)] [0xD3#8, 0xD4#8, 0xE0#8, 0x12#8])
    (fun t => (t.reg 1#4, t.reg 3#4, t.reg 4#4, t.pc)) = some (3#16, 0#16, 7#16, 0x1004#16) := by decide
/-- I14: with `DPC = 3` the `PC` advances by 4. -/
theorem test_step_dpc : after 1 (coded [(15#4, 3#16)] [0xFF#8]) (·.pc) = some 0x1004#16 := by decide
/-- M4: the next fetch has no page and no handler; `PC` is the faulting address. -/
theorem test_step_fetch_fault : after 2 (coded [] [0xF4#8, 0x0F#8, 0x00#8, 0x50#8])
    (fun t => (t.pc, t.status)) = some (0x5000#16, .halted .unmapped) := by decide
/-- R212: in the exception context only the data access of an `EM` instruction is translated. -/
theorem test_em : (view .em { State.reset with ctx := { State.reset.ctx with flags :=
    { State.reset.flags with mf := true } } } fun t => [Kind.read, .write, .execute].map t.mmuOn) =
    some [true, true, false] := by decide
/-- The word of `ADD R1, R2` placed after reset runs at once. -/
theorem test_withFetchWord : after 1 (State.reset.withFetchWord 16 0x12E0)
    (fun t => (t.pc, t.flags.zf)) = some (2#16, true) := by decide

/-! ### Page faults: the worked example R265 -/

/-- The exception area of the spec's programs 5 and 6. -/
def area : ExcArea := ⟨0x0E00#16, 0x0E00#16, 0x0E20#16⟩

/-- The thread of R265 after its fetch, `LDW R1, [R2]` in progress, with ZF and CF set. -/
def faulting : State :=
  ((storing (withRegs [(2#4, 0x2CFF#16), (14#4, 0x1002#16)])
      [(0xFCB0, [0x40#8, 0#8, 0#8, 0x50#8]), (0xFCB4, [0#8, 0#8, 0#8, 0x50#8]), (0x0140, [4#8]),
        (0x40FF, [0x34#8])]).setFlags
    (mkFlags true false false true false)).setProgress
      (some { startPc := 0x1000#16, xc := false, tf := false, em := false, dr := none })

/-- What is suspended: the low byte is read, the high byte is not. -/
def faultWork : Work := .data (.loadWord 1#4 true) [0x34#8] ⟨.read, 0x2D00#16, 0#8⟩ []

/-- The handler of R265 entered. -/
def entered : State := faulting.enterHandler area 0x2D00#16 .read 0x50#8 faultWork

/-- The handler's arguments and the saved area (R265). -/
theorem test_handler_entry : (List.range 16).map (fun n => entered.reg (BitVec.ofNat 4 n)) =
      [0#16, 0xFCB4#16, 0x2D00#16, 0#16, 0x0E00#16, 0x1002#16, 0#16, 0#16, 0#16, 0#16, 0#16, 0x0E00#16,
        0x0E20#16, 0#16, 0x5000#16, 0#16] ∧
    [0#16, 2#16, 14#16].map (fun n => memReadWord entered.mem (0x0E00#16 + 2#16 * n)) =
      [0#16, 0x2CFF#16, 0x1000#16] ∧
    entered.flags = { mkFlags false false false false false with mf := true } := by decide

/-- A view of where a return leads. -/
def settledView {α : Type} (x : Fetched) (f : State → α) : Option α :=
  match x with
  | .settled s => some (f s)
  | .run _ _ => none

/-- The thread that was suspended. -/
def suspendedThread : Suspended :=
  ⟨faulting.ctx, faulting.current, faultWork⟩

/-- R265, continued: the high byte is read at the returned address 0x4100. -/
theorem test_handler_continue : settledView
    ((((storing entered [(0xFCB4, [0x41#8]), (0x4100, [0x12#8]), (0x0141, [4#8])]).setReg 2#4
      0x4100#16).afterHandler area suspendedThread))
    (fun t => (t.reg 1#4, t.pc, five t.flags, t.flags.mf, t.suspended.isSome, t.progress.isSome)) =
    some (0x1234#16, 0x1002#16, [false, false, true, true, false], false, false, false) := by decide

/-- R265, marked complete: the load is dropped. -/
theorem test_handler_complete : settledView
    (((storing entered [(0x0E00, [0x01#8, 0x00#8, 0xEF#8, 0xBE#8])]).afterHandler area suspendedThread))
    (fun t => (t.reg 1#4, t.pc, five t.flags, t.flags.mf)) =
    some (0xBEEF#16, 0x1002#16, [true, false, false, true, false], false) := by decide

/-! ### Witnesses: states and operands that meet the hypotheses of the statements -/

/-- `DecodeOfEncode`, `EncodeOfDecode`: an instruction of every format, directly after `XC` and not. -/
theorem witness_DecodeOfEncode :
    (Instr.add 7#3 15#4 (.reg 14#4)).wf false = true ∧ (Instr.add 6#3 0#4 (.imm 0xFFFF#16)).wf true = true ∧
      (Instr.stb 0#3 15#4 (.imm 0xFF#8)).wf false = true ∧ (Instr.inc 5#3 1#4 15#4).wf false = true ∧
      (Instr.psh 6#3 0xFFFF#16).wf true = true ∧ (Instr.dr 15#4).wf false = true := by decide

theorem witness_EncodeOfDecode :
    decode false [0xE0#8, 0xFE#8, 0x55#8] = .ok (.add 7#3 15#4 (.reg 14#4), [0x55#8]) ∧
      decode true [0xC0#8, 0x0F#8, 0xFF#8, 0xFF#8] = .ok (.add 6#3 0#4 (.imm 0xFFFF#16), []) ∧
      decode false [0xDF#8] = .ok (.dr 15#4, []) := by decide

/-- A state in which `OD` holds: the instruction in progress has an `XC` prefix. -/
def afterXcState : State :=
  (State.reset.setFlags (mkFlags false false true false false)).setProgress
    (some { startPc := 0#16, xc := true, tf := false, em := false, dr := some 0#4 })

/-- The condition holds, with flags written and not, with the default destination and with `R0`: what the
result statements of the instructions ask of the state (`AddResult`, `SubResult`, `CmpResult`, `MluResult`,
`MlsResult`, `BitwiseResults`, `ShlResult`, `SruResult`, `SrsResult`, `MovResult`, `IncResult`, `BraResult`,
`BrrResult`, `FcaResult`, `FcrResult`, `RdbResult`, `WrbResult`). -/
theorem witness_results : State.reset.holds 7#3 = true ∧ State.reset.wf 7#3 = true ∧
    State.reset.rd 9#4 = 9#4 ∧ afterXcState.holds 6#3 = true ∧ afterXcState.wf 6#3 = false ∧
    afterXcState.rd 9#4 = 0#4 := by decide
theorem witness_AddResult : State.reset.holds 7#3 = true ∧ afterXcState.holds 6#3 = true := by decide
theorem witness_SubResult : State.reset.holds 7#3 = true ∧ afterXcState.holds 6#3 = true := by decide
theorem witness_CmpResult : State.reset.holds 7#3 = true ∧ afterXcState.holds 6#3 = true := by decide
theorem witness_MluResult : State.reset.holds 7#3 = true ∧ afterXcState.holds 6#3 = true := by decide
theorem witness_MlsResult : State.reset.holds 7#3 = true ∧ afterXcState.holds 6#3 = true := by decide
theorem witness_BitwiseResults : State.reset.holds 7#3 = true ∧ afterXcState.holds 6#3 = true := by decide
theorem witness_ShlResult : State.reset.holds 7#3 = true ∧ afterXcState.holds 6#3 = true := by decide
theorem witness_SruResult : State.reset.holds 7#3 = true ∧ afterXcState.holds 6#3 = true := by decide
theorem witness_SrsResult : State.reset.holds 7#3 = true ∧ afterXcState.holds 6#3 = true := by decide
theorem witness_MovResult : State.reset.holds 7#3 = true ∧ afterXcState.holds 6#3 = true := by decide
theorem witness_IncResult : State.reset.holds 7#3 = true ∧ afterXcState.holds 6#3 = true := by decide
theorem witness_BraResult : State.reset.holds 7#3 = true ∧ afterXcState.holds 6#3 = true := by decide
theorem witness_BrrResult : State.reset.holds 7#3 = true ∧ afterXcState.holds 6#3 = true := by decide
theorem witness_FcaResult : State.reset.holds 7#3 = true ∧ afterXcState.holds 6#3 = true := by decide
theorem witness_FcrResult : State.reset.holds 7#3 = true ∧ afterXcState.holds 6#3 = true := by decide
theorem witness_RdbResult : State.reset.holds 7#3 = true ∧ afterXcState.holds 6#3 = true := by decide
theorem witness_WrbResult : State.reset.holds 7#3 = true ∧ afterXcState.holds 6#3 = true := by decide

/-- `CompareRelations`: with `XC` the condition 7 is `EV` and no flag is written; `TF` makes it write. -/
theorem witness_CompareRelations : State.reset.holds 7#3 = true ∧ State.reset.wf 7#3 = true ∧
    (State.reset.setProgress (some { startPc := 0#16, xc := true, tf := true, em := false, dr := none })).wf
      6#3 = true ∧
    ((State.reset.setFlags (mkFlags false false true false false)).setProgress
      (some { startPc := 0#16, xc := true, tf := true, em := false, dr := none })).holds 6#3 = true := by
  decide

theorem witness_FalseConditionDoesNothing :
    condFieldOfInstr (.psh 0#3 0xFFFF#16) = some 0#3 ∧ State.reset.holds 0#3 = false ∧
      condFieldOfInstr (.hlt 5#3) = some 5#3 ∧ State.reset.holds 5#3 = false := by decide

/-- Each of the three clauses: an instruction of each column, with a next state that keeps MF. -/
theorem witness_FlagsOutsideColumnKept :
    (∃ t, exec (.bra 7#3 1#4 (.reg 2#4)) State.reset = .next t ∧ t.flags.mf = State.reset.flags.mf) ∧
    (∃ t, exec (.mov 7#3 1#4 (.reg 2#4)) State.reset = .next t ∧ t.flags.mf = State.reset.flags.mf) ∧
    (∃ t, exec (.sru 7#3 1#4 (.reg 2#4)) State.reset = .next t ∧ t.flags.mf = State.reset.flags.mf) ∧
    flagColumn (.bra 7#3 1#4 (.reg 2#4)) = .none ∧ flagColumn (.mov 7#3 1#4 (.reg 2#4)) = .zsp ∧
    flagColumn (.sru 7#3 1#4 (.reg 2#4)) = .zspc :=
  ⟨⟨_, rfl, by decide⟩, ⟨_, rfl, by decide⟩, ⟨_, rfl, by decide⟩, by decide, by decide, by decide⟩

theorem witness_PrefixEffects : State.reset.progress = none := by decide

theorem witness_DvuResult : State.reset.holds 7#3 = true ∧ State.reset.vy (.imm 0xFFFF#16) ≠ 0#16 := by decide

theorem witness_DvsResult : State.reset.holds 7#3 = true ∧ State.reset.vy (.imm 0xFFFF#16) ≠ 0#16 := by decide

theorem witness_DivisionByZeroHalts : State.reset.holds 7#3 = true ∧ State.reset.vy (.reg 0#4) = 0#16 := by
  decide

/-! Loads, stores and the stack, in the environment T. -/

/-- `AccessTranslation`: every clause, by address and kind. -/
theorem witness_AccessTranslation :
    (envT [] []).flags.mf = false ∧ (envT [] []).locate 0xFFFF#16 .read = .frame 0x22FF#16 ∧
    (envT [] []).locate 0xFF00#16 .write = .pageFault ∧ (envT [] []).locate 0x3000#16 .write = .denied ∧
    faulting.flags.mf = false ∧ entered.flags.mf = true ∧ entered.current.em = false ∧
    entered.locate 0x40FF#16 .read = .frame 0x40FF#16 ∧ entered.locate 0x5000#16 .execute = .denied ∧
    (entered.setProgress (some ⟨0x5000#16, false, false, true, none⟩)).locate 0x2CFF#16 .read =
      .frame 0x40FF#16 := by decide

theorem witness_LdwResult : (envT [] []).holds 7#3 = true ∧
    (envT [] []).locate ((envT [] []).vy (.imm 0xFFFF#16)) .read = .frame 0x22FF#16 ∧
    (envT [] []).locate ((envT [] []).vy (.imm 0xFFFF#16) + 1#16) .read = .frame 0x2300#16 := by decide

theorem witness_LdbResult : (envT [] []).holds 7#3 = true ∧
    (envT [] []).locate ((envT [] []).vy (.imm 0xFFFF#16)) .read = .frame 0x22FF#16 := by decide

/-- The state of L7. -/
def storeState : State := envT [(2#4, 0x20FF#16)] []

theorem witness_StwResult : Memory.wf storeState.mem ∧ storeState.holds 7#3 = true ∧
    storeState.locate (storeState.reg 2#4) .write = .frame 0x20FF#16 ∧
    (storeState.physWrite 0x20FF#16 (BitVec.ofNat 8 (storeState.vy (.imm 0x1234#16)).toNat)).locate
      (storeState.reg 2#4 + 1#16) .write = .frame 0x2100#16 := by decide

theorem witness_StbResult : Memory.wf storeState.mem ∧ storeState.holds 7#3 = true ∧
    storeState.locate (storeState.reg 2#4) .write = .frame 0x20FF#16 := by decide

theorem witness_StoredWordIsLoaded : Memory.wf storeState.mem ∧ storeState.holds 7#3 = true ∧
    storeState.locate (storeState.reg 2#4) .write = .frame 0x20FF#16 ∧
    (storeState.physWrite 0x20FF#16 (BitVec.ofNat 8 (storeState.vy (.imm 0x1234#16)).toNat)).locate
      (storeState.reg 2#4 + 1#16) .write = .frame 0x2100#16 ∧
    ∃ t, exec (.stw 7#3 2#4 (.imm 0x1234#16)) storeState = .next t ∧ t.holds 7#3 = true ∧
      t.locate (t.vy (.reg 2#4)) .read = .frame 0x20FF#16 ∧
      t.locate (t.vy (.reg 2#4) + 1#16) .read = .frame 0x2100#16 :=
  ⟨by decide, by decide, by decide, by decide, _, rfl, by decide, by decide, by decide⟩

theorem witness_OnlyStoresChangeMemory : (∀ cc rx vy, Instr.nop 7#3 ≠ .stw cc rx vy) ∧
    (∀ cc rx v8, Instr.nop 7#3 ≠ .stb cc rx v8) ∧ (∀ cc regs, Instr.nop 7#3 ≠ .psh cc regs) ∧
    ∃ t, exec (.nop 7#3) State.reset = .next t ∧ t.flags.mf = State.reset.flags.mf :=
  ⟨by simp, by simp, by simp, _, rfl, by decide⟩

/-- `RegisterSetMembers`: a member and none, at both ends. -/
theorem witness_RegisterSetMembers : members 0x8001#16 = [0#4, 15#4] := by decide

/-- The state of K1, with only R1 to push. -/
def stackState : State := envT [(1#4, 0xCAFE#16), (11#4, 0x3000#16)] []

theorem witness_PshResult : Memory.wf stackState.mem ∧ stackState.holds 7#3 = true ∧
    stackState.AllLocated (stackState.pushAccesses 2#16) [0x2FFE#16, 0x2FFF#16] ∧
    stackState.AllLocated (stackState.pushAccesses 0#16) [] :=
  ⟨by decide, by decide, ⟨by decide, by decide, trivial⟩, trivial⟩

/-- The state of `POP {R1, SP}`, row K7. -/
def popState : State := envT [(11#4, 0x2FFC#16)] []

theorem witness_PopResult : popState.holds 7#3 = true ∧
    popState.AllLocated (popState.popAccesses 0x0802#16) [0x2FFC#16, 0x2FFD#16, 0x2FFE#16, 0x2FFF#16] ∧
    popState.rd 11#4 ∈ members 0x0802#16 ∧ popState.rd 11#4 ∉ members 2#16 ∧
    popState.AllLocated (popState.popAccesses 2#16) [0x2FFC#16, 0x2FFD#16] :=
  ⟨by decide, ⟨by decide, by decide, by decide, by decide, trivial⟩, by decide, by decide,
    ⟨by decide, by decide, trivial⟩⟩

theorem witness_PopAfterPshRestores : Memory.wf stackState.mem ∧ stackState.holds 7#3 = true ∧
    stackState.AllLocated (stackState.pushAccesses 2#16) [0x2FFE#16, 0x2FFF#16] ∧
    [0x2FFE#16, 0x2FFF#16].Nodup ∧ stackState.rd 11#4 ∉ members 2#16 ∧
    ∃ t, exec (.psh 7#3 2#16) stackState = .next t ∧ t.rd 11#4 = stackState.rd 11#4 ∧
      t.holds 7#3 = true ∧ t.AllLocated (t.popAccesses 2#16) [0x2FFE#16, 0x2FFF#16] :=
  ⟨by decide, by decide, ⟨by decide, by decide, trivial⟩, by decide, by decide, _, rfl, by decide, by decide,
    ⟨by decide, by decide, trivial⟩⟩

theorem witness_ReturnAfterCall : State.reset.holds 7#3 = true ∧
    (∃ t, exec (.fca 7#3 0#4 (.imm 0x300#16)) State.reset = .next t ∧ t.progress = none) ∧
    ∃ t, exec (.fcr 7#3 0xFFFF#16) State.reset = .next t ∧ t.progress = none :=
  ⟨by decide, ⟨_, rfl, by decide⟩, _, rfl, by decide⟩

theorem witness_PortEventsOnlyGrow :
    (∃ t, step (coded [] [0xF8#8, 0x3F#8]) = .next t ∧ t.ports.length = 1) ∧
      ∃ t, step (coded [] [0xFF#8]) = .next t ∧ t.ports = [] :=
  ⟨⟨_, rfl, by decide⟩, _, rfl, by decide⟩

/-- `HaltingInstructions`: both halves. -/
theorem witness_HaltingInstructions : State.reset.holds 7#3 = true ∧
    ((∃ cc, Instr.reserved0E 6#3 = .reserved0E cc) ∨ (∃ cc, Instr.reserved0E 6#3 = .reserved0F cc) ∨
      Instr.reserved0E 6#3 = .reservedPrefixC3 ∨ (∃ n, Instr.reserved0E 6#3 = .reservedPrefixC4 n) ∨
      ∃ n, Instr.reserved0E 6#3 = .reservedPrefixC8 n) :=
  ⟨by decide, .inl ⟨_, rfl⟩⟩

/-! Page faults. -/

theorem witness_PageFaultEntersHandler : Memory.wf faulting.mem ∧ faulting.flags.mf = false ∧
    faulting.handlerPage 0x2D00#16 ≠ 0#8 := by decide

theorem witness_PageFaultHalts : State.reset.handlerPage 0xFFFF#16 = 0#8 ∧
    entered.handlerPage 0x2D00#16 ≠ 0#8 ∧ entered.flags.mf = true := by decide

/-- What `DataPageFaultIsTaken` and `DeniedAccessHalts` assume of one access: it comes after `before`, which can
be made at `pas`, and is located as given in the state they leave. -/
def Stopping (i : Instr) (s : State) (before : List ByteAccess) (pas : List Word) (l : Located) : Prop :=
  Memory.wf s.mem ∧ (∃ cc, condFieldOfInstr i = some cc ∧ s.holds cc = true) ∧ s.AllLocated before pas ∧
    ∃ op x todo, s.dataAccesses i = some (op, before ++ x :: todo) ∧
      (s.made [] before pas).1.locate x.addr x.kind = l

/-- `DataPageFaultIsTaken`, for each instruction at its first access and at a later one, on either side of
a page boundary. -/
theorem witness_DataPageFaultIsTaken :
    Stopping (.ldb 7#3 1#4 (.imm 0x2200#16)) (envT [] []) [] [] .pageFault ∧
    Stopping (.ldw 7#3 1#4 (.imm 0x22FF#16)) (envT [] []) [] [] .pageFault ∧
    Stopping (.ldw 7#3 1#4 (.imm 0x21FF#16)) (envT [] []) [⟨.read, 0x21FF#16, 0#8⟩] [0x21FF#16] .pageFault ∧
    Stopping (.stb 7#3 2#4 (.imm 0xAA#8)) (envT [] []) [] [] .pageFault ∧
    Stopping (.stw 7#3 2#4 (.imm 0x1234#16)) (envT [] []) [] [] .pageFault ∧
    Stopping (.stw 7#3 2#4 (.imm 0x1234#16)) (envT [(2#4, 0x21FF#16)] []) [⟨.write, 0x21FF#16, 0x34#8⟩]
      [0x21FF#16] .pageFault ∧
    Stopping (.psh 7#3 2#16) (envT [(11#4, 0x2400#16)] []) [] [] .pageFault ∧
    Stopping (.psh 7#3 6#16) (envT [(1#4, 0xCAFE#16), (11#4, 0x2202#16)] [])
      [⟨.write, 0x21FE#16, 0xFE#8⟩, ⟨.write, 0x21FF#16, 0xCA#8⟩] [0x21FE#16, 0x21FF#16] .pageFault ∧
    Stopping (.pop 7#3 2#16) (envT [(11#4, 0x2200#16)] []) [] [] .pageFault ∧
    Stopping (.pop 7#3 6#16) (envT [(11#4, 0x21FE#16)] [])
      [⟨.read, 0x21FE#16, 0#8⟩, ⟨.read, 0x21FF#16, 0#8⟩] [0x21FE#16, 0x21FF#16] .pageFault := by
  refine ⟨?_, ?_, ?_, ?_, ?_, ?_, ?_, ?_, ?_, ?_⟩ <;>
    exact ⟨by decide, ⟨_, rfl, by decide⟩, by repeat' (first | decide | constructor), _, _, _, rfl, by decide⟩

/-- `DeniedAccessHalts`, for each instruction at its first access and at a later one; the push is vector K10. -/
theorem witness_DeniedAccessHalts :
    Stopping (.ldb 7#3 1#4 (.imm 0x3000#16)) (envT [] []) [] [] .denied ∧
    Stopping (.ldw 7#3 1#4 (.imm 0x3000#16)) (envT [] []) [] [] .denied ∧
    Stopping (.ldw 7#3 1#4 (.imm 0x2FFF#16)) (envT [] []) [⟨.read, 0x2FFF#16, 0#8⟩] [0x2FFF#16] .denied ∧
    Stopping (.stb 7#3 2#4 (.imm 0xAA#8)) (envT [(2#4, 0x30FF#16)] []) [] [] .denied ∧
    Stopping (.stw 7#3 2#4 (.imm 0x1234#16)) (envT [(2#4, 0x30FF#16)] []) [] [] .denied ∧
    Stopping (.stw 7#3 2#4 (.imm 0x1234#16)) (envT [(2#4, 0x2FFF#16)] []) [⟨.write, 0x2FFF#16, 0x34#8⟩]
      [0x2FFF#16] .denied ∧
    Stopping (.psh 7#3 2#16) (envT [(11#4, 0x3100#16)] []) [] [] .denied ∧
    Stopping (.psh 7#3 6#16) (envT [(1#4, 0x1111#16), (2#4, 0x2222#16), (11#4, 0x3002#16)] [])
      [⟨.write, 0x2FFE#16, 0x11#8⟩, ⟨.write, 0x2FFF#16, 0x11#8⟩] [0x2FFE#16, 0x2FFF#16] .denied ∧
    Stopping (.pop 7#3 2#16) (envT [(11#4, 0x3000#16)] []) [] [] .denied ∧
    Stopping (.pop 7#3 6#16) (envT [(11#4, 0x2FFE#16)] [])
      [⟨.read, 0x2FFE#16, 0#8⟩, ⟨.read, 0x2FFF#16, 0#8⟩] [0x2FFE#16, 0x2FFF#16] .denied := by
  refine ⟨?_, ?_, ?_, ?_, ?_, ?_, ?_, ?_, ?_, ?_⟩ <;>
    exact ⟨by decide, ⟨_, rfl, by decide⟩, by repeat' (first | decide | constructor), _, _, _, rfl, by decide⟩

/-- `FetchStopsAtMissingByte`: nothing fetched and no page; one byte fetched and a page that is denied. -/
theorem witness_FetchStopsAtMissingByte :
    State.reset.Fetching ∧ State.reset.CodeAt State.reset.pc [] ∧
    decode State.reset.current.xc [] = .error .missingOpcodeByte ∧
    State.reset.locate (afterBytes State.reset.pc State.reset.dpc 0) .execute = .pageFault ∧
    ∃ s : State, s.Fetching ∧ s.CodeAt s.pc [0xE0#8] ∧
      decode s.current.xc [0xE0#8] = .error .missingRegpairByte ∧
      s.locate (afterBytes s.pc s.dpc 1) .execute = .denied :=
  ⟨⟨rfl, by intro t h; cases h⟩, trivial, by decide, by decide,
    storing (withRegs [(14#4, 0x10FF#16)])
      [(0xFC42, [0x10#8]), (0xFC46, [0x11#8]), (0x0110, [4#8]), (0x10FF, [0xE0#8])],
    ⟨by decide, by intro t h; cases h⟩, ⟨⟨0x10FF#16, by decide, by decide⟩, trivial⟩, by decide, by decide⟩

/-- The suspended instruction of a thread whose live `PC` is `pc`. -/
def suspendedAt (pc startPc : Word) (work : Work) : Suspended :=
  ⟨Context.zero.setReg 14#4 pc, { startPc := startPc, xc := false, tf := false, em := false, dr := none }, work⟩

/-- A handler that has come to its return address, wherever that is, with `R2` given. -/
def returning (m : List Host.Cell) (ret : Word) (t : Suspended) : State :=
  { State.reset with
    ctx := { ((Context.zero.setReg 2#4 ret).setReg 14#4 Config.excArea.returnAddr) with flags :=
      { State.reset.flags with mf := true } }
    mem := m
    suspended := some t }

theorem returning_atHandlerReturn (m : List Host.Cell) (ret : Word) (t : Suspended) :
    (returning m ret t).atHandlerReturn Config.excArea = true := by
  simp only [State.atHandlerReturn, Bool.and_eq_true, beq_iff_eq]
  refine ⟨⟨rfl, rfl⟩, ?_⟩
  show ((Context.zero.setReg 2#4 ret).setReg 14#4 Config.excArea.returnAddr).reg 14#4 = _
  rw [Context.reg_setReg]; simp

/-- `CompletedHandlerReturn`, its second case: the saved `PC` was changed. Memory reads 0, so saved words
are 0. -/
theorem witness_CompletedHandlerReturn :
    (returning [] 0#16 (suspendedAt 0#16 1#16 faultWork)).status = .running ∧
    (∃ t, (returning [] 0#16 (suspendedAt 0#16 1#16 faultWork)).suspended = some t ∧ t.progress.startPc = 1#16) ∧
    (returning [] 0#16 (suspendedAt 0#16 1#16 faultWork)).atHandlerReturn Config.excArea = true ∧
    memReadWord (returning [] 0#16 (suspendedAt 0#16 1#16 faultWork)).mem (Config.excArea.savedRegs + 28#16) ≠ 1#16 :=
  ⟨rfl, ⟨_, rfl, rfl⟩, returning_atHandlerReturn _ _ _, by
    show wordOfBytes 0#8 0#8 ≠ 1#16
    decide⟩

/-- `CompletedHandlerReturn`, its first case: `saved_regs[ZERO]` is not 0. -/
theorem witness_CompletedHandlerReturn_marked :
    memReadWord (returning (memWriteWord [] Config.excArea.savedRegs 1#16) 0#16
      (suspendedAt 0#16 0#16 faultWork)).mem Config.excArea.savedRegs ≠ 0#16 := by
  show memReadWord (memWriteWord [] Config.excArea.savedRegs 1#16) Config.excArea.savedRegs ≠ 0#16
  generalize Config.excArea.savedRegs = w
  have h1 : (w + 1#16).toNat ≠ w.toNat := by
    intro h
    have := BitVec.eq_of_toNat_eq h
    bv_omega
  have hw : Memory.wf ([] : List Host.Cell) := by decide
  unfold memReadWord memWriteWord
  rw [memRead_memWrite_ne _ _ _ _ (Ne.symm h1), memRead_memWrite_same _ _ _ hw]
  intro h
  have := congrArg firstByte h
  rw [firstByte_wordOfBytes] at this
  revert this
  decide

/-- Memory with nothing but table entries: page 0x20 and 0x21 readable and writable, page 0x30 mapped but denied,
page 0 executable there, page 0x10 allowed. -/
def tables : List Host.Cell :=
  [(0x0110, 4#8), (0x0120, 4#8), (0x0121, 4#8), (0xFC02, 0x30#8), (0xFC80, 0x20#8), (0xFC81, 0x20#8),
    (0xFC84, 0x21#8), (0xFC85, 0x21#8), (0xFCC0, 0x30#8), (0xFCC1, 0x30#8)]

/-- The saved-register area lies outside the tables (R264), so it reads 0 there. -/
theorem tables_saved (n : Nat) (hn : n < 31) :
    memReadWord tables (Config.excArea.savedRegs + BitVec.ofNat 16 n) = 0#16 := by
  have hz : ∀ k < 32, memRead tables (Config.excArea.savedRegs + BitVec.ofNat 16 k).toNat = 0#8 := by
    intro k hk
    obtain ⟨h1, h2⟩ := savedArea_outside_tables (Config.excArea.savedRegs + BitVec.ofNat 16 k)
      (List.mem_map.2 ⟨k, List.mem_range.2 hk, rfl⟩)
    generalize Config.excArea.savedRegs + BitVec.ofNat 16 k = w at h1 h2
    have hout : ∀ q : Nat, (0x0110 ≤ q ∧ q < 0x0200 ∨ 0xFC02 ≤ q ∧ q < 0x10000) → q ≠ w.toNat := by
      simp only [Config.pageTableBase, Config.pageTableBytes, Config.patBase, Config.patBytes,
        BitVec.toNat_sub, BitVec.toNat_ofNat] at h1 h2
      have := w.isLt
      omega
    simp only [tables, memRead, Config.unlistedByte]
    rw [if_neg (hout _ (by omega)), if_neg (hout _ (by omega)), if_neg (hout _ (by omega)),
      if_neg (hout _ (by omega)), if_neg (hout _ (by omega)), if_neg (hout _ (by omega)),
      if_neg (hout _ (by omega)), if_neg (hout _ (by omega)), if_neg (hout _ (by omega)),
      if_neg (hout _ (by omega))]
  have h1 := hz (n + 1) (by omega)
  rw [BitVec.ofNat_add, ← BitVec.add_assoc] at h1
  unfold memReadWord
  rw [hz n (by omega), show ((1#16 : Word)) = BitVec.ofNat 16 1 from rfl, h1]
  decide

/-- `HandlerReturnContinues`: a handler that returns the allowed 0x1000, or 0x3000, which is denied. -/
theorem witness_HandlerReturnContinues (pc : Word) (work : Work) :
    (∀ ret : Word, (returning tables ret (suspendedAt pc 0#16 work)).status = .running ∧
      (returning tables ret (suspendedAt pc 0#16 work)).suspended = some (suspendedAt pc 0#16 work) ∧
      (returning tables ret (suspendedAt pc 0#16 work)).atHandlerReturn Config.excArea = true ∧
      ret = (returning tables ret (suspendedAt pc 0#16 work)).reg 2#4 ∧
      memReadWord (returning tables ret (suspendedAt pc 0#16 work)).mem Config.excArea.savedRegs = 0#16 ∧
      memReadWord (returning tables ret (suspendedAt pc 0#16 work)).mem
        (Config.excArea.savedRegs + 28#16) = (suspendedAt pc 0#16 work).progress.startPc) ∧
    (returning tables 0x1000#16 (suspendedAt pc 0#16 work)).physAllowed 0x1000#16 = true ∧
    (returning tables 0x3000#16 (suspendedAt pc 0#16 work)).physAllowed 0x3000#16 = false ∧
    Memory.wf tables := by
  refine ⟨fun ret => ⟨rfl, rfl, returning_atHandlerReturn _ _ _, ?_, ?_, tables_saved 28 (by decide)⟩,
    (by decide : ({ State.reset with mem := tables } : State).physAllowed 0x1000#16 = true),
    (by decide : ({ State.reset with mem := tables } : State).physAllowed 0x3000#16 = false), by decide⟩
  · show ret = ((Context.zero.setReg 2#4 ret).setReg 14#4 Config.excArea.returnAddr).reg 2#4
    rw [Context.reg_setReg, Context.reg_setReg]; simp
  · have := tables_saved 0 (by decide)
    rwa [show Config.excArea.savedRegs + BitVec.ofNat 16 0 = Config.excArea.savedRegs from
      BitVec.add_zero _] at this

/-- Only the tables and the mode say where a thread's access goes. -/
theorem locate_thread (b c : State) (hm : b.mem = c.mem) (hb : b.flags.mf = false) (hc : c.flags.mf = false)
    (a : Word) (k : Kind) : b.locate a k = c.locate a k := by
  simp only [State.locate, State.mmuOn, State.pageNumber, State.checked, State.physAllowed, State.physRead,
    hm, hb, hc]
  rfl

/-- `HandlerReturnContinues`, the clauses about data, for any `b` that the return leaves: the work's first access
made at 0x1000 (`x`), the accesses after it made at their pages, page-faulting, or denied. -/
theorem witness_HandlerReturnContinues_data (b : State) (hm : b.mem = tables) (hf : b.flags.mf = false) :
    (∀ x : ByteAccess, x.kind = .read → (b.access x 0x1000#16 []).1.AllLocated [] [] ∧
      (b.access x 0x1000#16 []).1.AllLocated [⟨.read, 0x2100#16, 0#8⟩] [0x2100#16] ∧
      (b.made [] [x] [0x1000#16]).1.locate 0x2200#16 .read = .pageFault ∧
      (b.made [] [x] [0x1000#16]).1.locate 0x3000#16 .read = .denied) ∧
    ∀ x : ByteAccess, x.kind = .write → x.byte = 0x12#8 → (b.access x 0x1000#16 []).1.AllLocated
        [⟨.write, 0x2100#16, 0x34#8⟩] [0x2100#16] ∧
      (b.made [] [x] [0x1000#16]).1.locate 0x2200#16 .write = .pageFault ∧
      (b.made [] [x] [0x1000#16]).1.locate 0x3000#16 .write = .denied := by
  have hl : ∀ (c : State) (m : List Host.Cell), c.mem = m → c.flags.mf = false → ∀ a k, c.locate a k =
      ({ State.reset with mem := m } : State).locate a k := fun c m h h' a k => locate_thread c _ h h' rfl a k
  refine ⟨fun x hx => ?_, fun x hx hy => ?_⟩
  · have hacc : (b.access x 0x1000#16 []).1 = b := by simp [State.access, hx]
    simp only [State.made, State.AllLocated, hacc, hl b _ hm hf]
    decide
  · have hacc : (b.access x 0x1000#16 []).1 = b.physWrite 0x1000#16 0x12#8 := by simp [State.access, hx, hy]
    simp only [State.made, State.AllLocated, hacc,
      hl (b.physWrite 0x1000#16 0x12#8) (memWrite tables 0x1000 0x12#8) (by rw [← hm]; rfl) hf]
    decide

/-- `HandlerReturnContinues`, the clauses about code: with the byte 0 that 0x1000 holds, `ADD R0, R0` becomes
complete, or begins, and its next byte is denied (live `PC` 0) or has no page (live `PC` 0x5000). -/
theorem witness_HandlerReturnContinues_code (b c : State) (hm : b.mem = tables) (hf : b.flags.mf = false)
    (hb : b.dpc = 0#16) (hc : c = b.setReg 14#4 (b.pc + 1#16 + b.dpc)) :
    b.physRead 0x1000#16 = 0#8 ∧ decode false ([0xE0#8] ++ 0#8 :: []) = .ok (.add 7#3 0#4 (.reg 0#4), []) ∧
    decode false ([] ++ 0#8 :: []) = .error .missingRegpairByte ∧ c.CodeAt c.pc [] ∧
    (b.pc = 0#16 → c.locate (afterBytes c.pc c.dpc 0) .execute = .denied) ∧
    (b.pc = 0x5000#16 → c.locate (afterBytes c.pc c.dpc 0) .execute = .pageFault) := by
  have hl : ∀ a, c.locate a .execute = ({ State.reset with mem := tables } : State).locate a .execute :=
    fun a => locate_thread _ _ (by rw [hc]; exact hm) (by rw [hc]; exact hf) rfl a _
  have hpc : c.pc = b.pc + 1#16 + b.dpc := by rw [hc]; exact State.reg_setReg_same _ _ _ (by decide)
  refine ⟨by rw [State.physRead, hm]; decide, by decide, by decide, trivial, fun h => ?_, fun h => ?_⟩ <;>
    rw [hl, afterBytes, hpc, hb, h] <;> decide

/-- The handler of `UnmarkedFaultFinishesLoad` at its end: it has allowed page 0x41 and returns 0x4100. -/
def loadWork : Work := .data (.loadByte 1#4 true) [] ⟨.read, 0x2D00#16, 0#8⟩ []

/-- From its entry a handler can come to a state that keeps the saved area and returns an allowed address: it
stores the allocation byte of page 0x41 and a byte there. -/
theorem exists_handlerEnd (e : State) (hm : Memory.wf e.mem) : ∃ h : State,
    (∀ pa ∈ savedArea area, h.physRead pa = e.physRead pa) ∧ h.physAllowed (h.reg 2#4) = true ∧
      h.physRead (h.reg 2#4) = 0x12#8 := by
  have hw : Memory.wf (e.physWrite 0x0141#16 4#8).mem := memWrite_wf _ _ _ (by decide) hm
  refine ⟨((e.physWrite 0x0141#16 4#8).physWrite 0x4100#16 0x12#8).setReg 2#4 0x4100#16, ?_, ?_, ?_⟩
  · intro pa hpa
    have hpa' : pa ≠ 0x4100#16 ∧ pa ≠ 0x0141#16 := by
      simp only [savedArea, area, List.mem_map, List.mem_range] at hpa
      obtain ⟨n, hn, rfl⟩ := hpa
      constructor <;> intro h <;> have := congrArg BitVec.toNat h <;>
        simp only [BitVec.toNat_add, BitVec.toNat_ofNat] at this <;> omega
    rw [State.physRead_setReg, State.physRead_physWrite_ne _ _ _ _ hpa'.1,
      State.physRead_physWrite_ne _ _ _ _ hpa'.2]
  · rw [State.reg_setReg, State.physAllowed_setReg]
    simp [State.physAllowed, State.physRead_physWrite _ _ _ _ hw, State.physRead_physWrite _ _ _ _ hm,
      Config.patBase, pageOf, Config.physBitmapEnforced]
  · rw [State.reg_setReg, State.physRead_setReg]
    simp [State.physRead_physWrite _ _ _ _ hw]

theorem enterHandler_wf (s : State) (va : Word) (work : Work) (hm : Memory.wf s.mem) :
    Memory.wf (s.enterHandler area va .read 0x50#8 work).mem := by
  rw [State.mem_enterHandler]; exact saveRegs_wf _ _ _ _ hm

theorem witness_UnmarkedFaultFinishesLoad : Memory.wf faulting.mem ∧ faulting.flags.mf = false ∧
    ∃ h : State, (∀ pa ∈ savedArea area, h.physRead pa =
        (faulting.enterHandler area 0x2D00#16 .read 0x50#8 loadWork).physRead pa) ∧
      h.physAllowed (h.reg 2#4) = true ∧ h.physRead (h.reg 2#4) = 0x12#8 := by
  have hf : Memory.wf faulting.mem := by decide
  exact ⟨hf, by decide, exists_handlerEnd _ (enterHandler_wf _ _ _ hf)⟩

/-- A state of the invariant whose next fetch enters a handler. -/
def fetchFaulting : State := State.reset.physWrite 0xFC03#16 0x50#8

theorem witness_StepKeepsInvariant : State.reset.Inv ∧ fetchFaulting.Inv ∧
    (∃ t, step State.reset = .next t ∧ t.flags.mf = false) ∧
    ∃ t, step fetchFaulting = .next t ∧ t.flags.mf = true := by
  refine ⟨⟨by decide, by decide, ?_, ?_, ?_⟩, ⟨by decide, by decide, ?_, ?_, ?_⟩, ⟨_, rfl, by decide⟩, _, rfl,
    by decide⟩
  all_goals first
    | (intro t h; cases h)
    | (intro h; exact absurd rfl h)

theorem witness_MfChangesOnlyByEntryAndReturn : (∃ t, step State.reset = .next t ∧ t.flags.mf = false) ∧
    (∃ t, step fetchFaulting = .next t ∧ t.flags.mf = true) ∧
    ∃ t, step (returning [] 0xFFFF#16 (suspendedAt 0#16 1#16 faultWork)) = .next t ∧ t.flags.mf = false := by
  refine ⟨⟨_, rfl, by decide⟩, ⟨_, rfl, by decide⟩, ((returning [] 0xFFFF#16 (suspendedAt 0#16 1#16 faultWork)).leaveHandler Config.excArea
    (suspendedAt 0#16 1#16 faultWork)).retire, step_settled _ _ rfl ?_, rfl⟩
  have hm : markedComplete Config.excArea [] 1#16 = true := by
    simp only [markedComplete, Bool.or_eq_true, bne_iff_ne]
    right
    show wordOfBytes 0#8 0#8 ≠ 1#16
    decide
  exact (State.advance_return _ _ rfl (returning_atHandlerReturn _ _ _)).trans
    (State.afterHandler_complete _ _ (suspendedAt 0#16 1#16 faultWork) hm)

theorem witness_StepRunsDecodedInstruction : (coded [] [0xE0#8, 0x12#8]).Fetching ∧
    decode (coded [] [0xE0#8, 0x12#8]).current.xc [0xE0#8, 0x12#8] = .ok (.add 7#3 1#4 (.reg 2#4), []) ∧
    (coded [] [0xE0#8, 0x12#8]).CodeAt (coded [] [0xE0#8, 0x12#8]).pc [0xE0#8, 0x12#8] :=
  ⟨⟨by decide, by intro t h; cases h⟩, by decide, ⟨0x1000#16, by decide, by decide⟩,
    ⟨0x1001#16, by decide, by decide⟩, trivial⟩

theorem witness_StepStopsOnlyWhenHalted : State.reset.status = .running ∧
    (State.reset.halt .illegal).status = .halted .illegal := by decide

end Sys2Proof.Tests
end

section
/-! PROOFS. The flag helper of a 16-bit result (10_state.md R31). -/

namespace Sys2Proof.Machine

/-- R31 on the flags alone: with `wf` the result decides ZF, SF and PF, without it nothing is written. -/
theorem Flags.withZSP_written (wf : Bool) (f : Flags) (v : Word) :
    ZSPWritten wf f (if wf then f.withZSP v else f) v := by
  cases wf with
  | true => exact ⟨f.withZSP_describe v, f.withZSP_cf v, f.withZSP_vf v⟩
  | false => exact rfl

/-- MF is no result flag: `setZSP` leaves it whether `wf` holds or not. -/
theorem State.mf_writeFlags_withZSP (s : State) (wf : Bool) (v : Word) :
    (s.writeFlags wf (s.flags.withZSP v)).flags.mf = s.flags.mf := by
  cases wf with
  | true => rw [State.writeFlags_true, State.flags_setFlags, Flags.withZSP_mf]
  | false => rw [State.writeFlags_false]

/-- Settles O6: the flags a guarded write leaves are those of `Flags.withZSP_written`; registers are no part of
the write. -/
theorem setZSP : Obligations.SetZSP := by
  intro s wf v
  refine ⟨?_, s.mf_writeFlags_withZSP wf v, s.reg_writeFlags wf _⟩
  rw [State.flags_writeFlags]
  exact Flags.withZSP_written wf s.flags v

end Sys2Proof.Machine
end

section
/-! PROOFS. The commit of a 16-bit result (40_alu.md R144, 30_encoding.md R106), the flags of an addition
(10_state.md R32) and `ADD` (40_alu.md R130). -/

namespace Sys2Proof.Machine

/-! ### The commit of a 16-bit result -/

/-- `R0` as destination discards the result (R21). -/
theorem State.received_commitResult (s : State) (cc : CondField) (rd : RegNum) (v : Word) (f : Flags) :
    Received (s.commitResult cc rd v f) rd v := by
  unfold Received
  by_cases h : rd = 0#4 <;> simp [h]

/-- The frame of a commit: MF is no result flag, so it stays when the flags to be written hold the same MF. -/
theorem State.keeps_commitResult (s : State) (cc : CondField) (rd : RegNum) (v : Word) (f : Flags)
    (hmf : f.mf = s.flags.mf) : Keeps s (s.commitResult cc rd v f) [rd] := by
  have hreg : ∀ r, r ∉ [rd] → (s.commitResult cc rd v f).reg r = s.reg r := by
    intro r hr
    rw [List.mem_singleton] at hr
    simp [hr]
  have hmf' : (s.commitResult cc rd v f).flags.mf = s.flags.mf := by
    rw [s.flags_commitResult]
    split
    · exact hmf
    · rfl
  exact ⟨hreg, State.physRead_of_mem _ _ (s.mem_commitResult cc rd v f), hmf',
    s.suspended_commitResult cc rd v f, s.ports_commitResult cc rd v f, s.status_commitResult cc rd v f, rfl⟩

/-! ### The flags of an addition -/

theorem Flags.ofAdd_describe (f : Flags) (a b : Word) : (f.ofAdd a b).Describe (a + b) :=
  f.withZSP_describe (a + b)

/-- VF is 1 exactly when the signed sum does not fit: equal signs of the operands and another sign of the result
are the library's signed overflow. -/
theorem Flags.ofAdd_vf (f : Flags) (a b : Word) :
    (f.ofAdd a b).vf = true ↔ SignedOverflow (a.toInt + b.toInt) := by
  have hvf : (f.ofAdd a b).vf = a.saddOverflow b := by
    rw [BitVec.saddOverflow_eq]
    simp only [BitVec.msb_eq_getLsbD_last]
    rfl
  rw [hvf, BitVec.saddOverflow, SignedOverflow, Bool.or_eq_true, decide_eq_true_eq, decide_eq_true_eq]
  omega

/-- R32 under `wf`: all five result flags of the sum, or none written (R30). -/
theorem Flags.ofAdd_written (wf : Bool) (f : Flags) (a b : Word) :
    ZSPCVWritten wf f (if wf then f.ofAdd a b else f) (a + b) (65536 ≤ a.toNat + b.toNat)
      (SignedOverflow (a.toInt + b.toInt)) := by
  cases wf with
  | true => exact ⟨f.ofAdd_describe a b, by simp [f.ofAdd_cf a b], f.ofAdd_vf a b⟩
  | false => exact rfl

/-! ### ADD -/

/-- `ADD` whose condition holds commits the sum and its flags. -/
theorem exec_add_of_holds (cc : CondField) (rx : RegNum) (vy : Vy) (s : State) (h : s.holds cc = true) :
    exec (.add cc rx vy) s = .next (s.commitResult cc (s.rd rx) (s.reg rx + s.vy vy)
      (s.flags.ofAdd (s.reg rx) (s.vy vy))) :=
  congrArg Host.Outcome.next (s.alu_true cc rx vy _ h)

/-- Settles O12: the state is the one the commit leaves; register, flags and frame are those of the commit and of
`Flags.ofAdd_written`. -/
theorem addResult : Obligations.AddResult := by
  intro cc rx vy s h
  refine ⟨rfl, _, exec_add_of_holds cc rx vy s h, ?_⟩
  rw [← BitVec.add_def]
  refine ⟨s.received_commitResult cc _ _ _, ?_, s.keeps_commitResult cc _ _ _ (Flags.ofAdd_mf _ _ _)⟩
  rw [s.flags_commitResult]
  exact Flags.ofAdd_written _ _ _ _

end Sys2Proof.Machine
end

section
/-! PROOFS. Control transfer: a taken jump or call is a list of register writes and nothing else
(42_control_transfer.md R170, R171, R173). -/

namespace Sys2Proof.Machine

/-! ### Register writes that end an instruction -/

/-- A register other than `R0` that one of the writes names gets its value. -/
theorem State.reg_setRegs_of_mem_of_ne_zero (s : State) (l : List (RegNum × Word)) (r : RegNum) (v : Word)
    (hn : (l.map (·.1)).Nodup) (h : (r, v) ∈ l) (hr : r ≠ 0#4) : (s.setRegs l).reg r = v :=
  (s.reg_setRegs_of_mem l r v hn h).trans (if_neg hr)

/-- The frame of an instruction that writes registers and retires: the registers no write names, memory and all
else are kept. -/
theorem State.keeps_retire_setRegs (s : State) (l : List (RegNum × Word)) (written : List RegNum)
    (hl : l.map (·.1) ⊆ written) : Keeps s (s.setRegs l).retire written := by
  have hreg : ∀ r, r ∉ written → (s.setRegs l).retire.reg r = s.reg r := fun r hr =>
    s.reg_setRegs_of_not_mem l r fun x hx e => hr (hl (List.mem_map.2 ⟨x, hx, e⟩))
  exact ⟨hreg, State.physRead_of_mem _ _ (s.mem_setRegs l), congrArg Flags.mf (s.flags_setRegs l),
    s.suspended_setRegs l, s.ports_setRegs l, s.status_setRegs l, rfl⟩

/-! ### What a taken jump or call writes -/

/-- `BRA` whose condition holds: both operands are read before `DPC` and `PC` are written. -/
theorem exec_bra_of_holds (cc : CondField) (rx : RegNum) (vy : Vy) (s : State) (h : s.holds cc = true) :
    exec (.bra cc rx vy) s = .next (s.setRegs [(regDPC, s.reg rx), (regPC, s.vy vy)]).retire :=
  congrArg Host.Outcome.next (s.when_true cc _ h)

/-- `BRR` whose condition holds writes `PC` alone. -/
theorem exec_brr_of_holds (cc : CondField) (imm16 : Word) (s : State) (h : s.holds cc = true) :
    exec (.brr cc imm16) s = .next (s.setRegs [(regPC, s.pc + imm16)]).retire :=
  congrArg Host.Outcome.next (s.when_true cc _ h)

/-- `FCR` whose condition holds writes the link and `PC`, all from the state before the call. -/
theorem exec_fcr_of_holds (cc : CondField) (imm16 : Word) (s : State) (h : s.holds cc = true) :
    exec (.fcr cc imm16) s =
      .next (s.setRegs [(regRD, s.dpc), (regRA, s.pc), (regPC, s.pc + imm16)]).retire :=
  congrArg Host.Outcome.next (s.when_true cc _ h)

/-! ### The obligations -/

/-- Settles O37: `DPC` and `PC` are two different registers, so each holds its own write. -/
theorem braResult : Obligations.BraResult := by
  intro cc rx vy s h
  have hn : [regDPC, regPC].Nodup := by decide
  have hw : [regDPC, regPC] ⊆ [14#4, 15#4] := by decide
  refine ⟨rfl, _, exec_bra_of_holds cc rx vy s h, ?pc, ?dpc, s.flags_setRegs _,
    s.keeps_retire_setRegs _ _ hw⟩
  case pc => exact s.reg_setRegs_of_mem_of_ne_zero _ regPC _ hn (by simp) (by decide)
  case dpc => exact s.reg_setRegs_of_mem_of_ne_zero _ regDPC _ hn (by simp) (by decide)

/-- Settles O38: the one write is `PC`, and the sum of two words is taken modulo 2^16. -/
theorem brrResult : Obligations.BrrResult := by
  intro cc imm16 s h
  have hw : [regPC] ⊆ [14#4] := by decide
  have hpc : (s.setRegs [(regPC, s.pc + imm16)]).pc = s.pc + imm16 := s.reg_setReg_same _ _ (by decide)
  exact ⟨rfl, _, exec_brr_of_holds cc imm16 s h, (congrArg BitVec.toNat hpc).trans (BitVec.toNat_add _ _),
    s.flags_setRegs _, s.keeps_retire_setRegs _ _ hw⟩

/-- Settles O40: `RD`, `RA` and `PC` are three different registers, so each holds its own write. -/
theorem fcrResult : Obligations.FcrResult := by
  intro cc imm16 s h
  have hn : [regRD, regRA, regPC].Nodup := by decide
  have hw : [regRD, regRA, regPC] ⊆ [12#4, 13#4, 14#4] := by decide
  refine ⟨rfl, _, exec_fcr_of_holds cc imm16 s h, ?rd, ?ra, ?pc, s.flags_setRegs _,
    s.keeps_retire_setRegs _ _ hw⟩
  case rd => exact s.reg_setRegs_of_mem_of_ne_zero _ regRD _ hn (by simp) (by decide)
  case ra => exact s.reg_setRegs_of_mem_of_ne_zero _ regRA _ hn (by simp) (by decide)
  case pc =>
    refine (congrArg BitVec.toNat ?_).trans (BitVec.toNat_add s.pc imm16)
    exact s.reg_setRegs_of_mem_of_ne_zero _ regPC _ hn (by simp) (by decide)

end Sys2Proof.Machine
end

section
/-! PROOFS. System instructions: `NOP` only ends (45_inc_system.md R203). -/

namespace Sys2Proof.Machine

/-- An instruction that only ends keeps everything: the frame of register writes, with none. -/
theorem State.keeps_retire (s : State) : Keeps s s.retire [] :=
  s.keeps_retire_setRegs [] [] (List.Subset.refl _)

/-- `NOP` only ends, whether its condition holds (its operation is nothing) or not (R105). -/
theorem exec_nop (cc : CondField) (s : State) : exec (.nop cc) s = .next s.retire := by
  have hwhen : s.when cc (fun u => u.retire) = s.retire :=
    s.when_cases (Q := (· = s.retire)) cc _ (fun _ => rfl) (fun _ => rfl)
  exact congrArg Host.Outcome.next hwhen

/-- Settles O46: one opcode byte, and a state that differs from the fetched one only in having ended. -/
theorem nopDoesNothing : Obligations.NopDoesNothing := by
  intro cc s
  exact ⟨rfl, s.retire, exec_nop cc s, s.keeps_retire, s.flags_retire⟩

end Sys2Proof.Machine
end

section
/-! PROOFS. The decoder and the encoder (30_encoding.md R90 to R102, R107 to R110): every opcode has one of
five formats, and what a format decodes is what it encodes. -/

namespace Sys2Proof

/-! ### The formats of the opcode map -/

/-- Opcode `op` has the format `RV`, and its instructions are those of `make`. -/
structure RVRow (op : BitVec 5) (make : CondField → RegNum → Vy → Instr) : Prop where
  encode_make : ∀ cc rx vy, encode (make cc rx vy) = encodeRV cc op rx vy
  wf_make : ∀ afterXC cc rx vy, (make cc rx vy).wf afterXC = (condFieldOk afterXC cc && vy.wf)
  decode_op : ∀ cc bs, decodeOpcode cc op bs = decodeRV (make cc) bs

/-- Opcode `op` has the format `RV8`. -/
structure RV8Row (op : BitVec 5) (make : CondField → BitVec 4 → V8 → Instr) : Prop where
  encode_make : ∀ cc high v8, encode (make cc high v8) = encodeRV8 cc op high v8
  wf_make : ∀ afterXC cc high v8, (make cc high v8).wf afterXC = (condFieldOk afterXC cc && v8.wf)
  decode_op : ∀ cc bs, decodeOpcode cc op bs = decodeRV8 (make cc) bs

/-- Opcode `op` has the format `RI4`. -/
structure RI4Row (op : BitVec 5) (make : CondField → RegNum → BitVec 4 → Instr) : Prop where
  encode_make : ∀ cc rx n, encode (make cc rx n) = encodeRI4 cc op rx n
  wf_make : ∀ afterXC cc rx n, (make cc rx n).wf afterXC = condFieldOk afterXC cc
  decode_op : ∀ cc bs, decodeOpcode cc op bs = decodeRI4 (make cc) bs

/-- Opcode `op` has the format `I16`. -/
structure I16Row (op : BitVec 5) (make : CondField → Word → Instr) : Prop where
  encode_make : ∀ cc w, encode (make cc w) = encodeI16 cc op w
  wf_make : ∀ afterXC cc w, (make cc w).wf afterXC = condFieldOk afterXC cc
  decode_op : ∀ cc bs, decodeOpcode cc op bs = decodeI16 (make cc) bs

/-- Opcode `op` stands alone in its byte. -/
structure BareRow (op : BitVec 5) (make : CondField → Instr) : Prop where
  encode_make : ∀ cc, encode (make cc) = [opcodeByte cc op]
  wf_make : ∀ afterXC cc, (make cc).wf afterXC = condFieldOk afterXC cc
  decode_op : ∀ cc bs, decodeOpcode cc op bs = .ok (make cc, bs)

/-- The format of an opcode, with the instructions it makes (R101, R107). -/
inductive OpcodeFormat (op : BitVec 5) : Prop where
  | rv (make : CondField → RegNum → Vy → Instr) (row : RVRow op make)
  | rv8 (make : CondField → BitVec 4 → V8 → Instr) (row : RV8Row op make)
  | ri4 (make : CondField → RegNum → BitVec 4 → Instr) (row : RI4Row op make)
  | i16 (make : CondField → Word → Instr) (row : I16Row op make)
  | bare (make : CondField → Instr) (row : BareRow op make)

/-- The opcode map (R107): each of the 32 opcodes has one of the five formats. -/
theorem opcode_format (op : BitVec 5) : OpcodeFormat op := by
  obtain ⟨⟨n, hn⟩⟩ := op
  match n, hn with
  | 0, _ | 1, _ | 2, _ | 3, _ | 4, _ | 5, _ | 6, _ | 7, _ | 8, _ | 9, _ | 10, _ | 11, _ | 12, _ | 13, _
  | 16, _ | 17, _ | 18, _ | 20, _ | 22, _ =>
    exact .rv _ ⟨fun _ _ _ => rfl, fun _ _ _ _ => rfl, fun _ _ => rfl⟩
  | 19, _ | 25, _ => exact .rv8 _ ⟨fun _ _ _ => rfl, fun _ _ _ _ => rfl, fun _ _ => rfl⟩
  | 24, _ | 28, _ => exact .ri4 _ ⟨fun _ _ _ => rfl, fun _ _ _ _ => rfl, fun _ _ => rfl⟩
  | 21, _ | 23, _ | 26, _ | 27, _ => exact .i16 _ ⟨fun _ _ => rfl, fun _ _ _ => rfl, fun _ _ => rfl⟩
  | 14, _ | 15, _ | 29, _ | 30, _ | 31, _ =>
    exact .bare _ ⟨fun _ => rfl, fun _ _ => rfl, fun _ _ => rfl⟩
  | n + 32, hn => omega

/-! ### Opcode bytes and the bytes of prefixes -/

/-- A byte whose condition field may stand where it does is decoded as an opcode byte (R92). -/
theorem decode_opcodeByte (afterXC : Bool) (cc : CondField) (op : BitVec 5) (bs : List Byte)
    (h : condFieldOk afterXC cc = true) :
    decode afterXC (opcodeByte cc op :: bs) = decodeOpcode cc op bs := by
  rw [condFieldOk, Bool.or_eq_true, bne_iff_ne] at h
  rw [decode, condFieldOf_opcodeByte, opcodeOf_opcodeByte, if_neg]
  rw [Bool.and_eq_true, Bool.not_eq_true', beq_iff_eq]
  rintro ⟨hxc, hcc⟩
  rcases h with h | h
  · exact Bool.false_ne_true (hxc.symm.trans h)
  · exact h hcc

/-- `i` is one of the prefixes, and `b` is its byte (R93, R109). -/
structure PrefixByte (b : Byte) (i : Instr) : Prop where
  condField_eq : condFieldOf b = 6#3
  decode_eq : decodePrefix (opcodeOf b) = i
  encode_eq : encode i = [b]
  wf_eq : ∀ afterXC, i.wf afterXC = !afterXC

/-- Every byte with condition field 6 is one of the prefixes. -/
theorem prefixByte_of_condField (b : Byte) (h : condFieldOf b = 6#3) :
    PrefixByte b (decodePrefix (opcodeOf b)) := by
  have hbytes : ∀ b : Byte, condFieldOf b = 6#3 → encode (decodePrefix (opcodeOf b)) = [b] ∧
      ∀ afterXC, (decodePrefix (opcodeOf b)).wf afterXC = !afterXC := by decide
  obtain ⟨hencode, hwf⟩ := hbytes b h
  exact ⟨h, rfl, hencode, hwf⟩

theorem PrefixByte.decode_encode {b : Byte} {i : Instr} (p : PrefixByte b i) (afterXC : Bool)
    (rest : List Byte) (h : i.wf afterXC = true) : decode afterXC (encode i ++ rest) = .ok (i, rest) := by
  rw [p.wf_eq] at h
  simp [p.encode_eq, decode, p.condField_eq, p.decode_eq, h]

/-! ### Decoding what a format encodes -/

section DecodeEncode

variable {afterXC : Bool} {cc : CondField} {op : BitVec 5} {rest : List Byte}

theorem RVRow.decode_encode {make : CondField → RegNum → Vy → Instr} (row : RVRow op make) {rx : RegNum}
    {vy : Vy} (h : (make cc rx vy).wf afterXC = true) :
    decode afterXC (encode (make cc rx vy) ++ rest) = .ok (make cc rx vy, rest) := by
  rw [row.wf_make, Bool.and_eq_true] at h
  obtain ⟨hcc, hvy⟩ := h
  rw [row.encode_make]
  cases vy with
  | reg ry =>
    have hry : ry ≠ 15#4 := bne_iff_ne.1 hvy
    simp [encodeRV, decode_opcodeByte _ _ _ _ hcc, row.decode_op, decodeRV, hry]
  | imm w => simp [encodeRV, decode_opcodeByte _ _ _ _ hcc, row.decode_op, decodeRV]

theorem RV8Row.decode_encode {make : CondField → BitVec 4 → V8 → Instr} (row : RV8Row op make)
    {high : BitVec 4} {v8 : V8} (h : (make cc high v8).wf afterXC = true) :
    decode afterXC (encode (make cc high v8) ++ rest) = .ok (make cc high v8, rest) := by
  rw [row.wf_make, Bool.and_eq_true] at h
  obtain ⟨hcc, hv8⟩ := h
  rw [row.encode_make]
  cases v8 with
  | reg ry =>
    have hry : ry ≠ 15#4 := bne_iff_ne.1 hv8
    simp [encodeRV8, decode_opcodeByte _ _ _ _ hcc, row.decode_op, decodeRV8, hry]
  | imm b => simp [encodeRV8, decode_opcodeByte _ _ _ _ hcc, row.decode_op, decodeRV8]

theorem RI4Row.decode_encode {make : CondField → RegNum → BitVec 4 → Instr} (row : RI4Row op make)
    {rx : RegNum} {n : BitVec 4} (h : (make cc rx n).wf afterXC = true) :
    decode afterXC (encode (make cc rx n) ++ rest) = .ok (make cc rx n, rest) := by
  rw [row.wf_make] at h
  simp [row.encode_make, encodeRI4, decode_opcodeByte _ _ _ _ h, row.decode_op, decodeRI4]

theorem I16Row.decode_encode {make : CondField → Word → Instr} (row : I16Row op make) {w : Word}
    (h : (make cc w).wf afterXC = true) :
    decode afterXC (encode (make cc w) ++ rest) = .ok (make cc w, rest) := by
  rw [row.wf_make] at h
  simp [row.encode_make, encodeI16, decode_opcodeByte _ _ _ _ h, row.decode_op, decodeI16]

theorem BareRow.decode_encode {make : CondField → Instr} (row : BareRow op make)
    (h : (make cc).wf afterXC = true) : decode afterXC (encode (make cc) ++ rest) = .ok (make cc, rest) := by
  rw [row.wf_make] at h
  simp [row.encode_make, decode_opcodeByte _ _ _ _ h, row.decode_op]

end DecodeEncode

/-- Settles O1: every constructor is a row of the opcode map, or one of the prefixes. -/
theorem decodeOfEncode : Obligations.DecodeOfEncode := by
  intro afterXC i rest h
  cases i with
  | add cc rx vy | sub cc rx vy | mlu cc rx vy | mls cc rx vy | dvu cc rx vy | dvs cc rx vy | xor cc rx vy
  | and cc rx vy | orr cc rx vy | shl cc rx vy | sru cc rx vy | srs cc rx vy | mov cc rx vy | cmp cc rx vy
  | ldw cc rx vy | stw cc rx vy | ldb cc rx vy | bra cc rx vy | fca cc rx vy =>
    exact RVRow.decode_encode ⟨fun _ _ _ => rfl, fun _ _ _ _ => rfl, fun _ _ => rfl⟩ h
  | stb cc high v8 | wrb cc high v8 =>
    exact RV8Row.decode_encode ⟨fun _ _ _ => rfl, fun _ _ _ _ => rfl, fun _ _ => rfl⟩ h
  | rdb cc rx n | inc cc rx n =>
    exact RI4Row.decode_encode ⟨fun _ _ _ => rfl, fun _ _ _ _ => rfl, fun _ _ => rfl⟩ h
  | brr cc w | fcr cc w | psh cc w | pop cc w =>
    exact I16Row.decode_encode ⟨fun _ _ => rfl, fun _ _ _ => rfl, fun _ _ => rfl⟩ h
  | reserved0E cc | reserved0F cc | bpt cc | hlt cc | nop cc =>
    exact BareRow.decode_encode ⟨fun _ => rfl, fun _ _ => rfl, fun _ _ => rfl⟩ h
  | xc | tf | em | reservedPrefixC3 =>
    refine PrefixByte.decode_encode ⟨?_, ?_, rfl, fun _ => rfl⟩ _ _ h <;> rfl
  | dr n | reservedPrefixC4 n | reservedPrefixC8 n =>
    refine PrefixByte.decode_encode ⟨?_, ?_, rfl, fun _ => rfl⟩ _ _ h <;> clear h <;> revert n <;> decide

/-! ### Encoding what a format decodes -/

section EncodeDecode

variable {afterXC : Bool} {cc : CondField} {op : BitVec 5} {bs rest : List Byte} {i : Instr}

/-- What operand bytes decode to: an instruction whose encoding is the opcode byte and those bytes, well
formed where its condition field may stand. -/
def EncodesTo (cc : CondField) (op : BitVec 5) (bs rest : List Byte) (i : Instr) : Prop :=
  (∀ afterXC, condFieldOk afterXC cc = true → i.wf afterXC = true) ∧
    encode i ++ rest = opcodeByte cc op :: bs

theorem RVRow.encode_decode {make : CondField → RegNum → Vy → Instr} (row : RVRow op make)
    (h : decodeRV (make cc) bs = .ok (i, rest)) : EncodesTo cc op bs rest i := by
  unfold decodeRV at h
  split at h
  case h_1 => cases h
  case h_2 rp bs =>
    split_ifs at h with hry
    · split at h <;> cases h
      exact ⟨fun a hcc => by simp [row.wf_make, hcc, Vy.wf],
        by simp [row.encode_make, encodeRV, ← hry, nybbles_fields]⟩
    · cases h
      exact ⟨fun a hcc => by simp [row.wf_make, hcc, Vy.wf, hry],
        by simp [row.encode_make, encodeRV, nybbles_fields]⟩

theorem RV8Row.encode_decode {make : CondField → BitVec 4 → V8 → Instr} (row : RV8Row op make)
    (h : decodeRV8 (make cc) bs = .ok (i, rest)) : EncodesTo cc op bs rest i := by
  unfold decodeRV8 at h
  split at h
  case h_1 => cases h
  case h_2 rp bs =>
    split_ifs at h with hry
    · split at h <;> cases h
      exact ⟨fun a hcc => by simp [row.wf_make, hcc, V8.wf],
        by simp [row.encode_make, encodeRV8, ← hry, nybbles_fields]⟩
    · cases h
      exact ⟨fun a hcc => by simp [row.wf_make, hcc, V8.wf, hry],
        by simp [row.encode_make, encodeRV8, nybbles_fields]⟩

theorem RI4Row.encode_decode {make : CondField → RegNum → BitVec 4 → Instr} (row : RI4Row op make)
    (h : decodeRI4 (make cc) bs = .ok (i, rest)) : EncodesTo cc op bs rest i := by
  unfold decodeRI4 at h
  split at h <;> cases h
  exact ⟨fun a hcc => by rw [row.wf_make, hcc], by simp [row.encode_make, encodeRI4, nybbles_fields]⟩

theorem I16Row.encode_decode {make : CondField → Word → Instr} (row : I16Row op make)
    (h : decodeI16 (make cc) bs = .ok (i, rest)) : EncodesTo cc op bs rest i := by
  unfold decodeI16 at h
  split at h <;> cases h
  exact ⟨fun a hcc => by rw [row.wf_make, hcc], by simp [row.encode_make, encodeI16]⟩

theorem BareRow.encode_decode {make : CondField → Instr} (row : BareRow op make)
    (h : Except.ok (make cc, bs) = (.ok (i, rest) : Except DecodeError (Instr × List Byte))) :
    EncodesTo cc op bs rest i := by
  cases h
  exact ⟨fun a hcc => by rw [row.wf_make, hcc], by rw [row.encode_make]; rfl⟩

/-- Whatever an opcode's operand bytes decode to is encoded by the opcode byte and those bytes. -/
theorem encode_decodeOpcode (h : decodeOpcode cc op bs = .ok (i, rest)) : EncodesTo cc op bs rest i := by
  cases opcode_format op with
  | rv make row => exact row.encode_decode (row.decode_op cc bs ▸ h)
  | rv8 make row => exact row.encode_decode (row.decode_op cc bs ▸ h)
  | ri4 make row => exact row.encode_decode (row.decode_op cc bs ▸ h)
  | i16 make row => exact row.encode_decode (row.decode_op cc bs ▸ h)
  | bare make row => exact row.encode_decode (row.decode_op cc bs ▸ h)

end EncodeDecode

/-- Settles O2: the first byte is one of the prefixes, which are their own encodings, or an opcode byte, whose
operand bytes decode by the format of its opcode. -/
theorem encodeOfDecode : Obligations.EncodeOfDecode := by
  intro afterXC bytes rest i h
  cases bytes with
  | nil => cases h
  | cons b bs =>
    rw [decode] at h
    split_ifs at h with hprefix
    · rw [Bool.and_eq_true, beq_iff_eq] at hprefix
      obtain ⟨hxc, hcc⟩ := hprefix
      have hb := prefixByte_of_condField b hcc
      cases h
      exact ⟨(hb.wf_eq afterXC).trans hxc, by rw [hb.encode_eq]; rfl⟩
    · obtain ⟨hwf, hencode⟩ := encode_decodeOpcode h
      refine ⟨hwf afterXC ?_, hencode.trans (by rw [opcodeByte_fields])⟩
      rw [condFieldOk, Bool.or_eq_true, bne_iff_ne]
      cases afterXC with
      | true => exact .inl rfl
      | false => exact .inr fun hcc => hprefix (by rw [hcc]; rfl)

/-! ### Every byte pattern has a meaning -/

/-- Three operand bytes are enough for every format (R101). -/
theorem decodeOpcode_threeBytes (cc : CondField) (op : BitVec 5) (b₁ b₂ b₃ : Byte) :
    ∃ i rest, decodeOpcode cc op [b₁, b₂, b₃] = .ok (i, rest) ∧ rest.length ≤ 3 := by
  cases opcode_format op with
  | rv make row =>
    rw [row.decode_op, decodeRV]
    split
    · exact ⟨_, _, rfl, by simp⟩
    · exact ⟨_, _, rfl, by simp⟩
  | rv8 make row =>
    rw [row.decode_op, decodeRV8]
    split
    · exact ⟨_, _, rfl, by simp⟩
    · exact ⟨_, _, rfl, by simp⟩
  | ri4 make row => exact ⟨_, _, row.decode_op cc _, by simp⟩
  | i16 make row => exact ⟨_, _, row.decode_op cc _, by simp⟩
  | bare make row => exact ⟨_, _, row.decode_op cc _, by simp⟩

/-- Settles O3: the prefixes stand alone; an opcode byte needs at most three operand bytes. -/
theorem fourBytesDecode : Obligations.FourBytesDecode := by
  intro afterXC b₀ b₁ b₂ b₃
  rw [decode]
  split
  · exact ⟨_, _, rfl, by simp⟩
  · exact decodeOpcode_threeBytes _ _ b₁ b₂ b₃

/-! ### Bytes written out in the spec -/

/-- Settles O4: each byte string is decoded by computation. -/
theorem writtenBytesDecode : Obligations.WrittenBytesDecode :=
  ⟨rfl, rfl, rfl, rfl, rfl, rfl, rfl, rfl, rfl, rfl, rfl, rfl, rfl⟩

/-- Settles O5: the sixteen values are computed; `INC` is decoded as it is encoded, after `XC`, where every
condition field may stand. -/
theorem sImm4Values : Obligations.SImm4Values := by
  refine ⟨by decide, fun cc rx n => ?_⟩
  exact decodeOfEncode true (.inc cc rx n) [] rfl

end Sys2Proof
end

section
/-! PROOFS. What an instruction can do (30_encoding.md R105, R106), said once for all of them: skip, change the
decode state, halt, commit registers and flags of its FLAGS column, or run over its data accesses. -/

namespace Sys2Proof.Machine

/-! ### An instruction with a condition -/

/-- Each of the 30 assigned opcodes does its operation or nothing (R105). -/
theorem exec_eq_when (i : Instr) (cc : CondField) (s : State) (hcc : condFieldOfInstr i = some cc) :
    ∃ body, exec i s = .next (s.when cc body) := by
  cases i <;> cases hcc <;> exact ⟨_, rfl⟩

/-- An instruction whose condition is false only ends (R105, R215). -/
theorem exec_of_not_holds (i : Instr) (cc : CondField) (s : State) (hcc : condFieldOfInstr i = some cc)
    (h : s.holds cc = false) : exec i s = .next s.retire := by
  obtain ⟨body, hexec⟩ := exec_eq_when i cc s hcc
  rw [hexec, s.when_false cc body h]

/-- Settles O9: such an instruction only ends, which keeps everything. -/
theorem falseConditionDoesNothing : Obligations.FalseConditionDoesNothing := by
  intro i cc s hcc h
  exact ⟨_, exec_of_not_holds i cc s hcc h, s.keeps_retire, s.flags_retire⟩

/-! ### Flags outside a FLAGS column -/

/-- `g` keeps of `f` what an instruction of that FLAGS column does not write (R28, R107). -/
structure FlagsKept (col : FlagColumn) (f g : Flags) : Prop where
  mf : g.mf = f.mf
  all_of_none : col = .none → g = f
  cf_vf_of_zsp : col = .zsp → g.cf = f.cf ∧ g.vf = f.vf
  vf_of_zspc : col = .zspc → g.vf = f.vf

theorem FlagsKept.refl (col : FlagColumn) (f : Flags) : FlagsKept col f f :=
  ⟨rfl, fun _ => rfl, fun _ => ⟨rfl, rfl⟩, fun _ => rfl⟩

theorem FlagsKept.withZSP (f : Flags) (v : Word) : FlagsKept .zsp f (f.withZSP v) :=
  ⟨rfl, nofun, fun _ => ⟨rfl, rfl⟩, nofun⟩

theorem FlagsKept.withZSPC (f : Flags) (v : Word) (c : Bool) : FlagsKept .zspc f (f.withZSPC v c) :=
  ⟨rfl, nofun, nofun, fun _ => rfl⟩

theorem FlagsKept.ofAdd (f : Flags) (a b : Word) : FlagsKept .zspcv f (f.ofAdd a b) :=
  ⟨rfl, nofun, nofun, nofun⟩

theorem FlagsKept.ofSub (f : Flags) (a b : Word) : FlagsKept .zspcv f (f.ofSub a b) :=
  ⟨rfl, nofun, nofun, nofun⟩

/-- Flags written only if `wf` holds. -/
theorem FlagsKept.guarded {col : FlagColumn} {f g : Flags} (h : FlagsKept col f g) (wf : Bool) :
    FlagsKept col f (if wf then g else f) := by
  cases wf with
  | true => exact h
  | false => exact .refl col f

/-- The column of an instruction with data accesses, from what it commits (R107). -/
def DataOp.flagColumn : DataOp → FlagColumn
  | .loadWord _ _ | .loadByte _ _ => .zsp
  | .store | .push _ _ | .pop _ _ => .none

/-- A commit after data accesses keeps the flags outside the column of its operation (R28). -/
theorem State.flagsKept_commit (s : State) (op : DataOp) (got : List Byte) :
    FlagsKept op.flagColumn s.flags (s.commit op got).flags := by
  cases op with
  | loadWord rd wf | loadByte rd wf =>
    simp only [State.commit, State.flags_writeFlags, State.flags_setReg]
    exact (FlagsKept.withZSP _ _).guarded wf
  | store => exact .refl _ _
  | push rd pointer | pop rd regs =>
    simp only [State.commit, State.flags_setReg, State.flags_setRegs]
    exact .refl _ _

/-! ### Everything an instruction can do -/

/-- Where an instruction executed in `s` ends. -/
inductive ExecEnds (i : Instr) (s : State) : State → Prop where
  /-- one of the prefixes: the decode state alone -/
  | prefixed (p : Progress) : ExecEnds i s (s.setProgress (some p))
  /-- a halt (R253) -/
  | halted (reason : HaltReason) : ExecEnds i s (s.halt reason)
  /-- registers, flags of the column and at most one port event, nothing else -/
  | retired {t : State} (flags : FlagsKept (flagColumn i) s.flags t.flags) (mem : t.mem = s.mem)
      (suspended : t.suspended = s.suspended) (ports : t.ports = s.ports ∨ ∃ e, t.ports = s.ports ++ [e])
      (status : t.status = s.status) (progress : t.progress = none) : ExecEnds i s t
  /-- the run over its data accesses -/
  | ran (op : DataOp) (xs : List ByteAccess) (h : s.dataAccesses i = some (op, xs)) :
      ExecEnds i s (s.runData op xs [])

section Ends

variable {i : Instr} {s : State} {cc : CondField}

theorem ExecEnds.retire (s : State) : ExecEnds i s s.retire :=
  .retired (.refl _ _) rfl rfl (.inl rfl) rfl rfl

theorem ExecEnds.when {body : State → State} (h : ExecEnds i s (body s)) :
    ExecEnds i s (s.when cc body) :=
  s.when_cases cc body (fun _ => h) fun _ => .retire s

theorem ExecEnds.commitResult {rd : RegNum} {v : Word} {f : Flags}
    (h : FlagsKept (flagColumn i) s.flags f) : ExecEnds i s (s.commitResult cc rd v f) := by
  refine .retired ?_ (by simp) (by simp) (.inl (by simp)) (by simp) rfl
  rw [s.flags_commitResult]
  exact h.guarded _

theorem ExecEnds.commitPair {rd : RegNum} {lo hi : Word} (h : flagColumn i = .zsp) :
    ExecEnds i s (s.commitPair cc rd lo hi) := by
  refine .retired ?_ (by simp) (by simp) (.inl (by simp)) (by simp) rfl
  rw [s.flags_commitPair, h]
  exact (FlagsKept.withZSP _ _).guarded _

/-- An instruction that only writes registers keeps all flags. -/
theorem ExecEnds.setRegs (l : List (RegNum × Word)) : ExecEnds i s (s.setRegs l).retire :=
  .retired (by rw [State.flags_retire, State.flags_setRegs]; exact .refl _ _) (by simp) (by simp)
    (.inl (by simp)) (by simp) rfl

theorem ExecEnds.alu {rx : RegNum} {vy : Vy} {f : Word → Word → Flags → Word × Flags}
    (h : ∀ a b, FlagsKept (flagColumn i) s.flags (f a b s.flags).2) :
    ExecEnds i s (s.alu cc rx vy f) :=
  .when (.commitResult (h _ _))

/-- An instruction with data accesses runs over them or does nothing. -/
theorem exec_ends_of_dataAccesses {op : DataOp} {xs : List ByteAccess} (hcc : condFieldOfInstr i = some cc)
    (h : s.dataAccesses i = some (op, xs)) : ∃ t, exec i s = .next t ∧ ExecEnds i s t := by
  cases hh : s.holds cc with
  | true => exact ⟨_, exec_of_dataAccesses i cc op xs s hcc hh h, .ran op xs h⟩
  | false => exact ⟨_, exec_of_not_holds i cc s hcc hh, .retire s⟩

end Ends

/-- Every instruction has a next state in every state, and what it can be. -/
theorem exec_ends (i : Instr) (s : State) : ∃ t, exec i s = .next t ∧ ExecEnds i s t := by
  cases i with
  | add cc rx vy => exact ⟨_, rfl, .alu fun a b => .ofAdd _ a b⟩
  | sub cc rx vy => exact ⟨_, rfl, .alu fun a b => .ofSub _ a b⟩
  | mlu cc rx vy | mls cc rx vy => exact ⟨_, rfl, .when (.commitPair rfl)⟩
  | dvu cc rx vy | dvs cc rx vy =>
    refine ⟨_, rfl, .when ?_⟩
    split
    · exact .halted .divZero
    · exact .commitPair rfl
  | xor cc rx vy | and cc rx vy | orr cc rx vy | shl cc rx vy | mov cc rx vy =>
    exact ⟨_, rfl, .alu fun _ _ => .withZSP _ _⟩
  | sru cc rx vy | srs cc rx vy => exact ⟨_, rfl, .alu fun _ _ => .withZSPC _ _ _⟩
  | cmp cc rx vy =>
    refine ⟨_, rfl, .when (.retired ?_ (by simp) (by simp) (.inl (by simp)) (by simp) rfl)⟩
    rw [State.flags_retire, State.flags_writeFlags]
    exact (FlagsKept.ofSub _ _ _).guarded _
  | ldw cc rx vy | stw cc rx vy | ldb cc rx vy | stb cc rx v8 | psh cc regs | pop cc regs =>
    exact exec_ends_of_dataAccesses rfl rfl
  | bra cc rx vy => exact ⟨_, rfl, .when (.setRegs [(regDPC, s.reg rx), (regPC, s.vy vy)])⟩
  | brr cc imm16 => exact ⟨_, rfl, .when (.setRegs [(regPC, s.pc + imm16)])⟩
  | fca cc rx vy =>
    exact ⟨_, rfl, .when (.setRegs [(regRD, s.dpc), (regRA, s.pc), (regDPC, s.reg rx), (regPC, s.vy vy)])⟩
  | fcr cc imm16 =>
    exact ⟨_, rfl, .when (.setRegs [(regRD, s.dpc), (regRA, s.pc), (regPC, s.pc + imm16)])⟩
  | rdb cc rx port =>
    refine ⟨_, rfl, .when (.retired ?_ (by simp) (by simp) (.inr ⟨_, State.ports_commitResult ..⟩)
      (by simp) rfl)⟩
    rw [State.flags_commitResult]
    exact (FlagsKept.withZSPC _ _ _).guarded _
  | wrb cc port v8 =>
    refine ⟨_, rfl, .when (.retired ?_ (by simp) (by simp) (.inr ⟨_, State.ports_writeFlags ..⟩)
      (by simp) rfl)⟩
    rw [State.flags_retire, State.flags_writeFlags]
    exact (FlagsKept.withZSPC _ _ _).guarded _
  | inc cc rx simm => exact ⟨_, rfl, .when (.commitResult (.ofAdd _ _ _))⟩
  | bpt cc => exact ⟨_, rfl, .when (.halted .breakpoint)⟩
  | hlt cc => exact ⟨_, rfl, .when (.halted .instruction)⟩
  | nop cc => exact ⟨_, rfl, .when (.retire s)⟩
  | xc | tf | em | dr rd => exact ⟨_, rfl, .prefixed _⟩
  | reserved0E cc | reserved0F cc | reservedPrefixC3 | reservedPrefixC4 n | reservedPrefixC8 n =>
    exact ⟨_, rfl, .halted .illegal⟩

/-! ### The accesses of an instruction -/

theorem kind_of_mem_slots {slots : List (Word × RegNum)} {f : Word × RegNum → List ByteAccess} {k : Kind}
    (hf : ∀ slot, ∀ y ∈ f slot, y.kind = k) : ∀ y ∈ slots.flatMap f, y.kind = k := by
  intro y hy
  obtain ⟨slot, -, hslot⟩ := List.mem_flatMap.1 hy
  exact hf slot y hslot

theorem kind_of_mem_readWordAccesses (a : Word) : ∀ y ∈ readWordAccesses a, y.kind = .read := by
  simp [readWordAccesses]

theorem kind_of_mem_writeWordAccesses (a v : Word) : ∀ y ∈ writeWordAccesses a v, y.kind = .write := by
  simp [writeWordAccesses]

theorem State.kind_of_mem_popAccesses (s : State) (regs : Regs16) :
    ∀ y ∈ s.popAccesses regs, y.kind = .read :=
  kind_of_mem_slots fun slot => kind_of_mem_readWordAccesses slot.1

theorem State.kind_of_mem_pushAccesses (s : State) (regs : Regs16) :
    ∀ y ∈ s.pushAccesses regs, y.kind = .write :=
  kind_of_mem_slots fun slot => kind_of_mem_writeWordAccesses slot.1 _

/-- What the accesses of an instruction are (R160 to R163, R190, R191): all reads or all writes, and only
`STW`, `STB` and `PSH` write. Its FLAGS column is that of what it commits. -/
theorem State.dataAccesses_cases {s : State} {i : Instr} {op : DataOp} {xs : List ByteAccess}
    (h : s.dataAccesses i = some (op, xs)) :
    flagColumn i = op.flagColumn ∧ ((∀ y ∈ xs, y.kind = .read) ∨ ((∀ y ∈ xs, y.kind = .write) ∧
      ((∃ cc rx vy, i = .stw cc rx vy) ∨ (∃ cc rx v8, i = .stb cc rx v8) ∨ ∃ cc regs, i = .psh cc regs))) := by
  cases i <;> simp only [State.dataAccesses, reduceCtorEq, Option.some.injEq, Prod.mk.injEq] at h
  all_goals obtain ⟨rfl, rfl⟩ := h
  case ldw | ldb => exact ⟨rfl, .inl (by simp)⟩
  case pop cc regs => exact ⟨rfl, .inl (s.kind_of_mem_popAccesses regs)⟩
  case stw cc rx vy => exact ⟨rfl, .inr ⟨by simp, .inl ⟨_, _, _, rfl⟩⟩⟩
  case stb cc rx v8 => exact ⟨rfl, .inr ⟨by simp, .inr (.inl ⟨_, _, _, rfl⟩)⟩⟩
  case psh cc regs => exact ⟨rfl, .inr ⟨s.kind_of_mem_pushAccesses regs, .inr (.inr ⟨_, _, rfl⟩)⟩⟩

/-- The accesses of an instruction are data accesses (R54). -/
theorem State.kind_of_dataAccesses {s : State} {i : Instr} {op : DataOp} {xs : List ByteAccess}
    (h : s.dataAccesses i = some (op, xs)) : ∀ y ∈ xs, y.kind ≠ .execute := by
  intro y hy
  obtain ⟨-, hread | ⟨hwrite, -⟩⟩ := State.dataAccesses_cases h
  · rw [hread y hy]; decide
  · rw [hwrite y hy]; decide

/-! ### What stays where no handler is entered -/

/-- A page fault that leaves MF as it was has halted (R256). -/
theorem State.pageFault_of_mf_kept (s : State) (va : Word) (k : Kind) (work : Work)
    (h : (s.pageFault va k work).flags.mf = s.flags.mf) :
    ∃ reason, s.pageFault va k work = s.halt reason := by
  obtain ⟨-, hhalt⟩ | ⟨-, -, hhalt⟩ | ⟨-, hmf, henter⟩ := s.pageFault_cases va k work
  · exact ⟨_, hhalt⟩
  · exact ⟨_, hhalt⟩
  · rw [henter, State.mf_enterHandler, hmf] at h
    cases h

/-- A run over data accesses that enters no handler keeps the flags outside its column. -/
theorem State.flagsKept_runData (s : State) (op : DataOp) (xs : List ByteAccess) (got : List Byte)
    (hmf : (s.runData op xs got).flags.mf = s.flags.mf) :
    FlagsKept op.flagColumn s.flags (s.runData op xs got).flags := by
  revert hmf
  refine State.runData_ends (P := fun u => u.flags = s.flags)
    (Q := fun t => t.flags.mf = s.flags.mf → FlagsKept op.flagColumn s.flags t.flags) op xs got s rfl
    (fun u x _ pa _ hu => hu) (fun u got hu _ => ?commit) (fun u hu _ => ?denied)
    (fun u got x todo _ _ hu _ hmf => ?fault)
  case commit =>
    have h := u.flagsKept_commit op got
    rwa [hu] at h
  case denied =>
    rw [State.flags_halt, hu]
    exact .refl _ _
  case fault =>
    rw [← hu] at hmf
    obtain ⟨reason, hhalt⟩ := u.pageFault_of_mf_kept _ _ _ hmf
    rw [hhalt, State.flags_halt, hu]
    exact .refl _ _

/-- A run over reads that enters no handler keeps memory. -/
theorem State.mem_runData_of_read (s : State) (op : DataOp) (xs : List ByteAccess) (got : List Byte)
    (hread : ∀ y ∈ xs, y.kind = .read) (hmf : (s.runData op xs got).flags.mf = s.flags.mf) :
    (s.runData op xs got).mem = s.mem := by
  revert hmf
  refine State.runData_ends (P := fun u => u.mem = s.mem ∧ u.flags = s.flags)
    (Q := fun t => t.flags.mf = s.flags.mf → t.mem = s.mem) op xs got s ⟨rfl, rfl⟩
    (fun u x hx pa hw _ => ?write) (fun u got hu _ => ?commit) (fun u hu _ => hu.1)
    (fun u got x todo _ _ hu _ hmf => ?fault)
  case write =>
    rw [hread x hx] at hw
    cases hw
  case commit => rw [State.mem_retire, State.mem_commit, hu.1]
  case fault =>
    rw [← hu.2] at hmf
    obtain ⟨reason, hhalt⟩ := u.pageFault_of_mf_kept _ _ _ hmf
    rw [hhalt, State.mem_halt, hu.1]

/-- Settles O10: by what an instruction can do. -/
theorem flagsOutsideColumnKept : Obligations.FlagsOutsideColumnKept := by
  intro i s t hexec hmf
  obtain ⟨t', hexec', hends⟩ := exec_ends i s
  obtain rfl : t' = t := Host.Outcome.next.inj (hexec'.symm.trans hexec)
  have hkept : FlagsKept (flagColumn i) s.flags t'.flags := by
    cases hends with
    | prefixed p => exact .refl _ _
    | halted reason => exact .refl _ _
    | retired flags => exact flags
    | ran op xs h =>
      obtain ⟨hcol, -⟩ := State.dataAccesses_cases h
      rw [hcol]
      exact s.flagsKept_runData op xs [] hmf
  exact ⟨hkept.all_of_none, hkept.cf_vf_of_zsp, hkept.vf_of_zspc⟩

/-- Settles O32: what is no store runs over reads, if over accesses at all. -/
theorem onlyStoresChangeMemory : Obligations.OnlyStoresChangeMemory := by
  intro i s t hstw hstb hpsh hexec hmf
  obtain ⟨t', hexec', hends⟩ := exec_ends i s
  obtain rfl : t' = t := Host.Outcome.next.inj (hexec'.symm.trans hexec)
  refine State.physRead_of_mem _ _ ?_
  cases hends with
  | prefixed p => rfl
  | halted reason => rfl
  | retired flags mem => exact mem
  | ran op xs h =>
    obtain ⟨-, hread | ⟨-, ⟨cc, rx, vy, hi⟩ | ⟨cc, rx, v8, hi⟩ | ⟨cc, regs, hi⟩⟩⟩ :=
      State.dataAccesses_cases h
    · exact s.mem_runData_of_read op xs [] hread hmf
    · exact absurd hi (hstw cc rx vy)
    · exact absurd hi (hstb cc rx v8)
    · exact absurd hi (hpsh cc regs)

/-- Settles O57: an instruction has a next state, and a step runs one or has settled. -/
theorem stepStopsOnlyWhenHalted : Obligations.StepStopsOnlyWhenHalted := by
  refine fun s => ⟨fun hrun => ?_, step_halted s⟩
  obtain ⟨reason, hhalt, -⟩ | ⟨i, u, -, -, hstep⟩ | ⟨u, -, -, hstep⟩ := step_cases s
  · rw [hrun] at hhalt
    cases hhalt
  · obtain ⟨t, hexec, -⟩ := exec_ends i u
    exact ⟨t, hstep.trans hexec⟩
  · exact ⟨u, hstep⟩

end Sys2Proof.Machine
end

section
/-! PROOFS. What a step can do (30_encoding.md R104, 60_exceptions.md R255 to R261), said once, and what every
step keeps: the port events, MF outside a handler's entry and return, and the invariant of the machine. -/

namespace Sys2Proof.Machine

/-! ### In the course of a step -/

/-- `u` is a state in the course of the step begun in `b`: registers, the decode state and bytes of memory may
have changed. -/
structure Within (b u : State) : Prop where
  mf : u.flags.mf = b.flags.mf
  suspended : u.suspended = b.suspended
  ports : u.ports = b.ports
  status : u.status = b.status
  memWf : Memory.wf b.mem → Memory.wf u.mem

/-- Where the step begun in `b` ends; `resumed` is the suspended instruction it goes on with, if any. -/
inductive Comes (resumed : Option Suspended) (b : State) : State → Prop where
  /-- no handler is entered -/
  | stays {t : State} (mf : t.flags.mf = b.flags.mf) (suspended : t.suspended = b.suspended)
      (ports : t.ports = b.ports ∨ ∃ e, t.ports = b.ports ++ [e])
      (status : t.status = b.status ∨ t.progress = none) (memWf : Memory.wf b.mem → Memory.wf t.mem) :
      Comes resumed b t
  /-- the handler on page `page` is entered from the thread context -/
  | enters {u : State} {va : Word} {k : Kind} {page : Byte} {work : Work} (within : Within b u)
      (mf : u.flags.mf = false) (page_ne : page ≠ 0#8)
      (midway : (∀ w, resumed = some w → w.Midway) → Suspended.Midway ⟨u.ctx, u.current, work⟩) :
      Comes resumed b (u.enterHandler Config.excArea va k page work)

section Within

variable {resumed : Option Suspended} {b u v t : State}

theorem Within.refl (b : State) : Within b b := ⟨rfl, rfl, rfl, rfl, id⟩

theorem Within.trans (h : Within b u) (h' : Within u v) : Within b v :=
  ⟨h'.mf.trans h.mf, h'.suspended.trans h.suspended, h'.ports.trans h.ports, h'.status.trans h.status,
    h'.memWf ∘ h.memWf⟩

/-- A step may be followed from any state in its course. -/
theorem Comes.of_within (h : Within b u) (ht : Comes resumed u t) : Comes resumed b t := by
  cases ht with
  | stays mf suspended ports status memWf =>
    exact .stays (mf.trans h.mf) (suspended.trans h.suspended) (h.ports ▸ ports) (h.status ▸ status)
      (memWf ∘ h.memWf)
  | enters within mf page_ne midway => exact .enters (h.trans within) mf page_ne midway

theorem Within.setReg (h : Within b u) (r : RegNum) (v : Word) : Within b (u.setReg r v) :=
  h.trans ⟨by rw [State.flags_setReg], rfl, rfl, rfl, id⟩

theorem Within.advancePc (h : Within b u) : Within b u.advancePc := h.setReg _ _

theorem Within.beginInstr (b : State) : Within b b.beginInstr := ⟨rfl, rfl, rfl, rfl, id⟩

theorem Within.physWrite (h : Within b u) (pa : Word) (x : Byte) : Within b (u.physWrite pa x) :=
  h.trans ⟨rfl, rfl, rfl, rfl, memWrite_wf _ _ _ (by omega)⟩

theorem Within.access (h : Within b u) (x : ByteAccess) (pa : Word) (got : List Byte) :
    Within b (u.access x pa got).1 := by
  obtain ⟨-, he⟩ | ⟨-, he⟩ := u.access_cases x pa got <;> rw [he]
  · exact h.physWrite pa x.byte
  · exact h

theorem Comes.settle (h : Within b u) : Comes resumed b u :=
  .stays h.mf h.suspended (.inl h.ports) (.inl h.status) h.memWf

theorem Comes.halt (h : Within b u) (reason : HaltReason) : Comes resumed b (u.halt reason) :=
  .stays h.mf h.suspended (.inl h.ports) (.inr rfl) h.memWf

/-- A page fault halts or enters the handler (R255, R256). -/
theorem Comes.pageFault (h : Within b u) (va : Word) (k : Kind) (work : Work)
    (midway : (∀ w, resumed = some w → w.Midway) → Suspended.Midway ⟨u.ctx, u.current, work⟩) :
    Comes resumed b (u.pageFault va k work) := by
  obtain ⟨-, he⟩ | ⟨-, -, he⟩ | ⟨hpage, hmf, he⟩ := u.pageFault_cases va k work <;> rw [he]
  · exact .halt h _
  · exact .halt h _
  · exact .enters h hmf hpage midway

/-- A run over data accesses, from the instruction's first or from a suspended one's next. -/
theorem Comes.runData (h : Within b u) (op : DataOp) (xs : List ByteAccess) (got : List Byte)
    (hkind : (∀ w, resumed = some w → w.Midway) → ∀ y ∈ xs, y.kind ≠ .execute) :
    Comes resumed b (u.runData op xs got) := by
  refine State.runData_ends (P := Within b) op xs got u h (fun v x _ pa _ hv => hv.physWrite pa x.byte)
    (fun v got hv => ?_) (fun v hv => .halt hv _)
    (fun v got x todo hx htodo hv _ => .pageFault hv _ _ _ fun hw y hy => ?_)
  · exact .stays (by simpa using hv.mf) (by simpa using hv.suspended) (.inl (by simpa using hv.ports))
      (.inr rfl) (by simpa using hv.memWf)
  · obtain rfl | hy := List.mem_cons.1 hy
    · exact hkind hw _ hx
    · exact hkind hw _ (htodo y hy)

/-- An instruction run in the course of a step. -/
theorem Comes.exec (h : Within b u) {i : Instr} (ht : ExecEnds i u t) : Comes resumed b t := by
  refine .of_within h ?_
  cases ht with
  | prefixed p => exact .stays rfl rfl (.inl rfl) (.inl rfl) id
  | halted reason => exact .halt (.refl u) reason
  | retired flags mem suspended ports status progress =>
    exact .stays flags.mf suspended ports (.inl status) (mem ▸ id)
  | ran op xs hxs => exact .runData (.refl u) op xs [] fun _ => State.kind_of_dataAccesses hxs

end Within

/-! ### Fetching -/

/-- What fetching comes to, in the course of the step begun in `b`. -/
def Fetched.Comes (resumed : Option Suspended) (b : State) : Fetched → Prop
  | .run _ u => Within b u
  | .settled t => Machine.Comes resumed b t

/-- Fetching changes `PC` alone until it stops: bytes that do not decode yet are midway through (R258). -/
theorem State.fetchRest_comes (resumed : Option Suspended) (b : State) (fuel : Nat) (got : List Byte)
    (u : State) (h : Within b u) : (State.fetchRest fuel got u).Comes resumed b := by
  induction fuel generalizing got u with
  | zero =>
    unfold State.fetchRest
    split
    · exact h
    · exact .settle h
  | succ fuel ih =>
    cases hd : decode u.current.xc got with
    | ok r => rw [State.fetchRest_ok _ _ r.2 _ r.1 hd]; exact h
    | error e =>
      rw [State.fetchRest_more _ _ _ e hd]
      split
      · exact ih _ _ h.advancePc
      · exact .halt h _
      · exact .pageFault h _ _ _ fun _ => ⟨e, hd⟩

theorem State.fetch_comes (s : State) : s.fetch.Comes none s :=
  State.fetchRest_comes _ _ _ _ _ (.beginInstr s)

/-- The return from a handler and the rest of the suspended instruction (R260, R261). -/
theorem State.afterHandler_comes (s : State) (area : ExcArea) (w : Suspended) :
    (s.afterHandler area w).Comes (some w) (s.leaveHandler area w) := by
  have hb := Within.refl (s.leaveHandler area w)
  unfold State.afterHandler
  split
  · exact .stays rfl rfl (.inl rfl) (.inr rfl) id
  · split
    case h_1 got hwork =>
      rw [State.continueFetch]
      split
      · exact State.fetchRest_comes _ _ _ _ _ hb.advancePc
      · exact .halt hb _
    case h_2 op got x todo hwork =>
      show Machine.Comes _ _ (State.continueData _ _ _ _ _ _)
      rw [State.continueData]
      split
      · refine .runData (hb.access x _ got) op todo _ fun hw y hy => ?_
        have hmid := hw w rfl
        rw [Suspended.Midway, hwork] at hmid
        exact hmid y (List.mem_cons_of_mem x hy)
      · exact .halt hb _

/-! ### The step -/

/-- Everything a step with a next state can do: run the machine on, or leave a handler and go on with the
suspended instruction. -/
theorem step_comes (s t : State) (h : step s = .next t) : s.status = .running ∧ (Comes none s t ∨
    ∃ w, s.suspended = some w ∧ s.atHandlerReturn Config.excArea = true ∧
      Comes (some w) (s.leaveHandler Config.excArea w) t) := by
  have hend : ∀ resumed b, s.advance.Comes resumed b → s.status = .running ∧ Comes resumed b t := by
    intro resumed b hadv
    obtain ⟨reason, -, hstep⟩ | ⟨i, u, hrun, ha, hstep⟩ | ⟨u, hrun, ha, hstep⟩ := step_cases s <;>
      rw [hstep] at h
    · cases h
    · rw [ha] at hadv
      obtain ⟨t', hexec, hends⟩ := exec_ends i u
      obtain rfl : t' = t := Host.Outcome.next.inj (hexec.symm.trans h)
      exact ⟨hrun, .exec hadv hends⟩
    · rw [ha] at hadv
      cases h
      exact ⟨hrun, hadv⟩
  by_cases hret : ∃ w, s.suspended = some w ∧ s.atHandlerReturn Config.excArea = true
  · obtain ⟨w, hw, hat⟩ := hret
    obtain ⟨hrun, hc⟩ := hend _ _ (s.advance_return w hw hat ▸ s.afterHandler_comes _ w)
    exact ⟨hrun, .inr ⟨w, hw, hat, hc⟩⟩
  · have hfetch : s.advance = s.fetch := s.advance_fetch fun w hw => by
      rw [← Bool.not_eq_true]
      exact fun hat => hret ⟨w, hw, hat⟩
    obtain ⟨hrun, hc⟩ := hend _ _ (hfetch ▸ s.fetch_comes)
    exact ⟨hrun, .inl hc⟩

/-! ### What every step keeps -/

/-- Ports answer in the instructions alone, so entering and leaving a handler record nothing. -/
theorem Comes.ports {resumed : Option Suspended} {b t : State} (h : Comes resumed b t) :
    t.ports = b.ports ∨ ∃ e, t.ports = b.ports ++ [e] := by
  cases h with
  | stays mf suspended ports => exact ports
  | enters within => exact .inl within.ports

/-- Settles O44: a step begun after a handler's return is begun with the same events. -/
theorem portEventsOnlyGrow : Obligations.PortEventsOnlyGrow := by
  intro s t h
  obtain ⟨-, hc | ⟨w, -, -, hc⟩⟩ := step_comes s t h
  · exact hc.ports
  · exact hc.ports

/-- Settles O55: MF changes where a handler is entered; a step that leaves one begins with MF 0 and nothing
suspended, and ends so unless it enters one again. -/
theorem mfChangesOnlyByEntryAndReturn : Obligations.MfChangesOnlyByEntryAndReturn := by
  intro s t h
  obtain ⟨-, hc | ⟨w, -, hat, hc⟩⟩ := step_comes s t h
  · cases hc with
    | stays mf => exact .inl mf
    | @enters u va k page work within mf page_ne =>
      exact .inr (.inl ⟨within.mf.symm.trans mf, u.mf_enterHandler .., va, k, page, _, page_ne,
        u.suspended_enterHandler .., u.ctx_enterHandler ..⟩)
  · have hmf : s.flags.mf = true := by
      simp only [State.atHandlerReturn, Bool.and_eq_true] at hat
      exact hat.1.1
    cases hc with
    | stays mf suspended => exact .inr (.inr ⟨hmf, mf, hat, suspended⟩)
    | @enters u va k page work within => exact .inl ((u.mf_enterHandler ..).trans hmf.symm)

/-- A step begun in a state of the invariant, with the machine running, ends in one. -/
theorem Comes.inv {resumed : Option Suspended} {b t : State} (h : Comes resumed b t)
    (hrun : b.status = .running) (hb : b.Inv) (hres : ∀ w, resumed = some w → w.Midway) : t.Inv := by
  cases h with
  | stays mf suspended ports status memWf =>
    refine ⟨memWf hb.memWf, by rw [mf, suspended, hb.mfInHandler], suspended ▸ hb.threadMf,
      suspended ▸ hb.midway, fun hhalt => ?_⟩
    obtain hs | hp := status
    · exact absurd (hs.trans hrun) hhalt
    · exact hp
  | @enters u va k page work within mf page_ne midway =>
    refine ⟨?memWf, ?mf, ?threadMf, ?midway, fun _ => u.progress_enterHandler ..⟩
    case memWf =>
      rw [State.mem_enterHandler]
      exact saveRegs_wf _ _ _ _ (within.memWf hb.memWf)
    case mf => rw [State.mf_enterHandler, State.suspended_enterHandler, Option.isSome_some]
    case threadMf =>
      intro w hw
      rw [State.suspended_enterHandler, Option.some_inj] at hw
      exact hw ▸ mf
    case midway =>
      intro w hw
      rw [State.suspended_enterHandler, Option.some_inj] at hw
      exact hw ▸ midway hres

/-- The state a handler is left in meets the invariant. -/
theorem State.Inv.leaveHandler {s : State} (h : s.Inv) (area : ExcArea) (w : Suspended)
    (hrun : s.status = .running) : (s.leaveHandler area w).Inv := by
  refine ⟨?_, ?_, (fun _ ht => nomatch ht), (fun _ ht => nomatch ht), fun hhalt => absurd hrun hhalt⟩
  · rw [State.mem_leaveHandler]
    exact h.memWf
  · rw [State.flags_leaveHandler, State.suspended_leaveHandler, Option.isSome_none]

/-- Settles O58: by what a step can do, from the state itself or from the one its handler is left in. -/
theorem stepKeepsInvariant : Obligations.StepKeepsInvariant := by
  intro s t hinv h
  obtain ⟨hrun, hc | ⟨w, hw, -, hc⟩⟩ := step_comes s t h
  · exact hc.inv hrun hinv fun _ hw => nomatch hw
  · refine hc.inv hrun (hinv.leaveHandler _ w hrun) ?_
    intro w' hw'
    rw [← Option.some_inj.1 hw']
    exact hinv.midway w hw

/-! ### Reset -/

/-- Settles O59: nothing is suspended and the machine runs. -/
theorem resetMeetsInvariant : Obligations.ResetMeetsInvariant :=
  ⟨reset_memory_wf, rfl, (fun _ ht => nomatch ht), (fun _ ht => nomatch ht), fun hhalt => absurd rfl hhalt⟩

/-- Settles O60: each value is that of the reset state. -/
theorem resetState : Obligations.ResetState :=
  ⟨State.reset_reg _, State.reset_reg _, rfl, rfl, rfl, rfl, rfl⟩

end Sys2Proof.Machine
end

section
/-! PROOFS. Opcodes 00 to 0D and `INC` (40_alu.md R131 to R146, 45_inc_system.md R200): the arithmetic of the
results, the flags of a subtraction, and the commits of one result and of two. -/

namespace Sys2Proof.Machine

/-! ### The commit of a result, by FLAGS column -/

/-- A result whose FLAGS column is `ZSP`. -/
theorem State.commitResult_zsp (s : State) (cc : CondField) (rd : RegNum) (v : Word) :
    Received (s.commitResult cc rd v (s.flags.withZSP v)) rd v ∧
      ZSPWritten (s.wf cc) s.flags (s.commitResult cc rd v (s.flags.withZSP v)).flags v ∧
      Keeps s (s.commitResult cc rd v (s.flags.withZSP v)) [rd] := by
  refine ⟨s.received_commitResult cc rd v _, ?_, s.keeps_commitResult cc rd v _ (Flags.withZSP_mf _ _)⟩
  rw [s.flags_commitResult]
  exact Flags.withZSP_written _ _ _

/-- The flags of a `ZSPC` column under `wf`, or none written (R30). -/
theorem Flags.withZSPC_written (wf : Bool) (f : Flags) (v : Word) (c : Bool) :
    ZSPCWritten wf f (if wf then f.withZSPC v c else f) v c := by
  cases wf with
  | true => exact ⟨f.withZSP_describe v, rfl, rfl⟩
  | false => exact rfl

/-- A result whose FLAGS column is `ZSPC`. -/
theorem State.commitResult_zspc (s : State) (cc : CondField) (rd : RegNum) (v : Word) (c : Bool) :
    Received (s.commitResult cc rd v (s.flags.withZSPC v c)) rd v ∧
      ZSPCWritten (s.wf cc) s.flags (s.commitResult cc rd v (s.flags.withZSPC v c)).flags v c ∧
      Keeps s (s.commitResult cc rd v (s.flags.withZSPC v c)) [rd] := by
  refine ⟨s.received_commitResult cc rd v _, ?_, s.keeps_commitResult cc rd v _ (Flags.withZSPC_mf _ _ _)⟩
  rw [s.flags_commitResult]
  exact Flags.withZSPC_written _ _ _ _

/-- Both results of `MLU`, `MLS`, `DVU` and `DVS` arrive, since the two registers differ (R145). -/
theorem State.commitPair_zsp (s : State) (cc : CondField) (rd : RegNum) (lo hi : Word) :
    Received (s.commitPair cc rd lo hi) rd lo ∧ Received (s.commitPair cc rd lo hi) (rd ^^^ 1#4) hi ∧
      ZSPWritten (s.wf cc) s.flags (s.commitPair cc rd lo hi).flags lo ∧
      Keeps s (s.commitPair cc rd lo hi) [rd, rd ^^^ 1#4] := by
  refine ⟨?lo, ?hi, ?flags, fun r hr => ?reg, State.physRead_of_mem _ _ (by simp), ?mf, by simp, by simp,
    by simp, rfl⟩
  case lo =>
    rw [Received, s.reg_commitPair, if_neg fun h => pairOf_ne rd h.1.symm]
    by_cases h0 : rd = 0#4 <;> simp [h0]
  case hi =>
    show (s.commitPair cc rd lo hi).reg (pairOf rd) = if pairOf rd = 0#4 then 0#16 else hi
    rw [s.reg_commitPair]
    by_cases h0 : pairOf rd = 0#4
    · have hrd : (0#4 : RegNum) ≠ rd := h0 ▸ pairOf_ne rd
      simp [h0, hrd]
    · simp [h0]
  case flags =>
    rw [s.flags_commitPair]
    exact Flags.withZSP_written _ _ _
  case reg =>
    rw [List.mem_cons, List.mem_singleton, not_or] at hr
    obtain ⟨hrd, hpair⟩ := hr
    rw [s.reg_commitPair, if_neg fun h => hpair h.1, if_neg fun h => hrd h.1]
  case mf =>
    rw [s.flags_commitPair]
    split <;> rfl

/-! ### Sums and differences of signed words -/

/-- A sum modulo 2^16 is that of the signed values. -/
theorem add_eq_ofInt (a b : Word) : a + b = BitVec.ofInt 16 (a.toInt + b.toInt) :=
  BitVec.eq_of_toInt_eq (by rw [BitVec.toInt_add, BitVec.toInt_ofInt])

/-- A difference modulo 2^16 is that of the signed values. -/
theorem sub_eq_ofInt (a b : Word) : a - b = BitVec.ofInt 16 (a.toInt - b.toInt) :=
  BitVec.eq_of_toInt_eq (by rw [BitVec.toInt_sub, BitVec.toInt_ofInt])

/-! ### The flags of a subtraction -/

/-- VF is 1 exactly when the signed difference does not fit (R32). -/
theorem Flags.ofSub_vf (f : Flags) (a b : Word) :
    (f.ofSub a b).vf = true ↔ SignedOverflow (a.toInt - b.toInt) := by
  have hvf : (f.ofSub a b).vf = a.ssubOverflow b := by
    have hsigns : ∀ x y z : Bool, ((x != y) && (z != x)) = ((!x && y && z) || (x && !y && !z)) := by decide
    rw [BitVec.ssubOverflow_eq]
    simp only [BitVec.msb_eq_getLsbD_last]
    exact hsigns _ _ _
  rw [hvf, BitVec.ssubOverflow, SignedOverflow, Bool.or_eq_true, decide_eq_true_eq, decide_eq_true_eq]
  omega

theorem Flags.ofSub_describe (f : Flags) (a b : Word) : (f.ofSub a b).Describe (a - b) :=
  f.withZSP_describe (a - b)

/-- R32 under `wf`: all five result flags of the difference, or none written (R30). -/
theorem Flags.ofSub_written (wf : Bool) (f : Flags) (a b : Word) :
    ZSPCVWritten wf f (if wf then f.ofSub a b else f) (a - b) (b.toNat ≤ a.toNat)
      (SignedOverflow (a.toInt - b.toInt)) := by
  cases wf with
  | true => exact ⟨f.ofSub_describe a b, by simp, f.ofSub_vf a b⟩
  | false => exact rfl

/-! ### SUB, CMP and INC -/

/-- Settles O13: the commit of the difference and its flags. -/
theorem subResult : Obligations.SubResult := by
  intro cc rx vy s h
  refine ⟨_, congrArg Host.Outcome.next (s.alu_true cc rx vy _ h), ?_⟩
  rw [← sub_eq_ofInt]
  refine ⟨s.received_commitResult cc _ _ _, ?_, s.keeps_commitResult cc _ _ _ (Flags.ofSub_mf _ _ _)⟩
  rw [s.flags_commitResult]
  exact Flags.ofSub_written _ _ _ _

/-- `CMP` whose condition holds writes the flags of a subtraction and no register. -/
theorem exec_cmp_of_holds (cc : CondField) (rx : RegNum) (vy : Vy) (s : State) (h : s.holds cc = true) :
    exec (.cmp cc rx vy) s =
      .next (s.writeFlags (s.wf cc) (s.flags.ofSub (s.reg rx) (s.vy vy))).retire :=
  congrArg Host.Outcome.next (s.when_true cc _ h)

/-- The frame of an instruction that writes result flags and nothing else. -/
theorem State.keeps_retire_writeFlags (s : State) (wf : Bool) (f : Flags) (hmf : f.mf = s.flags.mf) :
    Keeps s (s.writeFlags wf f).retire [] := by
  cases wf with
  | true => exact ⟨fun _ _ => rfl, fun _ => rfl, hmf, rfl, rfl, rfl, rfl⟩
  | false => exact s.keeps_retire

/-- Settles O14: the flags are those of `SUB`, whatever register a `DR` names. -/
theorem cmpResult : Obligations.CmpResult := by
  intro cc rx vy s h
  refine ⟨_, exec_cmp_of_holds cc rx vy s h, ?_, s.keeps_retire_writeFlags _ _ (Flags.ofSub_mf _ _ _)⟩
  rw [← sub_eq_ofInt, State.flags_retire, State.flags_writeFlags]
  exact Flags.ofSub_written _ _ _ _

/-- The carry of adding a signed immediate: of a negative one, that no borrow occurs (D5). -/
theorem carry_iff_of_signed (a b : Word) : 65536 ≤ a.toNat + b.toNat ↔
    if b.toInt < 0 then -b.toInt ≤ (a.toNat : Int) else 65536 ≤ (a.toNat : Int) + b.toInt := by
  have hb := BitVec.toInt_eq_toNat_cond b
  have := b.isLt
  split_ifs at hb ⊢ <;> omega

/-- Settles O25: the commit of a sum whose second operand is the sign-extended immediate. -/
theorem incResult : Obligations.IncResult := by
  intro cc rx n s h
  refine ⟨_, congrArg Host.Outcome.next (s.when_true cc _ h), ?_⟩
  rw [← add_eq_ofInt]
  refine ⟨s.received_commitResult cc _ _ _, ?_, s.keeps_commitResult cc _ _ _ (Flags.ofAdd_mf _ _ _)⟩
  rw [s.flags_commitResult, ← propext (carry_iff_of_signed _ _)]
  exact Flags.ofAdd_written _ _ _ _

/-! ### The conditions after a comparison -/

/-- Settles O7: the table is computed, for each value of the flags. -/
theorem conditionTable : Obligations.ConditionTable := by
  rintro ⟨zf, sf, pf, cf, vf, mf⟩
  exact ⟨rfl, rfl, rfl, rfl, rfl, rfl, rfl, rfl, rfl, rfl, rfl, rfl, rfl, rfl, rfl⟩

/-- ZF of a difference says that the operands are equal. -/
theorem Flags.ofSub_zf_iff (f : Flags) (a b : Word) : (f.ofSub a b).zf = true ↔ a.toNat = b.toNat := by
  rw [Flags.ofSub_zf, beq_iff_eq, BitVec.toNat_inj]
  exact ⟨fun h => by bv_omega, fun h => by rw [h, BitVec.sub_self]⟩

/-- SF and VF of a difference agree exactly when the first operand is not less, signed: an overflow turns the
sign over. -/
theorem Flags.ofSub_sf_eq_vf_iff (f : Flags) (a b : Word) :
    (f.ofSub a b).sf = (f.ofSub a b).vf ↔ b.toInt ≤ a.toInt := by
  obtain ⟨-, hsf, -⟩ := f.ofSub_describe a b
  have hvf := f.ofSub_vf a b
  rw [BitVec.toNat_sub] at hsf
  rw [SignedOverflow] at hvf
  rw [Bool.eq_iff_iff, hsf, hvf]
  have ha := BitVec.toInt_eq_toNat_cond a
  have hb := BitVec.toInt_eq_toNat_cond b
  have := a.isLt
  have := b.isLt
  split_ifs at ha hb <;> omega

/-- Settles O8: EQ, CS and SF = VF are the three relations; the other conditions are made of them. -/
theorem compareRelations : Obligations.CompareRelations := by
  intro cc rx vy s h hwf
  have hflags : (s.writeFlags (s.wf cc) (s.flags.ofSub (s.reg rx) (s.vy vy))).retire.flags =
      s.flags.ofSub (s.reg rx) (s.vy vy) := by
    rw [State.flags_retire, State.flags_writeFlags, hwf, if_pos rfl]
  refine ⟨_, exec_cmp_of_holds cc rx vy s h, ?_⟩
  rw [hflags]
  generalize s.reg rx = a
  generalize s.vy vy = b
  obtain ⟨h0, h1, h2, h3, h4, h5, -, -, -, hA, hB, hC, hD, -⟩ := conditionTable (s.flags.ofSub a b)
  have hz := s.flags.ofSub_zf_iff a b
  have hs := s.flags.ofSub_sf_eq_vf_iff a b
  have hc : (s.flags.ofSub a b).cf = true ↔ b.toNat ≤ a.toNat := by rw [Flags.ofSub_cf, decide_eq_true_eq]
  have hinj : a.toNat = b.toNat ↔ a.toInt = b.toInt := by rw [BitVec.toNat_inj, BitVec.toInt_inj]
  rw [h0, h1, h2, h3, h4, h5, hA, hB, hC, hD]
  simp only [Bool.and_eq_true, Bool.or_eq_true, Bool.not_eq_true', beq_iff_eq, bne_iff_ne, ne_eq,
    ← Bool.not_eq_true, hz, hs, hc]
  refine ⟨trivial, trivial, ?_, ?_, ?_, trivial, ?_, ?_, ?_, trivial⟩ <;> omega

/-! ### Products and quotients -/

theorem lowWord_ofNat (n : Nat) : lowWord (BitVec.ofNat 32 n) = BitVec.ofNat 16 n := by
  apply BitVec.eq_of_toNat_eq
  rw [lowWord, BitVec.extractLsb'_toNat, BitVec.toNat_ofNat, BitVec.toNat_ofNat]
  omega

theorem highWord_ofNat (n : Nat) : highWord (BitVec.ofNat 32 n) = BitVec.ofNat 16 (n / 65536) := by
  apply BitVec.eq_of_toNat_eq
  rw [highWord, BitVec.extractLsb'_toNat, BitVec.toNat_ofNat, BitVec.toNat_ofNat,
    Nat.shiftRight_eq_div_pow]
  omega

theorem lowWord_ofInt (n : Int) : lowWord (BitVec.ofInt 32 n) = BitVec.ofInt 16 n := by
  apply BitVec.eq_of_toNat_eq
  rw [lowWord, BitVec.extractLsb'_toNat, BitVec.toNat_ofInt, BitVec.toNat_ofInt]
  omega

theorem highWord_ofInt (n : Int) : highWord (BitVec.ofInt 32 n) = BitVec.ofInt 16 (n / 65536) := by
  apply BitVec.eq_of_toNat_eq
  rw [highWord, BitVec.extractLsb'_toNat, BitVec.toNat_ofInt, BitVec.toNat_ofInt,
    Nat.shiftRight_eq_div_pow]
  omega

/-- Settles O15: the two words of the unsigned product. -/
theorem mluResult : Obligations.MluResult := by
  intro cc rx vy s h
  refine ⟨_, congrArg Host.Outcome.next (s.when_true cc _ h), ?_⟩
  rw [productU, lowWord_ofNat, highWord_ofNat]
  exact s.commitPair_zsp cc _ _ _

/-- Settles O16: the two words of the signed product. -/
theorem mlsResult : Obligations.MlsResult := by
  intro cc rx vy s h
  refine ⟨_, congrArg Host.Outcome.next (s.when_true cc _ h), ?_⟩
  rw [productS, lowWord_ofInt, highWord_ofInt]
  exact s.commitPair_zsp cc _ _ _

/-- Settles O17: the library's quotient and remainder. -/
theorem dvuResult : Obligations.DvuResult := by
  intro cc rx vy s h hb
  have hpos : 0 < (s.vy vy).toNat := Nat.pos_of_ne_zero fun h0 => hb (BitVec.eq_of_toNat_eq h0)
  refine ⟨_, _, _, (congrArg Host.Outcome.next (s.when_true cc _ h)).trans
    (congrArg Host.Outcome.next (if_neg hb)), ?_, Nat.mod_lt _ hpos, s.commitPair_zsp cc _ _ _⟩
  exact (Nat.div_add_mod' _ _).symm

theorem signedRemainder_trunc (a b : Int) : signedRemainder .trunc a b = a.tmod b := by
  rw [Int.tmod_def, Int.mul_comm]
  rfl

theorem signedRemainder_floor (a b : Int) : signedRemainder .floor a b = a.fmod b := by
  rw [Int.fmod_def, Int.mul_comm]
  rfl

/-- Toward zero the remainder has the dividend's sign (R135). -/
theorem tmod_mul_nonneg (a b : Int) : 0 ≤ a.tmod b * a := by
  obtain ha | ha := le_total 0 a
  · exact mul_nonneg (Int.tmod_nonneg b ha) ha
  · have hneg := Int.tmod_nonneg b (neg_nonneg.2 ha)
    rw [Int.neg_tmod] at hneg
    exact mul_nonneg_of_nonpos_of_nonpos (neg_nonneg.1 hneg) ha

/-- Toward minus infinity the remainder lies between 0 and the divisor (R135). -/
theorem fmod_between (a b : Int) (hb : b ≠ 0) :
    (0 < b ∧ 0 ≤ a.fmod b ∧ a.fmod b < b) ∨ (b < 0 ∧ b < a.fmod b ∧ a.fmod b ≤ 0) := by
  obtain hneg | hpos := lt_or_gt_of_ne hb
  · have h0 := Int.fmod_nonneg_of_pos (-a) (neg_pos.2 hneg)
    have h1 := Int.fmod_lt_of_pos (-a) (neg_pos.2 hneg)
    rw [Int.neg_fmod_neg] at h0 h1
    exact .inr ⟨hneg, by omega, by omega⟩
  · exact .inl ⟨hpos, Int.fmod_nonneg_of_pos a hpos, Int.fmod_lt_of_pos a hpos⟩

/-- The remainder is smaller than the divisor in both rounding modes (R135). -/
theorem abs_signedRemainder_lt (mode : SDivMode) (a b : Int) (hb : b ≠ 0) :
    |signedRemainder mode a b| < |b| := by
  cases mode with
  | trunc =>
    rw [signedRemainder_trunc, Int.abs_eq_natAbs, Int.abs_eq_natAbs, Int.natAbs_tmod, Int.ofNat_lt]
    exact Nat.mod_lt _ (Int.natAbs_pos.2 hb)
  | floor =>
    rw [signedRemainder_floor]
    obtain ⟨hpos, h0, h1⟩ | ⟨hneg, h1, h0⟩ := fmod_between a b hb
    · rwa [abs_of_nonneg h0, abs_of_pos hpos]
    · rw [abs_of_nonpos h0, abs_of_neg hneg]
      omega

/-- Settles O18: the quotient and the remainder of the rounding mode. -/
theorem dvsResult : Obligations.DvsResult := by
  intro cc rx vy s h hb
  have hb0 : (s.vy vy).toInt ≠ 0 := fun h0 => hb (BitVec.eq_of_toInt_eq h0)
  refine ⟨_, _, _, (congrArg Host.Outcome.next (s.when_true cc _ h)).trans
    (congrArg Host.Outcome.next (if_neg hb)), ?_, abs_signedRemainder_lt _ _ _ hb0, fun hm => ?_,
    fun hm => ?_, s.commitPair_zsp cc _ _ _⟩
  · exact (add_sub_cancel _ _).symm
  · rw [hm, signedRemainder_trunc]
    exact tmod_mul_nonneg _ _
  · rw [hm, signedRemainder_floor]
    obtain ⟨hpos, h0, -⟩ | ⟨hneg, -, h0⟩ := fmod_between (s.reg rx).toInt _ hb0
    · exact mul_nonneg h0 hpos.le
    · exact mul_nonneg_of_nonpos_of_nonpos h0 hneg.le

/-- A halt keeps all that R253 says. -/
theorem State.haltsWith_halt (s : State) (reason : HaltReason) : HaltsWith s (s.halt reason) reason :=
  ⟨rfl, fun _ => rfl, rfl, fun _ => rfl, rfl, rfl, rfl⟩

/-- Settles O19: both divisions look at the divisor before anything is written. -/
theorem divisionByZeroHalts : Obligations.DivisionByZeroHalts := by
  intro cc rx vy s h hb
  exact ⟨⟨_, (congrArg Host.Outcome.next (s.when_true cc _ h)).trans
      (congrArg Host.Outcome.next (if_pos hb)), s.haltsWith_halt _⟩,
    ⟨_, (congrArg Host.Outcome.next (s.when_true cc _ h)).trans
      (congrArg Host.Outcome.next (if_pos hb)), s.haltsWith_halt _⟩⟩

/-! ### Logic, shifts and MOV -/

/-- An operation of the ALU that works bit by bit. -/
theorem bitwiseResult (make : CondField → RegNum → Vy → Instr) (op : Bool → Bool → Bool)
    (f : Word → Word → Word) (hf : ∀ a b n, (f a b).getLsbD n = op (a.getLsbD n) (b.getLsbD n))
    (hexec : ∀ cc rx vy s, exec (make cc rx vy) s =
      .next (s.alu cc rx vy fun a b g => (f a b, g.withZSP (f a b)))) : BitwiseResult make op := by
  intro cc rx vy s h
  exact ⟨_, _, (hexec cc rx vy s).trans (congrArg Host.Outcome.next (s.alu_true cc rx vy _ h)),
    fun n _ => hf _ _ n, s.commitResult_zsp cc _ _⟩

/-- Settles O20: the three operations of words are those of their bits. -/
theorem bitwiseResults : Obligations.BitwiseResults :=
  ⟨bitwiseResult .xor _ (· ^^^ ·) (fun _ _ _ => BitVec.getLsbD_xor) fun _ _ _ _ => rfl,
    bitwiseResult .and _ (· &&& ·) (fun _ _ _ => BitVec.getLsbD_and) fun _ _ _ _ => rfl,
    bitwiseResult .orr _ (· ||| ·) (fun _ _ _ => BitVec.getLsbD_or) fun _ _ _ _ => rfl⟩

theorem shiftLeft_eq_ofNat (a : Word) (n : Nat) : a <<< n = BitVec.ofNat 16 (a.toNat * 2 ^ n) := by
  apply BitVec.eq_of_toNat_eq
  rw [BitVec.toNat_shiftLeft, Nat.shiftLeft_eq, BitVec.toNat_ofNat]

theorem ushiftRight_eq_ofNat (a : Word) (n : Nat) : a >>> n = BitVec.ofNat 16 (a.toNat / 2 ^ n) := by
  rw [← Nat.shiftRight_eq_div_pow, ← BitVec.toNat_ushiftRight, BitVec.ofNat_toNat, BitVec.setWidth_eq]

theorem sshiftRight_eq_ofInt (a : Word) (n : Nat) :
    a.sshiftRight n = BitVec.ofInt 16 (a.toInt / 2 ^ n) := by
  rw [← Nat.cast_ofNat (R := Int), ← Nat.cast_pow, ← Int.shiftRight_eq_div_pow, ← BitVec.toInt_sshiftRight,
    BitVec.ofInt_toInt]

/-- Bit `n` of a word, by division. -/
theorem getLsbD_eq_div (a : Word) (n : Nat) : a.getLsbD n = decide (a.toNat / 2 ^ n % 2 = 1) := by
  rw [BitVec.getLsbD, Nat.testBit_eq_decide_div_mod_eq]

/-- CF of `SRU` (R140): a count above 16 finds no bit. -/
theorem carryOfSru_eq (a : Word) (n : Nat) :
    carryOfSru a n = decide (1 ≤ n ∧ n ≤ 16 ∧ a.toNat / 2 ^ (n - 1) % 2 = 1) := by
  rw [carryOfSru, Bool.eq_iff_iff, Bool.and_eq_true, bne_iff_ne, decide_eq_true_eq]
  by_cases hn : n ≤ 16
  · rw [getLsbD_eq_div, decide_eq_true_eq]
    omega
  · rw [BitVec.getLsbD_of_ge a (n - 1) (by omega)]
    simp [hn]

/-- CF of `SRS` (R141): a count above 16 finds the sign. -/
theorem carryOfSrs_eq (a : Word) (n : Nat) : carryOfSrs a n = decide (1 ≤ n ∧
    if n ≤ 16 then a.toNat / 2 ^ (n - 1) % 2 = 1 else a.toInt < 0) := by
  rw [carryOfSrs, Bool.eq_iff_iff, Bool.and_eq_true, bne_iff_ne, decide_eq_true_eq]
  split
  · rw [getLsbD_eq_div, decide_eq_true_eq]
    omega
  · rw [getLsbD_eq_div, decide_eq_true_eq]
    have ha := BitVec.toInt_eq_toNat_cond a
    have := a.isLt
    split_ifs at ha <;> omega

/-- Settles O21: a shift left multiplies. -/
theorem shlResult : Obligations.ShlResult := by
  intro cc rx vy s h
  rw [← shiftLeft_eq_ofNat]
  exact ⟨_, congrArg Host.Outcome.next (s.alu_true cc rx vy _ h), s.commitResult_zsp cc _ _⟩

/-- Settles O22: a logical shift right divides the unsigned operand. -/
theorem sruResult : Obligations.SruResult := by
  intro cc rx vy s h
  rw [← ushiftRight_eq_ofNat, ← carryOfSru_eq]
  exact ⟨_, congrArg Host.Outcome.next (s.alu_true cc rx vy _ h), s.commitResult_zspc cc _ _ _⟩

/-- Settles O23: an arithmetic shift right divides the signed operand. -/
theorem srsResult : Obligations.SrsResult := by
  intro cc rx vy s h
  rw [← sshiftRight_eq_ofInt, ← carryOfSrs_eq]
  exact ⟨_, congrArg Host.Outcome.next (s.alu_true cc rx vy _ h), s.commitResult_zspc cc _ _ _⟩

/-- Settles O24: the second operand itself. -/
theorem movResult : Obligations.MovResult := by
  intro cc rx vy s h
  exact ⟨_, congrArg Host.Outcome.next (s.alu_true cc rx vy _ h), s.commitResult_zsp cc _ _⟩

end Sys2Proof.Machine
end

section
/-! PROOFS. Prefixes, calls and their return, ports and halts (46_prefixes.md R210 to R215,
42_control_transfer.md R172 to R175, 43_port_io.md R180 to R183, 60_exceptions.md R250, R253). -/

namespace Sys2Proof.Machine

/-! ### Prefixes -/

/-- The condition number is the field, plus 8 after `XC` (R91): it never wraps. -/
theorem State.toNat_cond (s : State) (cc : CondField) :
    (s.cond cc).toNat = cc.toNat + if s.current.xc then 8 else 0 := by
  rw [State.cond]
  generalize s.current.xc = xc
  revert xc cc
  decide

/-- Settles O11: each of the prefixes writes one field of the decode state, all that condition, flag-write
enable, destination and translation read of it. -/
theorem prefixEffects : Obligations.PrefixEffects := by
  refine ⟨fun s cc d hnone => ?_, fun s rd => ⟨?xc, ?tf, ?em, ?dr⟩⟩
  · have hcurrent : s.current = ⟨s.pc, false, false, false, none⟩ := by rw [State.current, hnone]; rfl
    have hcond := s.toNat_cond cc
    rw [hcurrent] at hcond
    refine ⟨hcond, ?_, by rw [State.rd, hcurrent]; rfl, by rw [hcurrent]⟩
    have hwf : ∀ cc : CondField, ((0#4 + cc.setWidth 4 == 7#4) ^^ false) = decide (cc = 7#3) := by decide
    rw [State.wf, State.cond, hcurrent]
    exact hwf cc
  case xc => exact ⟨_, rfl, rfl, fun cc => State.toNat_cond _ cc, rfl, rfl, rfl, rfl⟩
  case tf => exact ⟨_, rfl, rfl, fun cc => Bool.xor_not _ _, fun _ => rfl, rfl, rfl, rfl⟩
  case em =>
    refine ⟨_, rfl, rfl, ?_, ?_, ?_, fun _ => ⟨rfl, rfl⟩, rfl, rfl⟩
    · exact Bool.or_true _
    · exact Bool.or_true _
    · rw [State.mmuOn_execute, State.mmuOn_execute, State.flags_setProgress]
  case dr => exact ⟨_, rfl, rfl, fun _ => rfl, fun _ => ⟨rfl, rfl⟩, rfl, rfl⟩

/-! ### Calls and their return -/

/-- `FCA` whose condition holds writes the link and the target, all from the state before the call. -/
theorem exec_fca_of_holds (cc : CondField) (rx : RegNum) (vy : Vy) (s : State) (h : s.holds cc = true) :
    exec (.fca cc rx vy) s = .next (s.setRegs
      [(regRD, s.dpc), (regRA, s.pc), (regDPC, s.reg rx), (regPC, s.vy vy)]).retire :=
  congrArg Host.Outcome.next (s.when_true cc _ h)

/-- Settles O39: the four registers differ, so each holds its own write. -/
theorem fcaResult : Obligations.FcaResult := by
  intro cc rx vy s h
  have hn : [regRD, regRA, regDPC, regPC].Nodup := by decide
  have hw : [regRD, regRA, regDPC, regPC] ⊆ [12#4, 13#4, 14#4, 15#4] := by decide
  refine ⟨_, exec_fca_of_holds cc rx vy s h, ?rd, ?ra, ?pc, ?dpc, s.flags_setRegs _,
    s.keeps_retire_setRegs _ _ hw⟩
  case rd => exact s.reg_setRegs_of_mem_of_ne_zero _ regRD _ hn (by simp) (by decide)
  case ra => exact s.reg_setRegs_of_mem_of_ne_zero _ regRA _ hn (by simp) (by decide)
  case pc => exact s.reg_setRegs_of_mem_of_ne_zero _ regPC _ hn (by simp) (by decide)
  case dpc => exact s.reg_setRegs_of_mem_of_ne_zero _ regDPC _ hn (by simp) (by decide)

/-- Both calls leave the caller's `DPC` in `RD` and the address after the call in `RA` (R172, R173). -/
theorem link_of_call {cc : CondField} {rx : RegNum} {vy : Vy} {imm16 : Word} {s t : State}
    (h : s.holds cc = true) (hcall : exec (.fca cc rx vy) s = .next t ∨ exec (.fcr cc imm16) s = .next t) :
    t.reg 13#4 = s.dpc ∧ t.reg 12#4 = s.pc := by
  obtain hcall | hcall := hcall
  · obtain ⟨t', hexec, hrd, hra, -⟩ := fcaResult cc rx vy s h
    obtain rfl : t' = t := Host.Outcome.next.inj (hexec.symm.trans hcall)
    exact ⟨hrd, hra⟩
  · obtain ⟨-, t', hexec, hrd, hra, -⟩ := fcrResult cc imm16 s h
    obtain rfl : t' = t := Host.Outcome.next.inj (hexec.symm.trans hcall)
    exact ⟨hrd, hra⟩

/-- Settles O41: `RET` is an unconditional `BRA` through the link. -/
theorem returnAfterCall : Obligations.ReturnAfterCall := by
  refine ⟨rfl, fun cc rx vy imm16 s t u h hcall hra hrd hnone => ?_⟩
  obtain ⟨hrd', hra'⟩ := link_of_call h hcall
  have hal : u.holds 7#3 = true := by
    rw [State.holds, State.cond, State.current, hnone]
    rfl
  obtain ⟨-, v, hexec, hpc, hdpc, hflags, hkeeps⟩ := braResult 7#3 13#4 (.reg 12#4) u hal
  exact ⟨v, hexec, hpc.trans (hra.trans hra'), hdpc.trans (hrd.trans hrd'), hflags, hkeeps⟩

/-! ### Ports -/

/-- A byte as a word keeps its value (D10). -/
theorem toNat_setWidth_byte (b : Byte) : (b.setWidth 16).toNat = b.toNat := by
  have := b.isLt
  rw [BitVec.toNat_setWidth]
  omega

/-- `RDB` whose condition holds records its event and commits the byte. -/
theorem exec_rdb_of_holds (cc : CondField) (rx : RegNum) (port : Port) (s : State) (h : s.holds cc = true) :
    exec (.rdb cc rx port) s = .next
      ((s.record (.read port (Config.portRead s.ports port).1 (Config.portRead s.ports port).2)).commitResult cc
        (s.rd rx) ((Config.portRead s.ports port).1.setWidth 16)
        (s.flags.withZSPC ((Config.portRead s.ports port).1.setWidth 16) (Config.portRead s.ports port).2)) :=
  congrArg Host.Outcome.next (s.when_true cc _ h)

/-- Settles O42: the commit is that of a `ZSPC` result, in the state with the event recorded. -/
theorem rdbResult : Obligations.RdbResult := by
  intro cc rx port s h
  refine ⟨_, _, _, _, exec_rdb_of_holds cc rx port s h, rfl, toNat_setWidth_byte _, ?_⟩
  generalize (PortEvent.read port _ _) = e
  obtain ⟨hrd, hflags, hreg, hmem, hmf, hsusp, -, hstatus, hidle⟩ :=
    (s.record e).commitResult_zspc cc (s.rd rx) ((Config.portRead s.ports port).1.setWidth 16)
      (Config.portRead s.ports port).2
  exact ⟨hrd, hflags, State.ports_commitResult .., hreg, hmem, hmf, hsusp, rfl, hstatus, hidle⟩

/-- The byte of a `V8` operand (R97, D10). -/
theorem State.toNat_v8 (s : State) (v8 : V8) :
    (s.v8 v8).toNat = match v8 with | .reg ry => (s.reg ry).toNat % 256 | .imm b => b.toNat := by
  cases v8 with
  | reg ry => exact BitVec.extractLsb'_toNat ..
  | imm b => rfl

/-- `WRB` whose condition holds records its event and writes the flags of the byte. -/
theorem exec_wrb_of_holds (cc : CondField) (port : Port) (v8 : V8) (s : State) (h : s.holds cc = true) :
    exec (.wrb cc port v8) s = .next
      ((s.record (.write port (s.v8 v8) (Config.portWrite s.ports port (s.v8 v8)))).writeFlags (s.wf cc)
        (s.flags.withZSPC ((s.v8 v8).setWidth 16) (Config.portWrite s.ports port (s.v8 v8)))).retire :=
  congrArg Host.Outcome.next (s.when_true cc _ h)

/-- Settles O43: the flags of a `ZSPC` result, in the state with the event recorded, and no register. -/
theorem wrbResult : Obligations.WrbResult := by
  intro cc port v8 s h
  refine ⟨_, _, _, exec_wrb_of_holds cc port v8 s h, s.toNat_v8 v8, toNat_setWidth_byte _, ?_⟩
  generalize Config.portWrite s.ports port (s.v8 v8) = fail
  generalize PortEvent.write port (s.v8 v8) fail = e
  obtain ⟨hreg, hmem, hmf, hsusp, -, hstatus, hidle⟩ := (s.record e).keeps_retire_writeFlags (s.wf cc)
    (s.flags.withZSPC ((s.v8 v8).setWidth 16) fail) (Flags.withZSPC_mf _ _ _)
  refine ⟨?flags, State.ports_writeFlags .., hreg, hmem, hmf, hsusp, rfl, hstatus, hidle⟩
  rw [State.flags_retire, State.flags_writeFlags]
  exact Flags.withZSPC_written _ _ _ _

/-! ### Halts -/

/-- Settles O45: each of these instructions is a halt. -/
theorem haltingInstructions : Obligations.HaltingInstructions := by
  refine ⟨fun cc s h => ⟨?hlt, ?bpt⟩, fun i s hi => ?illegal⟩
  case hlt => exact ⟨_, congrArg Host.Outcome.next (s.when_true cc _ h), s.haltsWith_halt _⟩
  case bpt => exact ⟨_, congrArg Host.Outcome.next (s.when_true cc _ h), s.haltsWith_halt _⟩
  case illegal =>
    have hexec : exec i s = .next (s.halt .illegal) := by
      obtain ⟨cc, rfl⟩ | ⟨cc, rfl⟩ | rfl | ⟨n, rfl⟩ | ⟨n, rfl⟩ := hi <;> rfl
    exact ⟨_, hexec, s.haltsWith_halt _⟩

/-- Settles O48: the two halting cases of a page fault exclude its third. -/
theorem pageFaultHalts : Obligations.PageFaultHalts := by
  intro s va k work
  obtain ⟨hpage, he⟩ | ⟨hpage, hmf, he⟩ | ⟨hpage, hmf, -⟩ := s.pageFault_cases va k work
  · exact ⟨fun _ => he ▸ s.haltsWith_halt _, fun hne => absurd hpage hne⟩
  · exact ⟨fun h0 => absurd h0 hpage, fun _ _ => he ▸ s.haltsWith_halt _⟩
  · exact ⟨fun h0 => absurd h0 hpage, fun _ hmf' => absurd (hmf.symm.trans hmf') Bool.false_ne_true⟩

end Sys2Proof.Machine
end

section
/-! PROOFS. Where a byte access is made (20_memory.md R56, R57, R62, R67), and loads and stores whose accesses
may be made (41_load_store.md R160 to R163). -/

namespace Sys2Proof.Machine

/-! ### Addresses as numbers -/

theorem toNat_pageOf (a : Word) : (pageOf a).toNat = a.toNat / 256 := by
  have := a.isLt
  rw [pageOf, BitVec.extractLsb'_toNat, Nat.shiftRight_eq_div_pow]
  omega

/-- The page table entry of an address (R62, R63). -/
theorem tteAddr_eq (a : Word) : tteAddr a = BitVec.ofNat 16 (0xFC00 + 4 * (a.toNat / 256)) := by
  apply BitVec.eq_of_toNat_eq
  rw [tteAddr, Config.pageTableBase, BitVec.toNat_add, BitVec.toNat_mul, BitVec.toNat_setWidth, toNat_pageOf,
    BitVec.toNat_ofNat, BitVec.toNat_ofNat, BitVec.toNat_ofNat]
  omega

theorem toNat_inPage (p : Byte) (a : Word) : (inPage p a).toNat = 256 * p.toNat + a.toNat % 256 := by
  have hp := p.isLt
  rw [inPage, BitVec.toNat_append, BitVec.extractLsb'_toNat, Nat.shiftLeft_eq, ← Nat.mul_comm (2 ^ 8) p.toNat,
    ← Nat.two_pow_add_eq_or_of_lt (Nat.mod_lt _ (by decide)), Nat.shiftRight_zero]

/-- The allocation byte of a page decides by its bit 2 alone (R67, D22). -/
theorem State.physAllowed_eq (s : State) (pa : Word) :
    s.physAllowed pa = (s.physRead (BitVec.ofNat 16 (0x0100 + pa.toNat / 256))).getLsbD 2 := by
  have hpat : Config.patBase + (pageOf pa).setWidth 16 = BitVec.ofNat 16 (0x0100 + pa.toNat / 256) := by
    apply BitVec.eq_of_toNat_eq
    rw [Config.patBase, BitVec.toNat_add, BitVec.toNat_setWidth, toNat_pageOf, BitVec.toNat_ofNat,
      BitVec.toNat_ofNat]
    omega
  rw [State.physAllowed, hpat]
  exact Bool.and_true _

/-- The page number for a kind of access (R62, R63). -/
theorem State.pageNumber_eq (s : State) (a : Word) (k : Kind) : s.pageNumber a k =
    s.physRead (BitVec.ofNat 16 (0xFC00 + 4 * (a.toNat / 256) + k.number.toNat)) := by
  rw [State.pageNumber, tteAddr_eq, BitVec.ofNat_add _ k.number.toNat, BitVec.ofNat_toNat, BitVec.setWidth_eq]

/-- A translated access (R57, R62). -/
theorem State.locate_of_mmuOn (s : State) (a : Word) (k : Kind) (h : s.mmuOn k = true) : s.locate a k =
    if s.pageNumber a k = 0#8 then .pageFault else s.checked (inPage (s.pageNumber a k) a) :=
  if_pos h

/-- Settles O26: the page number and the allocation byte, at the addresses they are read from. -/
theorem accessTranslation : Obligations.AccessTranslation := by
  intro s a k n hn
  rw [← s.pageNumber_eq] at hn
  subst hn
  refine ⟨fun hon => ?translated, fun hoff => ?physical⟩
  case physical =>
    have hmmu : s.mmuOn k = false := by
      obtain ⟨hmf, hem | hk⟩ := hoff
      · simp [State.mmuOn, hmf, hem]
      · simp [State.mmuOn, hmf, hk]
    rw [s.locate_physical a k hmmu, State.checked, s.physAllowed_eq]
  case translated =>
    have hmmu : s.mmuOn k = true := by
      obtain hmf | ⟨hem, hk⟩ := hon
      · exact s.mmuOn_thread k hmf
      · simp [State.mmuOn, hem, hk]
    rw [s.locate_of_mmuOn a k hmmu]
    generalize s.pageNumber a k = p
    have hp := p.isLt
    have hpa : inPage p a = BitVec.ofNat 16 (256 * p.toNat + a.toNat % 256) := by
      apply BitVec.eq_of_toNat_eq
      rw [toNat_inPage, BitVec.toNat_ofNat]
      omega
    have hpage : (inPage p a).toNat / 256 = p.toNat := by
      rw [toNat_inPage]
      omega
    have hzero : p = 0#8 ↔ p.toNat = 0 := BitVec.toNat_inj.symm
    rw [State.checked, s.physAllowed_eq, hpage]
    refine ⟨fun h0 => if_pos (hzero.2 h0), fun hne hbit => ?_, fun hne hbit => ?_⟩
    · rw [if_neg (mt hzero.1 hne), if_pos hbit, hpa]
    · rw [if_neg (mt hzero.1 hne), hbit]
      rfl

/-! ### Instructions whose data accesses may all be made -/

/-- A run over accesses that can all be made commits what they give, and leaves in memory what they store. -/
theorem State.runData_allLocated (s b : State) (op : DataOp) (xs : List ByteAccess) (pas : List Word)
    (got : List Byte) (hs : s = { b with mem := s.mem }) (h : s.AllLocated xs pas) :
    Committed op (s.made got xs pas).2 b (s.runData op xs got) ∧
      (s.runData op xs got).mem = (s.made got xs pas).1.mem := by
  have hrun := s.runData_made op xs [] pas got h
  rw [List.append_nil, State.runData_nil] at hrun
  rw [hrun]
  refine ⟨State.commit_committed _ _ _ _ ?_, by rw [State.mem_retire, State.mem_commit]⟩
  rw [s.made_frame got xs pas, hs]

/-- An instruction whose accesses can all be made. -/
theorem exec_committed {i : Instr} {cc : CondField} {op : DataOp} {xs : List ByteAccess} {pas : List Word}
    {s : State} (hcc : condFieldOfInstr i = some cc) (h : s.holds cc = true)
    (hi : s.dataAccesses i = some (op, xs)) (hloc : s.AllLocated xs pas) :
    ∃ t, exec i s = .next t ∧ Committed op (s.made [] xs pas).2 s t ∧ t.mem = (s.made [] xs pas).1.mem :=
  ⟨_, exec_of_dataAccesses i cc op xs s hcc h hi, s.runData_allLocated s op xs pas [] rfl hloc⟩

/-- An instruction whose accesses are reads that can all be made: its bytes are those of memory, which stays. -/
theorem exec_committed_of_read {i : Instr} {cc : CondField} {op : DataOp} {xs : List ByteAccess}
    {pas : List Word} {s : State} (hcc : condFieldOfInstr i = some cc) (h : s.holds cc = true)
    (hi : s.dataAccesses i = some (op, xs)) (hloc : s.AllLocated xs pas) (hread : ∀ x ∈ xs, x.kind = .read) :
    ∃ t, exec i s = .next t ∧ Committed op (pas.map s.physRead) s t ∧ t.mem = s.mem := by
  obtain ⟨t, hexec, hcommit, hmem⟩ := exec_committed hcc h hi hloc
  rw [s.made_read [] xs pas hread (s.allLocated_length xs pas hloc)] at hcommit hmem
  exact ⟨t, hexec, hcommit, hmem⟩

theorem KeepsBesideMemory.keeps {s t : State} {written : List RegNum} (h : KeepsBesideMemory s t written)
    (hmem : t.mem = s.mem) : Keeps s t written := by
  obtain ⟨hreg, hmf, hrest⟩ := h
  exact ⟨hreg, State.physRead_of_mem _ _ hmem, hmf, hrest⟩

/-- What a later state reads depends on its memory alone. -/
theorem StoredBy.of_mem {s u t : State} {xs : List ByteAccess} {pas : List Word} (h : StoredBy s u xs pas)
    (hmem : t.mem = u.mem) : StoredBy s t xs pas := by
  obtain ⟨hkeep, hlast⟩ := h
  refine ⟨fun q hq => ?_, fun k x pa hx hw hpa hafter => ?_⟩
  · rw [State.physRead_of_mem u t hmem, hkeep q hq]
  · rw [State.physRead_of_mem u t hmem, hlast k x pa hx hw hpa hafter]

/-- A byte at no address of the accesses is as it was. -/
theorem StoredBy.physRead_of_not_mem {s t : State} {xs : List ByteAccess} {pas : List Word}
    (h : StoredBy s t xs pas) (q : Word) (hq : q ∉ pas) : t.physRead q = s.physRead q :=
  h.1 q fun _ _ _ _ hpa => hq (List.mem_of_getElem? hpa)

theorem KeepsBesideMemory.keepsBut {s t : State} {written : List RegNum} {xs : List ByteAccess}
    {pas : List Word} (h : KeepsBesideMemory s t written) (hflags : t.flags = s.flags)
    (hstored : StoredBy s t xs pas) : KeepsBut s t written pas := by
  obtain ⟨hreg, -, hrest⟩ := h
  exact ⟨hreg, hstored.physRead_of_not_mem, hflags, hrest⟩

/-! ### Loads and stores -/

/-- Settles O27: reads leave the state alone, so the second is located where the first is. -/
theorem ldwResult : Obligations.LdwResult := by
  intro cc rx vy s pa₀ pa₁ h h₀ h₁
  obtain ⟨t, hexec, ⟨hkeeps, hword⟩, hmem⟩ :=
    exec_committed_of_read (i := .ldw cc rx vy) (pas := [pa₀, pa₁]) rfl h rfl ⟨h₀, h₁, trivial⟩ (by simp)
  obtain ⟨v, hv, hrd, hflags⟩ := hword _ _ rfl
  exact ⟨t, v, hexec, hv, hrd, hflags, hkeeps.keeps hmem⟩

/-- Settles O28: one read, zero-extended by the commit. -/
theorem ldbResult : Obligations.LdbResult := by
  intro cc rx vy s pa h hpa
  obtain ⟨t, hexec, ⟨hkeeps, hbyte⟩, hmem⟩ :=
    exec_committed_of_read (i := .ldb cc rx vy) (pas := [pa]) rfl h rfl ⟨hpa, trivial⟩ (by simp)
  obtain ⟨v, hv, hrd, hflags⟩ := hbyte _ rfl
  exact ⟨t, v, hexec, hv, hrd, hflags, hkeeps.keeps hmem⟩

/-- No entry stands past the end of a list. -/
theorem getElem?_ne_of_length_le {pas : List Word} {j : Nat} {pa : Word} (h : pas.length ≤ j) :
    pas[j]? ≠ some pa := by
  rw [List.getElem?_eq_none h]
  exact Option.some_ne_none pa |>.symm

/-- A store whose accesses can all be made changes nothing but the bytes at their addresses. -/
theorem exec_stored {i : Instr} {cc : CondField} {xs : List ByteAccess} {pas : List Word} {s : State}
    (hm : Memory.wf s.mem) (hcc : condFieldOfInstr i = some cc) (h : s.holds cc = true)
    (hi : s.dataAccesses i = some (.store, xs)) (hloc : s.AllLocated xs pas) :
    ∃ t, exec i s = .next t ∧ StoredBy s t xs pas ∧ KeepsBut s t [] pas := by
  obtain ⟨t, hexec, ⟨hkeeps, hflags⟩, hmem⟩ := exec_committed hcc h hi hloc
  have hstored := (s.made_stored [] xs pas hm).of_mem hmem
  exact ⟨t, hexec, hstored, hkeeps.keepsBut hflags hstored⟩

/-- Settles O29: of two bytes stored in one place the high one, which is stored last, stands. -/
theorem stwResult : Obligations.StwResult := by
  intro cc rx vy s pa₀ pa₁ hm h h₀ h₁
  obtain ⟨t, hexec, ⟨-, hlast⟩, hkeeps⟩ :=
    exec_stored (i := .stw cc rx vy) (pas := [pa₀, pa₁]) hm rfl h rfl ⟨h₀, h₁, trivial⟩
  have hhigh := hlast 1 _ pa₁ rfl rfl rfl fun j hj => getElem?_ne_of_length_le hj
  refine ⟨t, hexec, ?_, fun hne => ?_, hkeeps⟩
  · have := (s.vy vy).isLt
    rw [hhigh, BitVec.toNat_ofNat]
    omega
  · rw [hlast 0 _ pa₀ rfl rfl rfl, BitVec.toNat_ofNat]
    intro j hj hpa
    obtain ⟨hlt, hget⟩ := List.getElem?_eq_some_iff.1 hpa
    obtain rfl : j = 1 := by simp at hlt; omega
    exact hne hget.symm

/-- Settles O30: one byte, stored as it is. -/
theorem stbResult : Obligations.StbResult := by
  intro cc rx v8 s pa hm h hpa
  obtain ⟨t, hexec, ⟨-, hlast⟩, hkeeps⟩ :=
    exec_stored (i := .stb cc rx v8) (pas := [pa]) hm rfl h rfl ⟨hpa, trivial⟩
  have hbyte := hlast 0 _ pa rfl rfl rfl fun j hj => getElem?_ne_of_length_le hj
  exact ⟨t, hexec, (congrArg BitVec.toNat hbyte).trans (s.toNat_v8 v8), hkeeps⟩

/-- Settles O31: the bytes `STW` leaves are those `LDW` puts together. -/
theorem storedWordIsLoaded : Obligations.StoredWordIsLoaded := by
  intro cc cc' rx rx' vy vy' s t u pa₀ pa₁ hm h hne h₀ h₁ hstw hmem h' h₀' h₁'
  obtain ⟨t', hexec, hhigh, hlow, -⟩ := stwResult cc rx vy s pa₀ pa₁ hm h h₀ h₁
  obtain rfl : t' = t := Host.Outcome.next.inj (hexec.symm.trans hstw)
  obtain ⟨w, v, hldw, hv, hrd, -⟩ := ldwResult cc' rx' vy' u pa₀ pa₁ h' h₀' h₁'
  have hword : v = s.vy vy := by
    apply BitVec.eq_of_toNat_eq
    rw [hv, State.physRead_of_mem _ _ hmem, State.physRead_of_mem _ _ hmem, hlow hne, hhigh]
    omega
  exact ⟨w, hldw, hword ▸ hrd⟩

end Sys2Proof.Machine
end

section
/-! PROOFS. Register sets and the stack (30_encoding.md R100, 44_stack.md R190 to R192). -/

namespace Sys2Proof.Machine

/-! ### The members of a set -/

theorem length_members (regs : Regs16) : (members regs).length = popcount regs := by
  rw [members, List.length_map, popcount]

/-- Settles O33: the numbers of the 1 bits, ascending, as register numbers. -/
theorem registerSetMembers : Obligations.RegisterSetMembers := by
  refine fun regs => ⟨fun r => ?_, ?_, length_members regs⟩
  · rw [members, List.mem_map]
    constructor
    · rintro ⟨n, hn, rfl⟩
      obtain ⟨hlt, hbit⟩ := List.mem_filter.1 hn
      rw [BitVec.toNat_ofNat, Nat.mod_eq_of_lt (List.mem_range.1 hlt)]
      exact hbit
    · intro hbit
      refine ⟨r.toNat, List.mem_filter.2 ⟨List.mem_range.2 r.isLt, hbit⟩, ?_⟩
      rw [BitVec.ofNat_toNat, BitVec.setWidth_eq]
  · rw [members, bitNumbers, List.pairwise_map]
    apply List.Pairwise.filter (R := fun a b : Nat => BitVec.ofNat 4 a < BitVec.ofNat 4 b)
    decide

/-! ### The accesses of a push -/

/-- Byte `k` of words written to consecutive slots. -/
theorem writeSlots_get (p : Word) (l : List RegNum) (val : RegNum → Word) (k : Nat) (r : RegNum)
    (hr : l[k / 2]? = some r) :
    ((slots p l).flatMap fun slot => writeWordAccesses slot.1 (val slot.2))[k]? =
      some ⟨.write, p + BitVec.ofNat 16 k, if k % 2 = 0 then firstByte (val r) else secondByte (val r)⟩ := by
  induction l generalizing p k with
  | nil => simp at hr
  | cons q l ih =>
    rw [slots, List.flatMap_cons, writeWordAccesses]
    match k, hr with
    | 0, hr => simp at hr; simp [hr]
    | 1, hr => simp at hr; simp [hr]
    | k + 2, hr =>
      rw [Nat.add_div_right k (by decide), List.getElem?_cons_succ] at hr
      simp only [List.cons_append, List.nil_append, List.getElem?_cons_succ]
      rw [ih _ k hr, BitVec.add_assoc, ← BitVec.ofNat_add, Nat.add_comm 2 k, Nat.add_mod_right]

theorem length_writeSlots (p : Word) (l : List RegNum) (val : RegNum → Word) :
    ((slots p l).flatMap fun slot => writeWordAccesses slot.1 (val slot.2)).length = 2 * l.length := by
  induction l generalizing p with
  | nil => rfl
  | cons q l ih =>
    rw [slots, List.flatMap_cons, List.length_append, ih, writeWordAccesses, List.length_cons]
    simp
    omega

theorem toNat_firstByte (w : Word) : (firstByte w).toNat = w.toNat % 256 := by
  show (w.extractLsb' 0 8).toNat = _
  rw [BitVec.extractLsb'_toNat, Nat.shiftRight_zero]

theorem toNat_secondByte (w : Word) : (secondByte w).toNat = w.toNat / 256 := by
  show (w.extractLsb' 8 8).toNat = _
  have := w.isLt
  rw [BitVec.extractLsb'_toNat, Nat.shiftRight_eq_div_pow]
  omega

/-- Byte `k` of a push (R190, R61). -/
theorem State.pushAccesses_get (s : State) (regs : Regs16) (k : Nat) (r : RegNum)
    (hr : (members regs)[k / 2]? = some r) : (s.pushAccesses regs)[k]? =
      some ⟨.write, s.pushPointer regs + BitVec.ofNat 16 k,
        if k % 2 = 0 then firstByte (s.pushValue regs r) else secondByte (s.pushValue regs r)⟩ :=
  writeSlots_get _ _ _ k r hr

/-! ### PSH and POP -/

/-- Settles O34: the accesses are all made, then the pointer is written. -/
theorem pshResult : Obligations.PshResult := by
  intro cc regs s pas hm h hloc
  obtain ⟨t, hexec, ⟨hkeeps, hflags, hrd⟩, hmem⟩ :=
    exec_committed (i := .psh cc regs) rfl h rfl hloc
  have hstored := (s.made_stored [] _ pas hm).of_mem hmem
  refine ⟨t, s.pushPointer regs, hexec, by rw [length_members]; rfl, hrd, hkeeps.keepsBut hflags hstored,
    ?_, fun k x pa r hx hpa hr => ?_⟩
  · rw [s.allLocated_length _ pas hloc]
    exact length_writeSlots _ _ _
  · rw [s.pushAccesses_get regs k r hr, Option.some_inj] at hx
    subst hx
    refine ⟨rfl, rfl, fun hafter => ?_⟩
    rw [hstored.2 k _ pa (s.pushAccesses_get regs k r hr) rfl hpa hafter]
    show BitVec.toNat (if k % 2 = 0 then _ else _) = if k % 2 = 0 then (s.pushValue regs r).toNat % 256
      else (s.pushValue regs r).toNat / 256
    split
    · exact toNat_firstByte _
    · exact toNat_secondByte _

/-- Settles O35: the reads leave memory alone, so the bytes are those of the state before. -/
theorem popResult : Obligations.PopResult := by
  intro cc regs s pas h hloc
  have hread := s.kind_of_mem_popAccesses regs
  have hlen : pas.length = 2 * (members regs).length :=
    (s.allLocated_length _ pas hloc).trans (s.popAccesses_length regs)
  obtain ⟨t, hexec, ⟨hkeeps, hflags, hrd, hword⟩, hmem⟩ :=
    exec_committed_of_read (i := .pop cc regs) rfl h rfl hloc hread
  refine ⟨t, hexec, hkeeps.keeps hmem, hflags, hrd, hlen, fun k hk => ?_, fun k lo hi r hr hlo hhi => ?_⟩
  · have hx := s.popAccesses_get regs k hk
    have hpa := List.getElem?_eq_getElem (hlen ▸ hk)
    exact ⟨_, _, hx, hpa, rfl, rfl, s.allLocated_read _ pas hloc hread k _ _ hx hpa⟩
  · exact hword k r _ _ hr (by rw [List.getElem?_map, hlo]; rfl) (by rw [List.getElem?_map, hhi]; rfl)

/-- A word put together from its two bytes. -/
theorem eq_of_bytes {v w : Word} (h : v.toNat = w.toNat % 256 + 256 * (w.toNat / 256)) : v = w :=
  BitVec.eq_of_toNat_eq (by omega)

/-- In a list without repetition the entry at `k` stands at no later place. -/
theorem getElem?_ne_of_nodup {pas : List Word} (hn : pas.Nodup) {k : Nat} {pa : Word} (hk : pas[k]? = some pa) :
    ∀ j, k < j → pas[j]? ≠ some pa := by
  intro j hkj hj
  obtain ⟨hk', -⟩ := List.getElem?_eq_some_iff.1 hk
  exact absurd ((List.getElem?_inj hk' hn).1 (hk.trans hj.symm)) (Nat.ne_of_lt hkj)

/-- A register that has received the value another state's register holds. -/
theorem Received.reg_eq {w s : State} {r : RegNum} {v : Word} (h : Received w r v)
    (hv : r ≠ 0#4 → v = s.reg r) : w.reg r = s.reg r := by
  rw [h]
  split
  case isTrue h0 => rw [h0, s.reg_zero]
  case isFalse h0 => exact hv h0

/-- Settles O36: each slot still holds the two bytes pushed, and the pointer rises by what it fell. -/
theorem popAfterPshRestores : Obligations.PopAfterPshRestores := by
  intro cc cc' regs s t u pas hm h hloc hn hnot hpsh hmem hrd hreg h' hloc'
  obtain ⟨t', p, hexec, hp, hptr, -, hlen, hbytes⟩ := pshResult cc regs s pas hm h hloc
  obtain rfl : t' = t := Host.Outcome.next.inj (hexec.symm.trans hpsh)
  obtain ⟨w, hpop, -, -, hwptr, -, -, hwords⟩ := popResult cc' regs u pas h' hloc'
  rw [hrd] at hwptr hwords
  refine ⟨w, hpop, fun r hr => ?member, ?pointer⟩
  case member =>
    obtain ⟨k, hk⟩ := List.mem_iff_getElem?.1 hr
    obtain ⟨hklt, -⟩ := List.getElem?_eq_some_iff.1 hk
    have hne : r ≠ s.rd 11#4 := fun e => hnot (e ▸ hr)
    have hbyte : ∀ j pa, j / 2 = k → pas[j]? = some pa → (u.physRead pa).toNat =
        if j % 2 = 0 then (s.reg r).toNat % 256 else (s.reg r).toNat / 256 := by
      intro j pa hj hpa
      obtain ⟨-, -, hval⟩ := hbytes j _ pa r (s.pushAccesses_get regs j r (hj ▸ hk)) hpa (hj ▸ hk)
      rw [State.physRead_of_mem _ _ hmem, hval (getElem?_ne_of_nodup hn hpa), if_neg hne]
    have hlo := List.getElem?_eq_getElem (l := pas) (i := 2 * k) (by omega)
    have hhi := List.getElem?_eq_getElem (l := pas) (i := 2 * k + 1) (by omega)
    obtain ⟨v, hv, hrecv⟩ := hwords k _ _ r hk hlo hhi
    rw [if_neg hne] at hrecv
    rw [hbyte _ _ (by omega) hlo, hbyte _ _ (by omega) hhi, if_pos (by omega), if_neg (by omega)] at hv
    exact hrecv.reg_eq fun _ => eq_of_bytes hv
  case pointer =>
    refine (hwptr hnot).reg_eq fun h0 => ?_
    rw [hreg, hptr, if_neg h0, hp, BitVec.sub_add_cancel]

end Sys2Proof.Machine
end

section
/-! PROOFS. Fetching an instruction's bytes (10_state.md R24, 20_memory.md R58, 30_encoding.md R102, R104): code
bytes are taken one after another until they decode, or until one cannot be fetched. -/

namespace Sys2Proof

/-! ### Bytes that do not go past one instruction -/

/-- More bytes do not change what bytes decode to: the encoding tells where it ends. -/
theorem decode_append {afterXC : Bool} {bs rest : List Byte} {i : Instr}
    (h : decode afterXC bs = .ok (i, rest)) (more : List Byte) :
    decode afterXC (bs ++ more) = .ok (i, rest ++ more) := by
  obtain ⟨hwf, hencode⟩ := encodeOfDecode afterXC bs rest i h
  rw [← hencode, List.append_assoc]
  exact decodeOfEncode afterXC i (rest ++ more) hwf

/-- The bytes belong to one instruction: none is left over. -/
def WithinOne (afterXC : Bool) (bs : List Byte) : Prop :=
  ∀ i b rest, decode afterXC bs ≠ .ok (i, b :: rest)

theorem withinOne_of_ok {afterXC : Bool} {bs : List Byte} {i : Instr}
    (h : decode afterXC bs = .ok (i, [])) : WithinOne afterXC bs := by
  intro j b rest hj
  rw [h] at hj
  cases hj

theorem withinOne_of_error {afterXC : Bool} {bs : List Byte} {e : DecodeError}
    (h : decode afterXC bs = .error e) : WithinOne afterXC bs := by
  intro j b rest hj
  rw [h] at hj
  cases hj

/-- Before the last byte of an instruction the bytes do not decode. -/
theorem WithinOne.error_of_append {afterXC : Bool} {bs more : List Byte} {b : Byte}
    (h : WithinOne afterXC (bs ++ b :: more)) : ∃ e, decode afterXC bs = .error e := by
  cases hd : decode afterXC bs with
  | error e => exact ⟨e, rfl⟩
  | ok r =>
    have happend := decode_append (i := r.1) (rest := r.2) hd (b :: more)
    cases hr : r.2 with
    | nil => exact absurd (hr ▸ happend) (h _ _ _)
    | cons c cs => exact absurd (hr ▸ happend) (h _ _ _)

/-- No instruction has more than four bytes (R102). -/
theorem WithinOne.length_le {afterXC : Bool} {bs : List Byte} (h : WithinOne afterXC bs) :
    bs.length ≤ maxInstrBytes := by
  match bs, h with
  | [], _ | [_], _ | [_, _], _ | [_, _, _], _ | [_, _, _, _], _ => simp [maxInstrBytes]
  | b₀ :: b₁ :: b₂ :: b₃ :: b :: more, h =>
    obtain ⟨i, rest, hd, -⟩ := fourBytesDecode afterXC b₀ b₁ b₂ b₃
    obtain ⟨e, he⟩ := WithinOne.error_of_append (bs := [b₀, b₁, b₂, b₃]) h
    rw [hd] at he
    cases he

/-- Bytes that do not decode are fewer. -/
theorem length_lt_of_error {afterXC : Bool} {bs : List Byte} {e : DecodeError}
    (h : decode afterXC bs = .error e) : bs.length < maxInstrBytes := by
  refine Nat.lt_of_le_of_ne (withinOne_of_error h).length_le fun hlen => ?_
  match bs, hlen with
  | [b₀, b₁, b₂, b₃], _ =>
    obtain ⟨i, rest, hd, -⟩ := fourBytesDecode afterXC b₀ b₁ b₂ b₃
    rw [hd] at h
    cases h

end Sys2Proof

namespace Sys2Proof.Machine

/-! ### The program counter while bytes are fetched -/

/-- A later write to a register replaces an earlier one. -/
theorem State.setReg_setReg (s : State) (r : RegNum) (v w : Word) :
    (s.setReg r v).setReg r w = s.setReg r w := by
  have hctx : (s.ctx.setReg r v).setReg r w = s.ctx.setReg r w := by
    refine Context.ext_reg _ _ (fun q => ?_) (by simp)
    simp only [Context.reg_setReg]
    split <;> rfl
  exact congrArg (fun c => ({ s with ctx := c } : State)) hctx

/-- Writing a register's own value changes nothing. -/
theorem State.setReg_reg (s : State) (r : RegNum) : s.setReg r (s.reg r) = s := by
  have hctx : s.ctx.setReg r (s.ctx.reg r) = s.ctx := by
    refine Context.ext_reg _ _ (fun q => ?_) (by simp)
    rw [Context.reg_setReg]
    split
    case isTrue h => rw [h.1]
    case isFalse => rfl
  exact congrArg (fun c => ({ s with ctx := c } : State)) hctx

theorem State.current_setReg {s : State} (h : s.progress ≠ none) (r : RegNum) (v : Word) :
    (s.setReg r v).current = s.current := by
  cases hp : s.progress with
  | none => exact absurd hp h
  | some p => rw [s.current_of_some p hp, (s.setReg r v).current_of_some p hp]

theorem State.dpc_setReg_pc (s : State) (v : Word) : (s.setReg regPC v).dpc = s.dpc :=
  s.reg_setReg_other _ _ _ (by decide)

theorem State.pc_setReg_pc (s : State) (v : Word) : (s.setReg regPC v).pc = v :=
  s.reg_setReg_same _ _ (by decide)

/-- Where code bytes are does not depend on `PC`. -/
theorem State.codeAt_setReg_pc (s : State) (v a : Word) (bs : List Byte) :
    (s.setReg regPC v).CodeAt a bs ↔ s.CodeAt a bs := by
  induction bs generalizing a with
  | nil => rfl
  | cons b bs ih =>
    simp only [State.CodeAt, State.locate_setReg_execute, State.physRead_setReg, State.dpc_setReg_pc, ih]

/-- The decode state has no part in where code bytes are (R56). -/
theorem State.codeAt_beginInstr (s : State) (a : Word) (bs : List Byte) :
    s.beginInstr.CodeAt a bs ↔ s.CodeAt a bs := by
  induction bs generalizing a with
  | nil => rfl
  | cons b bs ih =>
    simp only [State.CodeAt, State.beginInstr, State.locate_setProgress_execute, State.physRead_setProgress]
    exact and_congr_right fun _ => ih _

/-! ### Fetching code bytes -/

/-- Code bytes of one instruction are fetched in order, each moving `PC` by `1 + DPC`. -/
theorem State.fetchRest_codeAt (fuel : Nat) (more got : List Byte) (u : State) (hp : u.progress ≠ none)
    (hcode : u.CodeAt u.pc more) (hone : WithinOne u.current.xc (got ++ more)) :
    State.fetchRest (more.length + fuel) got u =
      State.fetchRest fuel (got ++ more) (u.setReg regPC (afterBytes u.pc u.dpc more.length)) := by
  induction more generalizing got u with
  | nil =>
    rw [List.length_nil, Nat.zero_add, List.append_nil, afterBytes]
    exact congrArg _ (u.setReg_reg regPC).symm
  | cons b more ih =>
    obtain ⟨⟨pa, hloc, rfl⟩, hrest⟩ := hcode
    obtain ⟨e, he⟩ := hone.error_of_append
    rw [List.append_cons] at hone ⊢
    have hnext := ih (got ++ [u.physRead pa]) u.advancePc hp
      (by rw [u.pc_advancePc]; exact (u.codeAt_setReg_pc _ _ _).2 hrest)
      (by rw [State.advancePc, State.current_setReg hp]; exact hone)
    rw [u.pc_advancePc, u.dpc_advancePc, State.advancePc, State.setReg_setReg, ← State.advancePc] at hnext
    rw [List.length_cons, Nat.succ_add, State.fetchRest_more _ _ _ e he, hloc]
    exact hnext

/-- The bytes of an instruction that can be fetched are run. -/
theorem State.fetchRest_run {u : State} {got more : List Byte} {i : Instr} (hp : u.progress ≠ none)
    (hcode : u.CodeAt u.pc more) (hd : decode u.current.xc (got ++ more) = .ok (i, [])) :
    State.fetchRest maxInstrBytes got u =
      .run i (u.setReg regPC (afterBytes u.pc u.dpc more.length)) := by
  have hone := withinOne_of_ok hd
  have hlen := hone.length_le
  rw [List.length_append] at hlen
  obtain ⟨fuel, hfuel⟩ := Nat.exists_eq_add_of_le (show more.length ≤ maxInstrBytes by omega)
  rw [hfuel, State.fetchRest_codeAt fuel more got u hp hcode hone]
  exact State.fetchRest_ok _ _ _ _ _ (by rw [State.current_setReg hp]; exact hd)

/-- Where the bytes that can be fetched do not decode, the next one is looked for at its address. -/
theorem State.fetchRest_missing {u : State} {got more : List Byte} {e : DecodeError} (hp : u.progress ≠ none)
    (hcode : u.CodeAt u.pc more) (hd : decode u.current.xc (got ++ more) = .error e) {va : Word}
    (hva : va = afterBytes u.pc u.dpc more.length) :
    (u.locate va .execute = .pageFault → State.fetchRest maxInstrBytes got u =
      .settled ((u.setReg regPC va).pageFault va .execute (.fetch (got ++ more)))) ∧
    (u.locate va .execute = .denied → State.fetchRest maxInstrBytes got u =
      .settled ((u.setReg regPC va).halt .doubleFault)) := by
  have hlen := length_lt_of_error hd
  rw [List.length_append] at hlen
  obtain ⟨fuel, hfuel⟩ := Nat.exists_eq_add_of_le (show more.length + 1 ≤ maxInstrBytes by omega)
  have hfetch : State.fetchRest maxInstrBytes got u =
      State.fetchRest (fuel + 1) (got ++ more) (u.setReg regPC va) := by
    rw [hfuel, Nat.add_assoc, Nat.add_comm 1 fuel,
      State.fetchRest_codeAt _ more got u hp hcode (withinOne_of_error hd), hva]
  rw [hfetch, State.fetchRest_more _ _ _ e (by rw [State.current_setReg hp]; exact hd), State.pc_setReg_pc,
    State.locate_setReg_execute]
  exact ⟨fun hl => by rw [hl], fun hl => by rw [hl]⟩

/-! ### The step -/

/-- Settles O56: outside a handler's return a running machine fetches, from no byte at all. -/
theorem stepRunsDecodedInstruction : Obligations.StepRunsDecodedInstruction := by
  intro s bytes i hfetching hd hcode
  obtain ⟨hrun, hnot⟩ := hfetching
  have hrunning := State.fetchRest_run (u := s.beginInstr) (got := []) nofun
    ((s.codeAt_beginInstr _ _).2 hcode) hd
  exact step_run s _ i hrun ((s.advance_fetch hnot).trans hrunning)

/-- Settles O51: the same fetch, which stops at the address after the bytes that decode to nothing yet. -/
theorem fetchStopsAtMissingByte : Obligations.FetchStopsAtMissingByte := by
  intro s got e va hfetching hcode hd hva
  obtain ⟨hrun, hnot⟩ := hfetching
  obtain ⟨hfault, hdenied⟩ := State.fetchRest_missing (u := s.beginInstr) (got := []) nofun
    ((s.codeAt_beginInstr _ _).2 hcode) hd hva
  rw [State.beginInstr, State.locate_setProgress_execute] at hfault hdenied
  refine ⟨fun hl => ?_, fun hl => ⟨_, ?_, State.haltsWith_halt _ _⟩⟩
  · exact step_settled s _ hrun ((s.advance_fetch hnot).trans (hfault hl))
  · exact step_settled s _ hrun ((s.advance_fetch hnot).trans (hdenied hl))

end Sys2Proof.Machine
end

section
/-! PROOFS. Data accesses that cannot be made (41_load_store.md R165, 44_stack.md R193, 60_exceptions.md R253,
R258), and the entry of a page fault's handler (60_exceptions.md R255 to R257). -/

namespace Sys2Proof.Machine

/-! ### A run that stops at an access -/

/-- Everything but memory is as before the accesses that were made. -/
theorem State.current_made (s : State) (got : List Byte) (xs : List ByteAccess) (pas : List Word) :
    (s.made got xs pas).1.current = s.current := by
  rw [s.made_frame got xs pas]
  rfl

/-- The bytes read by accesses that only read. -/
theorem State.made_snd_of_read (s : State) (got : List Byte) (xs : List ByteAccess) (pas : List Word)
    (hlen : pas.length = xs.length) (hread : ∀ x ∈ xs, x.kind = .read) :
    (s.made got xs pas).2 = got ++ pas.map s.physRead := by
  rw [s.made_read got xs pas hread hlen]

/-- Settles O49: the run goes on to the access that page-faults, in the state those before it leave. -/
theorem dataPageFaultIsTaken : Obligations.DataPageFaultIsTaken := by
  intro i cc op before todo x pas s u got hcc h hi hloc hmade hfault
  obtain ⟨rfl, rfl⟩ := Prod.mk.inj hmade
  refine ⟨?exec, s.ctx_made _ _ _, s.current_made _ _ _, s.suspended_made _ _ _, s.ports_made _ _ _,
    fun hread => ?reads, fun hm => s.made_stored _ _ _ hm⟩
  case exec =>
    rw [exec_of_dataAccesses i cc op _ s hcc h hi, s.runData_made op before _ pas [] hloc,
      State.runData_pageFault (h := hfault)]
  case reads =>
    rw [s.made_read [] before pas hread (s.allLocated_length before pas hloc)]
    exact ⟨rfl, rfl⟩

/-- A halt at a denied access, in the state the accesses before it leave. -/
theorem State.haltsMidway_made (s : State) (got : List Byte) (xs : List ByteAccess) (pas : List Word)
    (hm : Memory.wf s.mem) (reason : HaltReason) :
    HaltsMidway s ((s.made got xs pas).1.halt reason) reason xs pas := by
  have hctx := s.ctx_made got xs pas
  exact ⟨rfl, fun r => congrArg (·.reg r) hctx, congrArg Context.flags hctx,
    (s.made_stored got xs pas hm).of_mem rfl, s.suspended_made _ _ _, s.ports_made _ _ _, rfl⟩

/-- Settles O50: the run goes on to the access that is denied. -/
theorem deniedAccessHalts : Obligations.DeniedAccessHalts := by
  intro i cc op before todo x pas s hm hcc h hi hloc hdenied
  refine ⟨_, ?_, s.haltsMidway_made [] before pas hm _⟩
  rw [exec_of_dataAccesses i cc op _ s hcc h hi, s.runData_made op before _ pas [] hloc,
    State.runData_denied (h := hdenied)]

/-! ### The saved registers in memory -/

/-- The saved word of a register (R257, D37). -/
theorem savedRegAddr_eq (area : ExcArea) (r : RegNum) :
    savedRegAddr area r = area.savedRegs + BitVec.ofNat 16 (2 * r.toNat) := by
  have hmul : 2#16 * r.setWidth 16 = BitVec.ofNat 16 (2 * r.toNat) := by
    apply BitVec.eq_of_toNat_eq
    have := r.isLt
    rw [BitVec.toNat_mul, BitVec.toNat_setWidth, BitVec.toNat_ofNat, BitVec.toNat_ofNat]
    omega
  rw [savedRegAddr, hmul]

/-- Different offsets below 32 from one address reach different bytes. -/
theorem add_ofNat_ne (a : Word) {m n : Nat} (hm : m < 32) (hn : n < 32) (h : m ≠ n) :
    (a + BitVec.ofNat 16 m).toNat ≠ (a + BitVec.ofNat 16 n).toNat := by
  rw [BitVec.toNat_add, BitVec.toNat_add, BitVec.toNat_ofNat, BitVec.toNat_ofNat]
  have := a.isLt
  omega

/-- The two bytes of a written word. -/
theorem memRead_memWriteWord (m : List Host.Cell) (base w : Word) {n : Nat} (hn : n + 1 < 32)
    (hm : Memory.wf m) :
    memRead (memWriteWord m (base + BitVec.ofNat 16 n) w) (base + BitVec.ofNat 16 n).toNat = firstByte w ∧
    memRead (memWriteWord m (base + BitVec.ofNat 16 n) w) (base + BitVec.ofNat 16 (n + 1)).toNat =
      secondByte w := by
  rw [memWriteWord, BitVec.add_assoc, ← BitVec.ofNat_add]
  constructor
  · rw [memRead_memWrite_ne _ _ _ _ (add_ofNat_ne base (by omega) hn (by omega)),
      memRead_memWrite_same _ _ _ hm]
  · rw [memRead_memWrite_same _ _ _ (memWrite_wf _ _ _ (by omega) hm)]

/-- Words written at even offsets from one address, one for each register of a list. -/
def writeWords (base : Word) (val : RegNum → Word) (l : List RegNum) (m : List Host.Cell) : List Host.Cell :=
  l.foldl (fun m r => memWriteWord m (base + BitVec.ofNat 16 (2 * r.toNat)) (val r)) m

theorem saveRegs_eq_writeWords (area : ExcArea) (c : Context) (startPc : Word) (m : List Host.Cell) :
    saveRegs area c startPc m = writeWords area.savedRegs (savedRegValue c startPc) allRegs m := by
  simp only [saveRegs, writeWords, savedRegAddr_eq]

/-- A byte that is part of no written word is as it was. -/
theorem memRead_writeWords_of_ne (base : Word) (val : RegNum → Word) (l : List RegNum) (m : List Host.Cell)
    (q : Nat) (h : ∀ r ∈ l, q ≠ (base + BitVec.ofNat 16 (2 * r.toNat)).toNat ∧
      q ≠ (base + BitVec.ofNat 16 (2 * r.toNat + 1)).toNat) :
    memRead (writeWords base val l m) q = memRead m q := by
  induction l generalizing m with
  | nil => rfl
  | cons r l ih =>
    obtain ⟨h₀, h₁⟩ := h r List.mem_cons_self
    have hrest := ih (memWriteWord m (base + BitVec.ofNat 16 (2 * r.toNat)) (val r))
      fun x hx => h x (List.mem_cons_of_mem r hx)
    refine hrest.trans ?_
    rw [memWriteWord, BitVec.add_assoc, ← BitVec.ofNat_add]
    rw [memRead_memWrite_ne _ _ _ _ h₁, memRead_memWrite_ne _ _ _ _ h₀]

/-- The two bytes of a written word, where no register is written twice. -/
theorem memRead_writeWords (base : Word) (val : RegNum → Word) (l : List RegNum) (m : List Host.Cell)
    (hm : Memory.wf m) (hn : l.Nodup) (r : RegNum) (hr : r ∈ l) :
    memRead (writeWords base val l m) (base + BitVec.ofNat 16 (2 * r.toNat)).toNat = firstByte (val r) ∧
    memRead (writeWords base val l m) (base + BitVec.ofNat 16 (2 * r.toNat + 1)).toNat =
      secondByte (val r) := by
  induction l generalizing m with
  | nil => cases hr
  | cons x l ih =>
    obtain ⟨hx, hn⟩ := List.nodup_cons.1 hn
    obtain rfl | hr := List.mem_cons.1 hr
    · have hkeep : ∀ k < 2, memRead (writeWords base val l
            (memWriteWord m (base + BitVec.ofNat 16 (2 * r.toNat)) (val r)))
            (base + BitVec.ofNat 16 (2 * r.toNat + k)).toNat =
          memRead (memWriteWord m (base + BitVec.ofNat 16 (2 * r.toNat)) (val r))
            (base + BitVec.ofNat 16 (2 * r.toNat + k)).toNat := by
        intro k hk
        refine memRead_writeWords_of_ne base val l _ _ fun y hy => ?_
        have hne : y.toNat ≠ r.toNat := fun e => hx (BitVec.eq_of_toNat_eq e ▸ hy)
        have := r.isLt
        have := y.isLt
        exact ⟨add_ofNat_ne base (by omega) (by omega) (by omega),
          add_ofNat_ne base (by omega) (by omega) (by omega)⟩
      have hlt := r.isLt
      obtain ⟨hfirst, hsecond⟩ := memRead_memWriteWord m base (val r) (n := 2 * r.toNat) (by omega) hm
      exact ⟨(hkeep 0 (by decide)).trans hfirst, (hkeep 1 (by decide)).trans hsecond⟩
    · exact ih _ (memWriteWord_wf _ _ _ hm) hn hr

theorem mem_allRegs (r : RegNum) : r ∈ allRegs := by
  revert r
  decide

theorem allRegs_nodup : allRegs.Nodup := by decide

/-- Each saved register stands in its two bytes (R257 step 2, D37). -/
theorem memRead_saveRegs (area : ExcArea) (c : Context) (startPc : Word) (m : List Host.Cell)
    (hm : Memory.wf m) (r : RegNum) :
    memRead (saveRegs area c startPc m) (area.savedRegs + BitVec.ofNat 16 (2 * r.toNat)).toNat =
      firstByte (savedRegValue c startPc r) ∧
    memRead (saveRegs area c startPc m) (area.savedRegs + BitVec.ofNat 16 (2 * r.toNat + 1)).toNat =
      secondByte (savedRegValue c startPc r) := by
  rw [saveRegs_eq_writeWords]
  exact memRead_writeWords _ _ _ _ hm allRegs_nodup r (mem_allRegs r)

theorem mem_savedArea (area : ExcArea) {n : Nat} (h : n < 32) :
    area.savedRegs + BitVec.ofNat 16 n ∈ savedArea area :=
  List.mem_map.2 ⟨n, List.mem_range.2 h, rfl⟩

/-- A byte outside the saved-register area is as it was (R257). -/
theorem memRead_saveRegs_of_not_mem (area : ExcArea) (c : Context) (startPc : Word) (m : List Host.Cell)
    (pa : Word) (h : pa ∉ savedArea area) :
    memRead (saveRegs area c startPc m) pa.toNat = memRead m pa.toNat := by
  rw [saveRegs_eq_writeWords]
  refine memRead_writeWords_of_ne _ _ _ _ _ fun r _ => ?_
  have hr := r.isLt
  exact ⟨fun e => h (BitVec.eq_of_toNat_eq e ▸ mem_savedArea area (by omega)),
    fun e => h (BitVec.eq_of_toNat_eq e ▸ mem_savedArea area (by omega))⟩

/-! ### The entry of a handler -/

/-- The page of a handler (R255). -/
theorem State.handlerPage_eq (s : State) (va : Word) :
    s.handlerPage va = s.physRead (BitVec.ofNat 16 (0xFC00 + 4 * (va.toNat / 256) + 3)) := by
  rw [State.handlerPage, tteAddr_eq]
  exact congrArg s.physRead (BitVec.ofNat_add _ 3).symm

/-- Settles O47: the handler's context, and memory with the registers saved. -/
theorem pageFaultEntersHandler : Obligations.PageFaultEntersHandler := by
  intro s va k work hm hmf hpage
  obtain ⟨h0, -⟩ | ⟨-, hmf', -⟩ | ⟨-, -, henter⟩ := s.pageFault_cases va k work
  · exact absurd h0 hpage
  · exact absurd (hmf.symm.trans hmf') Bool.false_ne_true
  rw [henter]
  have hreg : ∀ r, (s.enterHandler Config.excArea va k (s.handlerPage va) work).reg r =
      (handlerContext Config.excArea va k s.pc (s.handlerPage va)).reg r := fun r => by
    rw [State.reg, State.ctx_enterHandler]
  have hmem : ∀ pa, (s.enterHandler Config.excArea va k (s.handlerPage va) work).physRead pa =
      memRead (saveRegs Config.excArea s.ctx s.current.startPc s.mem) pa.toNat := fun pa => by
    rw [State.physRead, State.mem_enterHandler]
  refine ⟨?r1, ?r2, ?r3, ?r4, ?r5, ?zeros, ?sp, ?ra, ?pc, handlerContext_flags ..,
    State.suspended_enterHandler .., State.progress_enterHandler .., State.ports_enterHandler ..,
    State.status_enterHandler .., fun r => ?saved,
    fun pa hpa => (hmem pa).trans (memRead_saveRegs_of_not_mem _ _ _ _ pa hpa)⟩
  case r1 => exact (hreg _).trans ((handlerContext_reg ..).trans (tteAddr_eq va))
  case r2 | r4 | r5 | sp | ra =>
    rw [hreg, handlerContext_reg]
    simp [regPC, regRA, regSP]
  case r3 =>
    refine (hreg _).trans ((handlerContext_reg ..).trans ?_)
    cases k <;> rfl
  case zeros =>
    intro r hr
    rw [hreg, handlerContext_reg]
    revert r
    simp [regPC, regRA, regSP]
  case pc =>
    rw [State.pc, hreg, handlerContext_reg, if_pos rfl, toNat_inPage, s.handlerPage_eq]
    rfl
  case saved =>
    obtain ⟨hfirst, hsecond⟩ := memRead_saveRegs Config.excArea s.ctx s.current.startPc s.mem hm r
    rw [hmem, hmem, hfirst, hsecond]
    exact ⟨toNat_firstByte _, toNat_secondByte _⟩

end Sys2Proof.Machine
end

section
/-! PROOFS. The return of a page fault's handler (60_exceptions.md R260, R261): the thread gets its registers
back, and the suspended instruction is dropped or goes on. -/

namespace Sys2Proof.Machine

/-! ### What the saved area says -/

/-- The instruction is not marked complete (R260 step 3). -/
theorem markedComplete_eq_false_iff (area : ExcArea) (m : List Host.Cell) (startPc : Word) :
    markedComplete area m startPc = false ↔
      memReadWord m area.savedRegs = 0#16 ∧ memReadWord m (area.savedRegs + 28#16) = startPc := by
  have h0 : savedRegAddr area 0#4 = area.savedRegs := (savedRegAddr_eq area 0#4).trans (BitVec.add_zero _)
  have hpc : savedRegAddr area regPC = area.savedRegs + 28#16 := savedRegAddr_eq area regPC
  rw [markedComplete, h0, hpc, Bool.or_eq_false_iff, bne_eq_false_iff_eq, bne_eq_false_iff_eq]

/-- The saved word of a register comes back (R260 step 4). -/
theorem State.reg_leaveHandler_of_ne (s : State) (area : ExcArea) (t : Suspended) {r : RegNum} (h0 : r ≠ 0#4)
    (hpc : r ≠ 14#4) : (s.leaveHandler area t).reg r =
      memReadWord s.mem (area.savedRegs + BitVec.ofNat 16 (2 * r.toNat)) := by
  rw [s.reg_leaveHandler area t r, if_neg h0, if_neg fun h => hpc h.1, savedRegAddr_eq]

/-- `PC` comes back only if its saved word was changed (R260 step 5). -/
theorem State.pc_leaveHandler (s : State) (area : ExcArea) (t : Suspended) : (s.leaveHandler area t).pc =
    if memReadWord s.mem (area.savedRegs + 28#16) = t.progress.startPc then t.thread.reg 14#4
    else memReadWord s.mem (area.savedRegs + 28#16) := by
  have hpc : savedRegAddr area regPC = area.savedRegs + 28#16 := savedRegAddr_eq area regPC
  rw [State.pc, s.reg_leaveHandler area t regPC, if_neg (by decide), hpc]
  simp only [true_and]
  rfl

/-! ### The instruction marked complete -/

/-- Settles O52: the thread as the handler is left, its instruction ended. -/
theorem completedHandlerReturn : Obligations.CompletedHandlerReturn := by
  intro s t hrun hsusp hat hmarked
  have hcomplete : markedComplete Config.excArea s.mem t.progress.startPc = true := by
    rw [← Bool.not_eq_false, markedComplete_eq_false_iff, Classical.not_and_iff_not_or_not]
    exact hmarked
  have hadv := (s.advance_return t hsusp hat).trans (s.afterHandler_complete _ t hcomplete)
  exact ⟨_, step_settled s _ hrun hadv, fun r h0 hpc => s.reg_leaveHandler_of_ne Config.excArea t h0 hpc,
    s.pc_leaveHandler Config.excArea t, rfl, s.mem_leaveHandler Config.excArea t, rfl, rfl, rfl, hrun⟩

/-! ### The instruction that goes on -/

/-- The thread that a handler's return leaves, where nothing is marked. -/
theorem State.returned_leaveHandler (s : State) (t : Suspended) (hrun : s.status = .running)
    (hpc : memReadWord s.mem (Config.excArea.savedRegs + 28#16) = t.progress.startPc) :
    Returned s (s.leaveHandler Config.excArea t) t :=
  ⟨fun _ h0 h14 => s.reg_leaveHandler_of_ne _ t h0 h14, (s.pc_leaveHandler _ t).trans (if_pos hpc),
    s.flags_leaveHandler _ t, s.mem_leaveHandler _ t, rfl, s.suspended_leaveHandler _ t,
    s.ports_leaveHandler _ t, hrun⟩

/-- The physical check looks at memory only (R67). -/
theorem State.physAllowed_of_mem {s b : State} (h : b.mem = s.mem) (pa : Word) :
    b.physAllowed pa = s.physAllowed pa := by
  rw [b.physAllowed_eq, s.physAllowed_eq, State.physRead_of_mem s b h]

section ContinueData

variable {b : State} {ret : Word} {op : DataOp} {got : List Byte} {x : ByteAccess}

/-- The faulting access made at an allowed address, and those after it. -/
theorem State.continueData_allowed (h : b.physAllowed ret = true) (todo : List ByteAccess) :
    b.continueData ret op got x todo = (b.access x ret got).1.runData op todo (b.access x ret got).2 :=
  if_pos h

/-- All accesses left can be made: the instruction commits. -/
theorem State.continueData_committed (h : b.physAllowed ret = true) {todo : List ByteAccess}
    {pas : List Word} (hloc : (b.access x ret got).1.AllLocated todo pas) :
    Committed op (b.made got (x :: todo) (ret :: pas)).2 b (b.continueData ret op got x todo) ∧
      (b.continueData ret op got x todo).mem = (b.made got (x :: todo) (ret :: pas)).1.mem := by
  rw [State.continueData_allowed h]
  exact State.runData_allLocated _ b op todo pas (b.access x ret got).2 (b.access_frame x ret got) hloc

/-- The accesses left that can be made lead to the next one. -/
theorem State.continueData_made (h : b.physAllowed ret = true) {before : List ByteAccess} {pas : List Word}
    (hloc : (b.access x ret got).1.AllLocated before pas) (todo : List ByteAccess) :
    b.continueData ret op got x (before ++ todo) = (b.made got (x :: before) (ret :: pas)).1.runData op todo
      (b.made got (x :: before) (ret :: pas)).2 := by
  rw [State.continueData_allowed h, State.runData_made _ _ _ _ _ _ hloc]
  rfl

end ContinueData

/-- What is read from the returned address on is what memory held at the handler's return. -/
theorem State.made_snd_of_mem {s b : State} (hmem : b.mem = s.mem) (got : List Byte) {xs : List ByteAccess}
    {pas : List Word} (hlen : pas.length = xs.length) (hread : ∀ y ∈ xs, y.kind = .read) :
    (b.made got xs pas).2 = got ++ pas.map s.physRead := by
  rw [b.made_snd_of_read got xs pas hlen hread, funext (State.physRead_of_mem s b hmem)]

section ContinueFetch

variable {b : State} {ret : Word} {got more : List Byte}

/-- A code byte taken at the returned address; the fetch goes on from the next stride. -/
theorem State.continueFetch_allowed (h : b.physAllowed ret = true) : b.continueFetch ret got =
    State.fetchRest maxInstrBytes (got ++ [b.physRead ret]) (b.setReg regPC (b.pc + 1#16 + b.dpc)) :=
  if_pos h

/-- An instruction that becomes complete is run with the decode state it had. -/
theorem State.continueFetch_run (h : b.physAllowed ret = true) (hprog : b.progress ≠ none) {c : State}
    (hc : c = b.setReg regPC (b.pc + 1#16 + b.dpc)) (hcode : c.CodeAt c.pc more) {i : Instr}
    (hd : decode b.current.xc (got ++ b.physRead ret :: more) = .ok (i, [])) :
    b.continueFetch ret got = .run i (c.setReg regPC (afterBytes c.pc c.dpc more.length)) := by
  subst hc
  rw [List.append_cons, ← State.current_setReg hprog] at hd
  rw [State.continueFetch_allowed h]
  exact State.fetchRest_run (u := b.setReg regPC _) hprog hcode hd

/-- A next byte that cannot be fetched stops the step at its address. -/
theorem State.continueFetch_missing (h : b.physAllowed ret = true) (hprog : b.progress ≠ none) {c : State}
    (hc : c = b.setReg regPC (b.pc + 1#16 + b.dpc)) (hcode : c.CodeAt c.pc more) {va : Word}
    (hva : va = afterBytes c.pc c.dpc more.length) {e : DecodeError}
    (hd : decode b.current.xc (got ++ b.physRead ret :: more) = .error e) :
    (c.locate va .execute = .pageFault → b.continueFetch ret got = .settled
      ((c.setReg regPC va).pageFault va .execute (.fetch (got ++ b.physRead ret :: more)))) ∧
    (c.locate va .execute = .denied → b.continueFetch ret got =
      .settled ((c.setReg regPC va).halt .doubleFault)) := by
  subst hc
  rw [List.append_cons, ← State.current_setReg hprog] at hd
  rw [State.continueFetch_allowed h, List.append_cons got _ more]
  exact State.fetchRest_missing (u := b.setReg regPC _) hprog hcode hd hva

end ContinueFetch

/-- A returned address that is not allowed halts whatever was suspended (R261). -/
theorem State.afterHandler_denied {s : State} {area : ExcArea} {t : Suspended}
    (hmarked : markedComplete area s.mem t.progress.startPc = false)
    (h : (s.leaveHandler area t).physAllowed (s.reg 2#4) = false) :
    s.afterHandler area t = .settled ((s.leaveHandler area t).halt .doubleFault) := by
  cases hw : t.work with
  | fetch got =>
    rw [s.afterHandler_fetch area t got hmarked hw, State.continueFetch, h]
    rfl
  | data op got x todo =>
    rw [s.afterHandler_data area t op got x todo hmarked hw, State.continueData, h]
    rfl

/-- Settles O53: the step is the rest of the suspended work, in the state the handler's return leaves. -/
theorem handlerReturnContinues : Obligations.HandlerReturnContinues := by
  intro s t ret hrun hsusp hat hret hzero hpc
  subst hret
  have hmarked := (markedComplete_eq_false_iff Config.excArea s.mem t.progress.startPc).2 ⟨hzero, hpc⟩
  have hadv := s.advance_return t hsusp hat
  have hreturned := s.returned_leaveHandler t hrun hpc
  have hmem : (s.leaveHandler Config.excArea t).mem = s.mem := s.mem_leaveHandler _ t
  have hne : (s.leaveHandler Config.excArea t).progress ≠ none := Option.some_ne_none t.progress
  have hxc : (s.leaveHandler Config.excArea t).current.xc = t.progress.xc := rfl
  have hallowed := State.physAllowed_of_mem hmem (s.reg 2#4)
  have hdata := s.afterHandler_data Config.excArea t
  have hfetch := s.afterHandler_fetch Config.excArea t
  have hdenied := State.afterHandler_denied (t := t) hmarked
  generalize s.leaveHandler Config.excArea t = b at *
  refine ⟨b, hreturned, fun hno => ?denied, fun hok => ?allowed⟩
  case denied =>
    exact ⟨_, step_settled s _ hrun (hadv.trans (hdenied (hallowed.trans hno))), b.haltsWith_halt _⟩
  have hok' := hallowed.trans hok
  refine ⟨?commit, ?stop, ?code⟩
  case commit =>
    intro op got x todo pas hwork hm hloc
    obtain ⟨hcommit, hmem'⟩ := State.continueData_committed (op := op) hok' hloc
    have hlen := congrArg Nat.succ (State.allLocated_length _ _ _ hloc)
    exact ⟨_, _, step_settled s _ hrun (hadv.trans (hdata op got x todo hmarked hwork)), hcommit,
      fun hread => State.made_snd_of_mem hmem got hlen hread,
      (b.made_stored got _ _ (hmem ▸ hm)).of_mem hmem'⟩
  case stop =>
    intro op got x before y todo pas c all hwork hm hloc hmade
    obtain ⟨hc, hall⟩ : c = _ ∧ all = _ := ⟨congrArg Prod.fst hmade, congrArg Prod.snd hmade⟩
    subst hc hall
    have hstep := step_settled s _ hrun (hadv.trans (hdata op got x _ hmarked hwork))
    rw [State.continueData_made hok' hloc] at hstep
    have hlen := congrArg Nat.succ (State.allLocated_length _ _ _ hloc)
    refine ⟨fun hl => ⟨?_, b.ctx_made _ _ _, b.progress_made _ _ _, b.made_stored _ _ _ (hmem ▸ hm),
      fun hread => State.made_snd_of_mem hmem got hlen hread⟩, fun hl => ?_⟩
    · rw [hstep, State.runData_pageFault (h := hl)]
    · rw [State.runData_denied (h := hl)] at hstep
      exact ⟨_, hstep, b.haltsMidway_made got _ _ (hmem ▸ hm) _⟩
  case code =>
    intro got more c va hwork hc hcode hva
    have hcont := hadv.trans (hfetch got hmarked hwork)
    rw [← hxc, ← State.physRead_of_mem s b hmem]
    refine ⟨fun i hd => ?_, fun e hd => ?_⟩
    · rw [hva]
      exact step_run s _ i hrun (hcont.trans (State.continueFetch_run hok' hne hc hcode hd))
    · obtain ⟨hfault, hden⟩ := State.continueFetch_missing hok' hne hc hcode hva hd
      exact ⟨fun hl => step_settled s _ hrun (hcont.trans (hfault hl)),
        fun hl => ⟨_, step_settled s _ hrun (hcont.trans (hden hl)), State.haltsWith_halt _ _⟩⟩

/-! ### A whole page fault -/

/-- The saved words of a handler that leaves the saved area alone are those of the entry. -/
theorem memReadWord_saved {area : ExcArea} {s h : State} {va : Word} {k : Kind} {page : Byte} {work : Work}
    (hm : Memory.wf s.mem)
    (hsaved : ∀ pa ∈ savedArea area, h.physRead pa = (s.enterHandler area va k page work).physRead pa)
    (r : RegNum) : memReadWord h.mem (area.savedRegs + BitVec.ofNat 16 (2 * r.toNat)) =
      savedRegValue s.ctx s.current.startPc r := by
  obtain ⟨hfirst, hsecond⟩ := memRead_saveRegs area s.ctx s.current.startPc s.mem hm r
  have hlt := r.isLt
  have h₀ := hsaved _ (mem_savedArea area (n := 2 * r.toNat) (by omega))
  have h₁ := hsaved _ (mem_savedArea area (n := 2 * r.toNat + 1) (by omega))
  rw [State.physRead, State.physRead, State.mem_enterHandler, hfirst] at h₀
  rw [State.physRead, State.physRead, State.mem_enterHandler, hsecond] at h₁
  rw [memReadWord, BitVec.add_assoc, ← BitVec.ofNat_add, h₀, h₁, wordOfBytes_bytes]

/-- Settles O54: the thread comes back as it was suspended, and the load's one byte is read at the returned
address. -/
theorem unmarkedFaultFinishesLoad : Obligations.UnmarkedFaultFinishesLoad := by
  intro area s h va page rd wf work hm hmf hwork hsaved hallowed
  have hword := memReadWord_saved hm hsaved
  have hmarked : markedComplete area h.mem s.current.startPc = false :=
    (markedComplete_eq_false_iff area h.mem s.current.startPc).2
      ⟨by simpa [savedRegValue, regPC] using hword 0#4, hword 14#4⟩
  have hafter := h.afterHandler_data area ⟨s.ctx, s.current, work⟩ (.loadByte rd wf) [] ⟨.read, va, 0#8⟩ []
    hmarked hwork
  have hreg : ∀ r, (h.leaveHandler area ⟨s.ctx, s.current, work⟩).reg r = s.reg r := by
    intro r
    by_cases h0 : r = 0#4
    · rw [h0, State.reg_zero, State.reg_zero]
    by_cases hpc : r = 14#4
    · rw [hpc]
      exact (h.pc_leaveHandler area _).trans (if_pos (hword 14#4))
    · rw [h.reg_leaveHandler_of_ne area _ h0 hpc, hword, savedRegValue, if_neg (show r ≠ regPC from hpc)]
      rfl
  have hmem := h.mem_leaveHandler area ⟨s.ctx, s.current, work⟩
  have hflags : (h.leaveHandler area ⟨s.ctx, s.current, work⟩).flags = s.flags := by
    rw [h.flags_leaveHandler]
    show { s.flags with mf := false } = s.flags
    rw [← hmf]
  have hsusp := h.suspended_leaveHandler area ⟨s.ctx, s.current, work⟩
  generalize h.leaveHandler area ⟨s.ctx, s.current, work⟩ = b at hafter hreg hmem hflags hsusp
  obtain ⟨⟨⟨hkeep, hkmf, hksusp, -, -, hidle⟩, hbyte⟩, hmem'⟩ := State.continueData_committed
    (b := b) (ret := h.reg 2#4) (op := .loadByte rd wf) (got := []) (x := ⟨.read, va, 0#8⟩) (todo := [])
    (pas := []) ((State.physAllowed_of_mem hmem _).trans hallowed) trivial
  obtain ⟨v, hv, hrd, hz⟩ := hbyte _ rfl
  rw [hflags] at hz hkmf
  refine ⟨_, v, hafter, hv.trans ?_, hrd, fun r hr => ?_, hz, hkmf.trans hmf, hmem'.trans hmem, hidle,
    hksusp.trans hsusp⟩
  · rw [State.physRead_of_mem h b hmem]
  · exact (hkeep r (by simpa using hr)).trans (hreg r)

end Sys2Proof.Machine
end
